-- ==== Sys2Proof/Word.lean ====
section
/-! DEFINITION. The word types of the block: bit vectors only where the spec treats a value as bits. -/

namespace Sys2Proof

/-- A 32-bit word: a command word, a header word, a StreamID, a ring element (rules R26, R92, R95). -/
abbrev Word := BitVec 32

/-- One byte of a datagram, a payload or a playback buffer (rule R10). -/
abbrev Byte := BitVec 8

/-- One signed 16-bit PCM sample (rules R31, R220). -/
abbrev Sample := BitVec 16

/-- One 16-bit waterfall bin value, BIN_W = 16 (rules R8, R35). -/
abbrev Bin := BitVec 16

/-- A frequency in hertz, FREQ_W = 64 (rules R8, R33). -/
abbrev Freq := BitVec 64

end Sys2Proof
end

