-- ==== Sys2Proof/Syntax.lean ====
section
/-! DEFINITION. The operations of the block and the records they carry: one constructor of `Instr` per
row of the opcode table (rule R100), with the operand record of rule R96 as its arguments. -/

namespace Sys2Proof

/-- The header record `hdr` of rule R99, the document's PacketHeader. -/
structure Header where
  pktType : BitVec 4
  c : Bool
  t : Bool
  tsi : BitVec 4
  tsf : BitVec 2
  count : BitVec 4
  size : BitVec 16
  deriving DecidableEq, Repr

/-- The ClassID record of rule R99, as DECODE delivers it. -/
structure ClassId where
  oui : BitVec 24
  infoClass : BitVec 16
  packetClass : BitVec 16
  deriving DecidableEq, Repr

/-- The ClassID operand of ENCODE. Its `oui` may be wider than 24 bits and is then masked
(rule R123, vector VC5). DEDUCED: 32 bits, see log 13. -/
structure ClassIdArg where
  oui : BitVec 32
  infoClass : BitVec 16
  packetClass : BitVec 16
  deriving DecidableEq, Repr

/-- A 24-bit ClassID as an operand: zero-extended (rule R105 (b)). -/
def ClassId.toArg (k : ClassId) : ClassIdArg :=
  { oui := k.oui.setWidth 32, infoClass := k.infoClass, packetClass := k.packetClass }

/-- The fragment record `f` of rule R98, the operand of WFFRAG. -/
structure Fragment where
  total : BitVec 16
  first : BitVec 16
  width : BitVec 16
  timecode : BitVec 32
  low : Freq
  bw : Freq
  abl : BitVec 32
  bins : List Bin
  deriving DecidableEq, Repr

/-- TX_TMPL, the tuple of rule R37. -/
structure TxTemplate where
  pktType : BitVec 4
  c : Bool
  t : Bool
  tsi : BitVec 4
  tsf : BitVec 2
  oui : BitVec 24
  infoClass : BitVec 16
  packetClass : BitVec 16
  deriving DecidableEq, Repr, Inhabited

/-- A slot of the stream table as SIDSET names it (rule R156): `idx` below 0xFE is a waterfall slot (legal
only when below N_WF, rule R101), 0xFE is SID_RXA, 0xFF is SID_TX. -/
inductive Slot where
  | wf (i : Fin 254)
  | rxa
  | tx
  deriving DecidableEq, Repr

/-- The seventeen operations of rule R100, each with the operand record of rule R96. -/
inductive Instr where
  | decode (dgram : List Byte)
  | encode (hdr : Header) (streamId : Word) (classId : ClassIdArg) (payload : List Byte)
  | txpkt (payload : List Byte)
  | txinit
  | rxdgram (dgram : List Byte)
  | sidset (slot : Slot) (value : Word)
  | wffrag (ctx : BitVec 8) (frag : Fragment)
  | rbins (elem : Word)
  | rbpop
  | rbsize
  | rbclr
  | pushb (samples : List Sample)
  | read (count : BitVec 16)
  | daset
  | dawait
  | closeStream
  | openStream
  deriving DecidableEq, Repr

/-- One typed item of an operand record on DATA_IN (rule R96: "The records are typed items"). -/
inductive DataItem where
  | byte (b : Byte)
  | sample (s : Sample)
  | word (w : Word)
  | header (h : Header)
  | classId (k : ClassIdArg)
  | fragment (f : Fragment)
  deriving DecidableEq, Repr

/-- One command as an agent issues it: the command word on CMD and the items that accompany it on
DATA_IN (rules R95, R96). -/
structure Command where
  word : Word
  items : List DataItem
  deriving DecidableEq, Repr

end Sys2Proof
end

