-- ==== Sys2Proof/Config.lean ====
section
/-! DEFINITION. The parameters of rules R6 to R8: the ones the spec fixes, the defaults it gives, and the
OPEN ones as constants without a body, so that nothing can be proved of a value of theirs. -/

namespace Sys2Proof

/-- HDR_BYTES = 28 (rule R6). -/
abbrev Config.hdrBytes : Nat := 28

/-- HDR_WORDS = 7 (rule R6). -/
abbrev Config.hdrWords : Nat := 7

/-- MARGIN = 4 of the producer's overflow test (rule R6). -/
abbrev Config.margin : Nat := 4

/-- MAX_DGRAM = 65535 (rule R8). -/
abbrev Config.maxDgram : Nat := 65535

/-- The longest payload of ENCODE and TXPKT, MAX_DGRAM - 28 (rule R101). -/
abbrev Config.maxPayload : Nat := 65507

/-- MAX_BATCH = 65535 (rule R8). -/
abbrev Config.maxBatch : Nat := 65535

/-- MAX_READ = 65535 (rule R8). -/
abbrev Config.maxRead : Nat := 65535

/-- MAX_BINS = 65535 (rule R8). -/
abbrev Config.maxBins : Nat := 65535

/-- The default ring capacity, N = 2880 (rule R7). -/
abbrev Config.defaultCap : Nat := 2880

/-- The default number of waterfall contexts, N_WF = 1 (rule R8). -/
abbrev Config.defaultWf : Nat := 1

/-- OPEN `tile_parse` (rules R98, R153): payload bytes to a fragment record or none. A model "must take
`tile_parse` as an argument and must not build that candidate in". Log 2. -/
opaque Config.tileParse : List Byte → Option Fragment

/-- OPEN `TX_TMPL` (rule R37), the value `State.reset` holds. Log 1. -/
opaque Config.txTemplate : TxTemplate

/-- OPEN `mhz_repr` (rule R176): the characters in which a subscriber receives a value in MHz. Log 3. -/
opaque Config.mhzRepr : Rat → List Char

/-- The configuration of a run (rule R21): "fixed for a run, never written by an operation". -/
structure Params where
  /-- RB_CAP, the ring capacity N (rules R7, R24). -/
  rbCap : Nat
  /-- N_WF, the number of waterfall contexts (rule R8). -/
  nWf : Nat
  /-- TX_TMPL (rule R37). -/
  txTmpl : TxTemplate
  deriving DecidableEq, Repr

/-- The parameters at the spec's defaults, TX_TMPL left open. -/
def Params.default : Params :=
  { rbCap := Config.defaultCap, nWf := Config.defaultWf, txTmpl := Config.txTemplate }

/-- The constraints the spec puts on the parameters: 4 ≤ N < 2^31 (rules R7, R24), 1 ≤ N_WF ≤ 254
(92_eei_decisions.md, OPEN parameters). -/
def Params.ok (p : Params) : Bool :=
  decide (4 ≤ p.rbCap) && decide (p.rbCap < 2 ^ 31) && decide (1 ≤ p.nWf) && decide (p.nWf ≤ 254)

end Sys2Proof
end

