-- ==== Sys2Proof/WellFormed.lean ====
section
/-! DEFINITION. Which instructions are well formed: the bounds of rules R96 and R101 that depend on no
state. What depends on state or on N_WF is tested when the command is carried out (Machine/Flags.lean). -/

namespace Sys2Proof

/-- Well-formedness of an instruction: the lengths a 16-bit `imm` and rule R101 admit, a READ of at least
one element, a context index that some N_WF admits. -/
def Instr.wf : Instr → Bool
  | .decode dgram => decide (dgram.length ≤ Config.maxDgram)
  | .encode _ _ _ payload => decide (payload.length ≤ Config.maxPayload)
  | .txpkt payload => decide (payload.length ≤ Config.maxPayload)
  | .txinit => true
  | .rxdgram dgram => decide (dgram.length ≤ Config.maxDgram)
  | .sidset _ _ => true
  | .wffrag ctx _ => decide (ctx.toNat < 254)
  | .rbins _ => true
  | .rbpop => true
  | .rbsize => true
  | .rbclr => true
  | .pushb samples => decide (samples.length ≤ Config.maxBatch)
  | .read count => decide (1 ≤ count.toNat)
  | .daset => true
  | .dawait => true
  | .closeStream => true
  | .openStream => true

end Sys2Proof
end

