-- ==== Sys2Proof/Decode.lean ====
section
/-! DEFINITION. The command word (rules R95, R100, R101), the operand record (rule R96), the decoder from
both to an `Instr`, and the encoder written from the same tables. -/

namespace Sys2Proof

/-! ## The opcode table, rule R100 -/

/-- The rows of rule R100. -/
inductive Opcode where
  | decode | encode | txpkt | txinit | rxdgram | sidset | wffrag | rbins | rbpop | rbsize | rbclr
  | pushb | read | daset | dawait | closeStream | openStream
  deriving DecidableEq, Repr

/-- The three formats of rule R95: no operand, index, length. -/
inductive Format where
  | z | x | l
  deriving DecidableEq, Repr

/-- Column "op" of rule R100. -/
def Opcode.code : Opcode → BitVec 8
  | .decode => 0x01
  | .encode => 0x02
  | .txpkt => 0x03
  | .txinit => 0x04
  | .rxdgram => 0x08
  | .sidset => 0x09
  | .wffrag => 0x10
  | .rbins => 0x20
  | .rbpop => 0x21
  | .rbsize => 0x22
  | .rbclr => 0x23
  | .pushb => 0x30
  | .read => 0x31
  | .daset => 0x32
  | .dawait => 0x33
  | .closeStream => 0x34
  | .openStream => 0x35

/-- Column "format" of rule R100. -/
def Opcode.format : Opcode → Format
  | .decode | .encode | .txpkt | .rxdgram | .pushb | .read => .l
  | .sidset | .wffrag => .x
  | .txinit | .rbins | .rbpop | .rbsize | .rbclr | .daset | .dawait | .closeStream | .openStream => .z

/-- The row an opcode byte selects; every other byte is reserved (rule R101). -/
def Opcode.ofCode? (b : BitVec 8) : Option Opcode :=
  match b.toNat with
  | 0x01 => some .decode
  | 0x02 => some .encode
  | 0x03 => some .txpkt
  | 0x04 => some .txinit
  | 0x08 => some .rxdgram
  | 0x09 => some .sidset
  | 0x10 => some .wffrag
  | 0x20 => some .rbins
  | 0x21 => some .rbpop
  | 0x22 => some .rbsize
  | 0x23 => some .rbclr
  | 0x30 => some .pushb
  | 0x31 => some .read
  | 0x32 => some .daset
  | 0x33 => some .dawait
  | 0x34 => some .closeStream
  | 0x35 => some .openStream
  | _ => none

/-! ## The fields of the command word, rule R95 -/

/-- `op = cmd[31:24]`. -/
def opField (w : Word) : BitVec 8 := w.extractLsb' 24 8

/-- `idx = cmd[23:16]`. -/
def idxField (w : Word) : BitVec 8 := w.extractLsb' 16 8

/-- `imm = cmd[15:0]`. -/
def immField (w : Word) : BitVec 16 := w.extractLsb' 0 16

/-- The command word with these three fields. -/
def commandWord (op idx : BitVec 8) (imm : BitVec 16) : Word := op ++ idx ++ imm

/-- Why a command is not decoded, by name. -/
inductive DecodeError where
  /-- The opcode byte is not one of the seventeen (rule R101). -/
  | reservedOpcode (op : BitVec 8)
  /-- A field that the format requires to be 0 is not (rules R95, R101). -/
  | formatField (op : Opcode)
  /-- The items on DATA_IN are not the record rule R96 gives the operation: an input the spec's interface
  does not form (log 7). -/
  | operandRecord (op : Opcode)
  deriving DecidableEq, Repr

/-- The format requirements of rule R95. -/
def Format.admits (f : Format) (idx : BitVec 8) (imm : BitVec 16) : Bool :=
  match f with
  | .z => idx == 0 && imm == 0
  | .x => imm == 0
  | .l => idx == 0

/-- The row a command word selects, or why it is illegal by its bits alone. -/
def decodeWord (w : Word) : Except DecodeError Opcode :=
  match Opcode.ofCode? (opField w) with
  | none => .error (.reservedOpcode (opField w))
  | some op =>
    if op.format.admits (idxField w) (immField w) then .ok op else .error (.formatField op)

/-! ## The operand record, rule R96 -/

/-- The bytes of a record made of bytes only. -/
def allBytes : List DataItem → Option (List Byte)
  | [] => some []
  | .byte b :: rest => (allBytes rest).map (b :: ·)
  | _ :: _ => none

/-- The samples of a record made of samples only. -/
def allSamples : List DataItem → Option (List Sample)
  | [] => some []
  | .sample v :: rest => (allSamples rest).map (v :: ·)
  | _ :: _ => none

/-- Exactly `imm` bytes. -/
def bytesOperand (imm : BitVec 16) (items : List DataItem) : Option (List Byte) :=
  match allBytes items with
  | some bs => if bs.length = imm.toNat then some bs else none
  | none => none

/-- Exactly `imm` samples. -/
def samplesOperand (imm : BitVec 16) (items : List DataItem) : Option (List Sample) :=
  match allSamples items with
  | some vs => if vs.length = imm.toNat then some vs else none
  | none => none

/-- No item. -/
def noOperand (i : Instr) (items : List DataItem) : Option Instr :=
  match items with
  | [] => some i
  | _ :: _ => none

/-- The slot an `idx` names (rule R156). -/
def Slot.ofIdx (idx : BitVec 8) : Slot :=
  if h : idx.toNat < 254 then .wf ⟨idx.toNat, h⟩ else if idx = 0xFE then .rxa else .tx

/-- The `idx` of a slot (rule R156). -/
def Slot.toIdx : Slot → BitVec 8
  | .wf i => BitVec.ofNat 8 i.val
  | .rxa => 0xFE
  | .tx => 0xFF

/-- The instruction of a row with the operands its command carries (rule R96). -/
def assemble (op : Opcode) (idx : BitVec 8) (imm : BitVec 16) (items : List DataItem) :
    Option Instr :=
  match op with
  | .decode => (bytesOperand imm items).map .decode
  | .encode =>
    match items with
    | .header h :: .word sid :: .classId k :: rest => (bytesOperand imm rest).map (.encode h sid k)
    | _ => none
  | .txpkt => (bytesOperand imm items).map .txpkt
  | .txinit => noOperand .txinit items
  | .rxdgram => (bytesOperand imm items).map .rxdgram
  | .sidset =>
    match items with
    | [.word v] => some (.sidset (Slot.ofIdx idx) v)
    | _ => none
  | .wffrag =>
    match items with
    | [.fragment f] => some (.wffrag idx f)
    | _ => none
  | .rbins =>
    match items with
    | [.word e] => some (.rbins e)
    | _ => none
  | .rbpop => noOperand .rbpop items
  | .rbsize => noOperand .rbsize items
  | .rbclr => noOperand .rbclr items
  | .pushb => (samplesOperand imm items).map .pushb
  | .read => noOperand (.read imm) items
  | .daset => noOperand .daset items
  | .dawait => noOperand .dawait items
  | .closeStream => noOperand .closeStream items
  | .openStream => noOperand .openStream items

/-- The decoder: total on every command, rejecting by name. -/
def decodeCommand (c : Command) : Except DecodeError Instr :=
  match decodeWord c.word with
  | .error e => .error e
  | .ok op =>
    match assemble op (idxField c.word) (immField c.word) c.items with
    | some i => .ok i
    | none => .error (.operandRecord op)

/-! ## The encoder -/

/-- The row of an instruction. -/
def Instr.opcode : Instr → Opcode
  | .decode _ => .decode
  | .encode _ _ _ _ => .encode
  | .txpkt _ => .txpkt
  | .txinit => .txinit
  | .rxdgram _ => .rxdgram
  | .sidset _ _ => .sidset
  | .wffrag _ _ => .wffrag
  | .rbins _ => .rbins
  | .rbpop => .rbpop
  | .rbsize => .rbsize
  | .rbclr => .rbclr
  | .pushb _ => .pushb
  | .read _ => .read
  | .daset => .daset
  | .dawait => .dawait
  | .closeStream => .closeStream
  | .openStream => .openStream

/-- The `idx` field of an instruction's command word. -/
def Instr.idx : Instr → BitVec 8
  | .sidset slot _ => slot.toIdx
  | .wffrag ctx _ => ctx
  | .decode _ | .encode _ _ _ _ | .txpkt _ | .txinit | .rxdgram _ | .rbins _ | .rbpop | .rbsize
  | .rbclr | .pushb _ | .read _ | .daset | .dawait | .closeStream | .openStream => 0

/-- The `imm` field of an instruction's command word: a length or count (rule R95). -/
def Instr.imm : Instr → BitVec 16
  | .decode dgram => BitVec.ofNat 16 dgram.length
  | .encode _ _ _ payload => BitVec.ofNat 16 payload.length
  | .txpkt payload => BitVec.ofNat 16 payload.length
  | .rxdgram dgram => BitVec.ofNat 16 dgram.length
  | .pushb samples => BitVec.ofNat 16 samples.length
  | .read count => count
  | .txinit | .sidset _ _ | .wffrag _ _ | .rbins _ | .rbpop | .rbsize | .rbclr | .daset | .dawait
  | .closeStream | .openStream => 0

/-- The command word of an instruction (rules R95, R100). -/
def Instr.word (i : Instr) : Word := commandWord i.opcode.code i.idx i.imm

/-- The operand record of an instruction, in the order of rule R96. -/
def Instr.items : Instr → List DataItem
  | .decode dgram => dgram.map .byte
  | .encode hdr sid k payload => .header hdr :: .word sid :: .classId k :: payload.map .byte
  | .txpkt payload => payload.map .byte
  | .rxdgram dgram => dgram.map .byte
  | .sidset _ v => [.word v]
  | .wffrag _ f => [.fragment f]
  | .rbins e => [.word e]
  | .pushb samples => samples.map .sample
  | .txinit | .rbpop | .rbsize | .rbclr | .read _ | .daset | .dawait | .closeStream | .openStream => []

/-- The encoder: the command of an instruction. -/
def encodeCommand (i : Instr) : Command := { word := i.word, items := i.items }

/-! ## The host's view: an instruction from the bits of a table row -/

/-- The header record of zeros. -/
def Header.zero : Header :=
  { pktType := 0, c := false, t := false, tsi := 0, tsf := 0, count := 0, size := 0 }

/-- The fragment record of zeros. -/
def Fragment.zero : Fragment :=
  { total := 0, first := 0, width := 0, timecode := 0, low := 0, bw := 0, abl := 0, bins := [] }

/-- The operand record of zeros for a command word: what rule R96 says accompanies it, every value 0. -/
def zeroItems (w : Word) : List DataItem :=
  match Opcode.ofCode? (opField w) with
  | some .decode | some .txpkt | some .rxdgram => List.replicate (immField w).toNat (.byte 0)
  | some .encode =>
    .header Header.zero :: .word 0 :: .classId { oui := 0, infoClass := 0, packetClass := 0 } ::
      List.replicate (immField w).toNat (.byte 0)
  | some .sidset | some .rbins => [.word 0]
  | some .wffrag => [.fragment Fragment.zero]
  | some .pushb => List.replicate (immField w).toNat (.sample 0)
  | some .txinit | some .rbpop | some .rbsize | some .rbclr | some .read | some .daset
  | some .dawait | some .closeStream | some .openStream => []
  | none => []

/-- The command whose word is the low `nbits` bits of `w` and whose operand record is of zeros. -/
def tableCommand (nbits w : Nat) : Command :=
  { word := BitVec.ofNat 32 (w % 2 ^ nbits), items := zeroItems (BitVec.ofNat 32 (w % 2 ^ nbits)) }

/-- The instruction the decoder reads from an instruction whose bits are `w`; none where it rejects. -/
def decodeTableWord (nbits w : Nat) : Option Instr :=
  match decodeCommand (tableCommand nbits w) with
  | .ok i => some i
  | .error _ => none

end Sys2Proof
end

