-- ==== Sys2Proof/Machine/State.lean ====
section
/-! DEFINITION. The state of the block as plain data: the five groups of rule R20, the configuration of
rule R21, the output traces of rule R21, and the inputs still to come. -/

namespace Sys2Proof.Machine

open Sys2Proof

/-! ## Storage -/

/-- An element-addressed memory (rules R60, R67): the elements that differ from 0, addresses strictly
rising. An unlisted address reads as 0, the reset value of every element (rule R50). Log 9. -/
abbrev Memory (w : Nat) := List (Nat × BitVec w)

/-! ## Records on the output ports -/

/-- The malformed-packet subcodes 1 to 8 of rule R260. -/
inductive MalformedSub where
  | short | sizeLt7 | truncated | tileParse | fragZeroTotal | fragBinsLen | fragRange | freqRange
  deriving DecidableEq, Repr

/-- An error record of the ERR trace (rules R108, R260 to R265). -/
inductive ErrRecord where
  | malformedPacket (sub : MalformedSub)
  | codecFailure
  | bufferOverflow (dropped : Nat)
  | transportFailure
  | deviceUnavailable
  | illegalCommand (cmd : Word)
  deriving DecidableEq, Repr

/-- An event record of the EVT trace (rules R108, R270). Frequencies are in hertz (rule R176). -/
inductive Event where
  | binsConfigured (ctx : Nat) (total : BitVec 16)
  | dataRangeChanged (ctx : Nat) (low high : Freq)
  | rowReceived (ctx : Nat) (bins : List Bin) (abl : BitVec 32)
  deriving DecidableEq, Repr

/-- DECODE's result (rule R97): "when ok = false only `sub` ... is meaningful". -/
inductive PacketResult where
  | ok (hdr : Header) (streamId : Word) (classId : ClassId) (payload : List Byte)
  | fail (sub : MalformedSub)
  deriving DecidableEq, Repr

/-- RXDGRAM's result (rule R97). -/
inductive Route where
  | droppedMalformed
  | toWaterfall (ctx : Nat)
  | toRxAudio
  | droppedUnrouted
  deriving DecidableEq, Repr

/-- A result record on DATA_OUT (rule R97). RBPOP on an empty ring delivers no element (rule R203). -/
inductive Result where
  | decode (r : PacketResult)
  | encode (packet : List Byte)
  | txpkt (sent : Bool)
  | rxdgram (route : Route)
  | wffrag (accepted : Bool)
  | rbpop (elem : Option Word)
  | rbsize (size : Nat)
  | pushb (inserted dropped : Nat)
  | read (n : Nat) (closed : Bool) (bytes : List Byte)
  deriving DecidableEq, Repr

/-! ## The groups of registers, rule R20 -/

/-- RB: RB_HEAD, RB_TAIL, RB_SIZE, RB_MEM (rules R24, R26). -/
structure Ring where
  head : Nat
  tail : Nat
  size : Nat
  mem : Memory 32
  deriving DecidableEq, Repr

/-- RD_STATE (rule R30). -/
inductive RdState where
  | idle | fill | check | wait | woken
  deriving DecidableEq, Repr

/-- The playback-read sequencer: RD_STATE, RD_M, RD_N, RD_OUT (rule R30). -/
structure ReadSeq where
  state : RdState
  m : Nat
  n : Nat
  out : Memory 32
  deriving DecidableEq, Repr

/-- PB_STATE (rule R31). -/
inductive PbState where
  | idle | check | insert | done
  deriving DecidableEq, Repr

/-- The producer-batch sequencer: PB_STATE, PB_K, PB_J, PB_INS, PB_SAMPLES (rule R31). -/
structure PushSeq where
  state : PbState
  k : Nat
  j : Nat
  ins : Nat
  samples : List Sample
  deriving DecidableEq, Repr

/-- ROUTER: SID_WF[0..N_WF-1], SID_RXA, SID_TX (rule R32). -/
structure StreamTable where
  wf : List Word
  rxa : Word
  tx : Word
  deriving DecidableEq, Repr

/-- WF_PHASE (rules R33, R34). -/
inductive WfPhase where
  | idle | accumulating
  deriving DecidableEq, Repr

/-- One waterfall context: WF_TOTAL, WF_TC, WF_TCV, WF_FILLED, WF_LOW, WF_HIGH, WF_PHASE, WF_BUF
(rules R33, R35). -/
structure WfContext where
  total : BitVec 16
  tc : BitVec 32
  tcv : Bool
  filled : Nat
  low : Freq
  high : Freq
  phase : WfPhase
  buf : Memory 16
  deriving DecidableEq, Repr

/-- The output traces (rule R21): EVT, ERR, TX_OUT, RXA_OUT, and the records delivered on DATA_OUT
(rule R11), each oldest first. Log 10. -/
structure Traces where
  evt : List Event
  err : List ErrRecord
  txOut : List (List Byte)
  rxaOut : List (List Byte)
  dataOut : List Result
  deriving DecidableEq, Repr

/-! ## The inputs of the block -/

/-- The four agents of rule R280. -/
inductive Agent where
  | net | prod | cons | host
  deriving DecidableEq, Repr

/-- The two sequencers, the only state that is per agent (rule R280). -/
inductive Sequencer where
  | pushb | read
  deriving DecidableEq, Repr

/-- The error classes raised outside the block and logged on the same ERR trace (rules R261, R263, R264). -/
inductive ExternalError where
  | codecFailure | transportFailure | deviceUnavailable
  deriving DecidableEq, Repr

/-- One step of the interleaving (rules R21, R70, R71): who moves next. Log 4. -/
inductive Turn where
  /-- The agent issues the next command of its stream. -/
  | issue (a : Agent)
  /-- The sequencer takes its next micro-step. -/
  | advance (q : Sequencer)
  /-- HOST applies reset (rules R300, R301). -/
  | reset
  /-- A unit outside the block logs an error record (rules R261, R263, R264). -/
  | external (e : ExternalError)
  deriving DecidableEq, Repr

/-- What is still to come from outside: the command stream of each agent and the interleaving. -/
structure Inputs where
  net : List Command
  prod : List Command
  cons : List Command
  host : List Command
  turns : List Turn
  deriving DecidableEq, Repr

/-! ## The state -/

/-- The state of the block. -/
structure State where
  /-- The configuration of rule R21, RB_CAP among it; written by nothing. -/
  cfg : Params
  /-- RB_HEAD, RB_TAIL, RB_SIZE, RB_MEM. -/
  rb : Ring
  /-- DA, the "data available" signal (rule R28). -/
  da : Bool
  /-- CLOSED (rule R29). -/
  closed : Bool
  /-- RD_STATE, RD_M, RD_N, RD_OUT. -/
  rd : ReadSeq
  /-- PB_STATE, PB_K, PB_J, PB_INS, PB_SAMPLES. -/
  pb : PushSeq
  /-- The stream table. -/
  sid : StreamTable
  /-- The waterfall contexts 0 .. N_WF-1. -/
  wf : List WfContext
  /-- TX_SEQ (rule R36). -/
  txSeq : BitVec 4
  /-- The output traces. -/
  out : Traces
  /-- The inputs still to come. -/
  env : Inputs
  deriving DecidableEq, Repr

/-! ## Reset, rules R50 and R300 -/

/-- The ring after reset. -/
def Ring.reset : Ring := { head := 0, tail := 0, size := 0, mem := [] }

/-- The playback-read sequencer after reset. -/
def ReadSeq.reset : ReadSeq := { state := .idle, m := 0, n := 0, out := [] }

/-- The producer-batch sequencer after reset. -/
def PushSeq.reset : PushSeq := { state := .idle, k := 0, j := 0, ins := 0, samples := [] }

/-- The stream table after reset: every slot 0, unassigned. -/
def StreamTable.reset (nWf : Nat) : StreamTable :=
  { wf := List.replicate nWf 0, rxa := 0, tx := 0 }

/-- A waterfall context in its reset state (rules R34 (a), R157). -/
def WfContext.reset : WfContext :=
  { total := 0, tc := 0, tcv := false, filled := 0, low := 0, high := 0, phase := .idle, buf := [] }

/-- The traces as a model starts them (rule R300). -/
def Traces.start : Traces := { evt := [], err := [], txOut := [], rxaOut := [], dataOut := [] }

/-- No input: the block waits for commands (rule R301). -/
def Inputs.none : Inputs := { net := [], prod := [], cons := [], host := [], turns := [] }

/-- The machine right after reset under given parameters: every register at its value of rule R50, the
traces empty, no input. -/
def State.resetWith (p : Params) : State :=
  { cfg := p, rb := Ring.reset, da := false, closed := false, rd := ReadSeq.reset,
    pb := PushSeq.reset, sid := StreamTable.reset p.nWf,
    wf := List.replicate p.nWf WfContext.reset, txSeq := 0, out := Traces.start,
    env := Inputs.none }

/-- The machine right after reset, at the spec's default parameters. -/
def State.reset : State := State.resetWith Params.default

/-! ## How a step can stop -/

/-- Why the machine stops with a fault. "Nothing in this core is treated as fatal" (rule R266): no
instruction raises one. -/
inductive Fault where
  /-- Raised by `step` alone, for a command whose word is legal and whose items on DATA_IN are not the record
  rule R96 gives the operation: an input the spec's interface does not form. Safe: the hardware never sees it
  (log 7). -/
  | operandRecord
  deriving DecidableEq, Repr

/-- Why an instruction is refused for want of a meaning. Every instruction of this model has its meaning, so
none is refused. -/
inductive Refusal where
  /-- Raised by an arm of `exec` whose instruction has no meaning yet; no arm raises it. Safe. -/
  | notModelled (mnemonic : String)
  deriving DecidableEq, Repr

end Sys2Proof.Machine
end

