-- ==== Sys2Proof/Machine/Flags.lean ====
section
/-! DEFINITION. The status outputs of rule R27, the enabling conditions of the waits (rules R232, R233,
R241), and the legality conditions of rule R101 that depend on state or configuration. -/

namespace Sys2Proof.Machine

open Sys2Proof

/-- EMPTY = (RB_SIZE = 0) (rule R27). -/
def statusEmpty (s : State) : Bool := decide (s.rb.size = 0)

/-- FULL = (RB_SIZE = N) (rule R27). -/
def statusFull (s : State) : Bool := decide (s.rb.size = s.cfg.rbCap)

/-- `sz > N - 4` on integers (rules R12 (f), R27, R223), written `N < sz + 4` so that it needs no subtraction. -/
def nearFull (cap sz : Nat) : Bool := decide (cap < sz + Config.margin)

/-- NEAR_FULL = (RB_SIZE > N - 4) (rule R27). -/
def statusNearFull (s : State) : Bool := nearFull s.cfg.rbCap s.rb.size

/-- The condition that enables a wait: DA = 1 or CLOSED = 1 (rules R232, R241). -/
def waitEnabled (s : State) : Bool := s.da || s.closed

/-- A READ is held in its wait (rule R233). -/
def readHeld (s : State) : Bool := decide (s.rd.state = .wait) && !waitEnabled s

/-- SIDSET's `idx` is below N_WF or names SID_RXA or SID_TX (rule R101). -/
def slotLegal (slot : Slot) (s : State) : Bool :=
  match slot with
  | .wf i => decide (i.val < s.cfg.nWf)
  | .rxa => true
  | .tx => true

/-- WFFRAG's `idx` is below N_WF (rule R101). -/
def contextLegal (ctx : BitVec 8) (s : State) : Bool := decide (ctx.toNat < s.cfg.nWf)

/-- ENCODE's and TXPKT's payload is at most 65507 bytes (rule R101). -/
def payloadLegal (len : Nat) : Bool := decide (len ≤ Config.maxPayload)

/-- A READ of at least one element while RD_STATE = RD_IDLE (rules R101, R229). -/
def readLegal (count : BitVec 16) (s : State) : Bool :=
  decide (count ≠ 0) && decide (s.rd.state = .idle)

/-- A PUSHB while PB_STATE = PB_IDLE (rules R101, R222). -/
def pushbLegal (s : State) : Bool := decide (s.pb.state = .idle)

/-- The legality of a command whose word selects row `op`, by its fields and the state (rule R101). -/
def fieldsLegal (op : Opcode) (idx : BitVec 8) (imm : BitVec 16) (s : State) : Bool :=
  match op with
  | .sidset => slotLegal (Slot.ofIdx idx) s
  | .wffrag => contextLegal idx s
  | .encode | .txpkt => payloadLegal imm.toNat
  | .read => readLegal imm s
  | .pushb => pushbLegal s
  | .decode | .txinit | .rxdgram | .rbins | .rbpop | .rbsize | .rbclr | .daset | .dawait
  | .closeStream | .openStream => true

/-- An instruction whose step is enabled: only DAWAIT can be held (rules R241, R285). -/
def instrEnabled (i : Instr) (s : State) : Bool :=
  match i with
  | .dawait => waitEnabled s
  | .decode _ | .encode _ _ _ _ | .txpkt _ | .txinit | .rxdgram _ | .sidset _ _ | .wffrag _ _
  | .rbins _ | .rbpop | .rbsize | .rbclr | .pushb _ | .read _ | .daset | .closeStream
  | .openStream => true

end Sys2Proof.Machine
end

