-- ==== Sys2Proof/Machine/Memory.lean ====
section
/-! DEFINITION. `MemRead` and `MemWrite` of rule R11 over an element-addressed memory in canonical form. -/

namespace Sys2Proof.Machine

open Sys2Proof

/-- The canonical form from an address on: addresses strictly rising, no element 0. -/
def Memory.wfFrom {w : Nat} : Nat → Memory w → Bool
  | _, [] => true
  | lo, (a, v) :: rest => decide (lo ≤ a) && v != 0 && Memory.wfFrom (a + 1) rest

/-- The canonical form of a memory. -/
def Memory.wf {w : Nat} (m : Memory w) : Bool := Memory.wfFrom 0 m

/-- Every listed address is below the size of the space. -/
def Memory.below {w : Nat} (n : Nat) (m : Memory w) : Bool := m.all fun c => decide (c.1 < n)

/-- What an unlisted address reads as: the reset value 0 of every element (rule R50). -/
def Memory.unlisted (w : Nat) : BitVec w := 0

/-- `MemRead(space, a, 1)`. -/
def Memory.read {w : Nat} : Memory w → Nat → BitVec w
  | [], _ => Memory.unlisted w
  | (k, v) :: rest, a => if k = a then v else Memory.read rest a

/-- One cell in front of a memory, left out when it holds what an unlisted address reads as. -/
def Memory.cell {w : Nat} (a : Nat) (v : BitVec w) (rest : Memory w) : Memory w :=
  if v = Memory.unlisted w then rest else (a, v) :: rest

/-- `MemWrite(space, a, 1, v)`. -/
def Memory.write {w : Nat} : Memory w → Nat → BitVec w → Memory w
  | [], a, v => Memory.cell a v []
  | (k, x) :: rest, a, v =>
    if a < k then Memory.cell a v ((k, x) :: rest)
    else if a = k then Memory.cell a v rest
    else (k, x) :: Memory.write rest a v

/-- `MemWrite(space, a, n, vs)` with `n` the length of `vs`. -/
def Memory.writeList {w : Nat} : Memory w → Nat → List (BitVec w) → Memory w
  | m, _, [] => m
  | m, a, v :: vs => Memory.writeList (Memory.write m a v) (a + 1) vs

/-- `MemWrite(space, 0, n, all zero)`: addresses below `n` become unlisted. -/
def Memory.zeroBelow {w : Nat} (m : Memory w) (n : Nat) : Memory w :=
  m.filter fun c => decide (n ≤ c.1)

/-- `MemRead(space, a, n)`, in address order. -/
def Memory.readList {w : Nat} (m : Memory w) : Nat → Nat → List (BitVec w)
  | _, 0 => []
  | a, n + 1 => Memory.read m a :: Memory.readList m (a + 1) n

end Sys2Proof.Machine
end

