-- ==== Sys2Proof/Machine/Operands.lean ====
section
/-! DEFINITION. How values are taken from and laid out into bits and bytes: big-endian words (rules R10,
R64), the header word (rule R91), little-endian elements (rule R65), the sample conversion (rule R221); the numbers
of error, event and route records (rules R97, R108, R260). -/

namespace Sys2Proof.Machine

open Sys2Proof

/-- `be32(B, k)` of rule R10: the 32-bit big-endian word at byte offset `k`. -/
def be32 (b : List Byte) (k : Nat) : Word :=
  b.getD k 0 ++ b.getD (k + 1) 0 ++ b.getD (k + 2) 0 ++ b.getD (k + 3) 0

/-- `bytes_be32(w)` of rule R10: the four bytes whose `be32` is `w`. -/
def bytesBe32 (w : Word) : List Byte :=
  [w.extractLsb' 24 8, w.extractLsb' 16 8, w.extractLsb' 8 8, w.extractLsb' 0 8]

/-- `bytes_le32(w)` of rule R10: least significant byte first. -/
def bytesLe32 (w : Word) : List Byte :=
  [w.extractLsb' 0 8, w.extractLsb' 8 8, w.extractLsb' 16 8, w.extractLsb' 24 8]

/-- `image(out[0..n-1])` of rules R228 and R237. -/
def image (elems : List Word) : List Byte := elems.flatMap bytesLe32

/-- One flag bit of the header word. -/
def flagBit (b : Bool) : BitVec 1 := BitVec.ofBool b

/-- Word 0 of a packet from the header record and the size to be carried (rule R91). -/
def headerWord (h : Header) (size : BitVec 16) : Word :=
  h.pktType ++ flagBit h.c ++ flagBit h.t ++ h.tsi ++ h.tsf ++ h.count ++ size

/-- The header record in word 0 of a packet (rules R91, R120). -/
def headerOfWord (w : Word) : Header :=
  { pktType := w.extractLsb' 28 4, c := w.getLsbD 27, t := w.getLsbD 26, tsi := w.extractLsb' 22 4,
    tsf := w.extractLsb' 20 2, count := w.extractLsb' 16 4, size := w.extractLsb' 0 16 }

/-- The packet-size field, `ceil(len(payload)/4) + 7`, in 32-bit words (rule R105 (a)). -/
def sizeWords (payloadLen : Nat) : Nat := (payloadLen + 3) / 4 + Config.hdrWords

/-- The magnitude of a signed 16-bit sample, 0 .. 32768. -/
def sampleMagnitude (s : Sample) : Nat := s.toInt.natAbs

/-- `f32(s)` of rule R221: the binary32 pattern of `s / 32768`. With `m = |s|` and `e` the position of its
leading one, the value is `1.f * 2^(e - 15)`: biased exponent `112 + e`, fraction `m * 2^(23 - e)` less its
leading one. PRESUMED: binary32 itself, which the spec takes from general knowledge (log 21). -/
def f32 (s : Sample) : Word :=
  if s = 0 then 0
  else
    BitVec.ofBool s.msb ++ BitVec.ofNat 8 (112 + Nat.log2 (sampleMagnitude s)) ++
      BitVec.ofNat 23 (sampleMagnitude s * 2 ^ (23 - Nat.log2 (sampleMagnitude s)))

/-! ## The numbers of the records -/

/-- The subcode numbers of rule R260. -/
def MalformedSub.code : MalformedSub → Nat
  | .short => 1
  | .sizeLt7 => 2
  | .truncated => 3
  | .tileParse => 4
  | .fragZeroTotal => 5
  | .fragBinsLen => 6
  | .fragRange => 7
  | .freqRange => 8

/-- The error codes of rule R108. -/
def ErrRecord.code : ErrRecord → Nat
  | .malformedPacket _ => 1
  | .codecFailure => 2
  | .bufferOverflow _ => 3
  | .transportFailure => 4
  | .deviceUnavailable => 5
  | .illegalCommand _ => 6

/-- The `info` member of an error record (rule R108); codes 2, 4 and 5 have none. -/
def ErrRecord.info : ErrRecord → Option Nat
  | .malformedPacket sub => some sub.code
  | .codecFailure => none
  | .bufferOverflow dropped => some dropped
  | .transportFailure => none
  | .deviceUnavailable => none
  | .illegalCommand cmd => some cmd.toNat

/-- The event codes of rule R108. -/
def Event.code : Event → Nat
  | .binsConfigured _ _ => 1
  | .dataRangeChanged _ _ _ => 2
  | .rowReceived _ _ _ => 3

/-- The route numbers of rule R97. -/
def Route.code : Route → Nat
  | .droppedMalformed => 0
  | .toWaterfall _ => 1
  | .toRxAudio => 2
  | .droppedUnrouted => 3

end Sys2Proof.Machine
end

