-- ==== Sys2Proof/Machine/Ops.lean ====
section
/-! DEFINITION. The shared operations: what the block outputs, the ONE way an error is taken (rule R266),
the ring primitives, the signal, the context reset. -/

namespace Sys2Proof.Machine

open Sys2Proof

/-! ## Outputs -/

/-- `return v`: deliver `v` on DATA_OUT (rule R11). -/
def deliver (r : Result) (s : State) : State :=
  { s with out := { s.out with dataOut := s.out.dataOut ++ [r] } }

/-- `emit`: append event records to EVT, in order (rules R11, R82). -/
def emit (es : List Event) (s : State) : State :=
  { s with out := { s.out with evt := s.out.evt ++ es } }

/-- Append a packet to TX_OUT (rule R126). -/
def sendTx (packet : List Byte) (s : State) : State :=
  { s with out := { s.out with txOut := s.out.txOut ++ [packet] } }

/-- Append a payload to RXA_OUT (rule R154). -/
def sendRxa (payload : List Byte) (s : State) : State :=
  { s with out := { s.out with rxaOut := s.out.rxaOut ++ [payload] } }

/-! ## Taking an error -/

/-- `raise`: append one record to ERR and nothing else. "It saves nothing, changes no mode or mask, and
transfers control nowhere" (rule R266); there is no return from it (rule R267). -/
def raise (e : ErrRecord) (s : State) : State :=
  { s with out := { s.out with err := s.out.err ++ [e] } }

/-- A refused command: `raise IllegalCommand(cmd)`, no state changes, nothing is returned (rules R101,
R265). -/
def refuseCommand (cmd : Word) (s : State) : State := raise (.illegalCommand cmd) s

/-- The record a unit outside the block logs (rules R261, R263, R264). -/
def ExternalError.record : ExternalError → ErrRecord
  | .codecFailure => .codecFailure
  | .transportFailure => .transportFailure
  | .deviceUnavailable => .deviceUnavailable

/-! ## The ring primitives -/

/-- RBINS (rules R200, R201) on a ring of capacity `cap`. -/
def ringInsert (cap : Nat) (e : Word) (r : Ring) : Ring :=
  { head := (r.head + 1) % cap
    tail := if r.size = cap then (r.tail + 1) % cap else r.tail
    size := if r.size = cap then r.size else r.size + 1
    mem := Memory.write r.mem r.head e }

/-- RBPOP (rules R202, R203): the element and the ring without it, none on an empty ring. -/
def ringPop (cap : Nat) (r : Ring) : Option (Word × Ring) :=
  if r.size = 0 then none
  else some (Memory.read r.mem r.tail,
    { r with tail := (r.tail + 1) % cap, size := r.size - 1 })

/-- RBCLR (rule R206). -/
def ringClear (cap : Nat) (r : Ring) : Ring :=
  { head := 0, tail := 0, size := 0, mem := Memory.zeroBelow r.mem cap }

/-- RBINS as a step of the block. -/
def insertElem (e : Word) (s : State) : State :=
  { s with rb := ringInsert s.cfg.rbCap e s.rb }

/-! ## The signal -/

/-- DASET (rule R240). -/
def signalSet (s : State) : State := { s with da := true }

/-- A wait that proceeds: "if DA = 1: DA <- 0" (rules R232, R241). -/
def signalTake (s : State) : State := { s with da := false }

/-! ## The waterfall contexts -/

/-- Context `i` (rule R33). An index past the list reads as a context in its reset state (log 20). -/
def State.context (s : State) (i : Nat) : WfContext := s.wf.getD i WfContext.reset

/-- Write context `i`. -/
def setContext (i : Nat) (c : WfContext) (s : State) : State := { s with wf := s.wf.set i c }

/-- `reset_context(i)` (rule R157). -/
def resetContext (i : Nat) (s : State) : State := setContext i WfContext.reset s

/-! ## Reset, an action of HOST -/

/-- Reset (rules R300, R301): every register at its reset value, a READ or PUSHB in progress abandoned, no
result returned for it. The outputs already given and the inputs still to come are not registers and stay
(log 11). -/
def applyReset (s : State) : State :=
  { State.resetWith s.cfg with out := s.out, env := s.env }

end Sys2Proof.Machine
end

