-- ==== Sys2Proof/Machine/Codec.lean ====
section
/-! DEFINITION. CODEC and the TX sequencer: DECODE, ENCODE, TXINIT, TXPKT (40_codec.md). -/

namespace Sys2Proof.Machine

open Sys2Proof

/-- The deframer as a pure function of the datagram (rules R120 to R122). -/
def decodePacket (b : List Byte) : PacketResult :=
  if b.length < Config.hdrBytes then .fail .short
  else if (headerOfWord (be32 b 0)).size.toNat < Config.hdrWords then .fail .sizeLt7
  else if b.length + 4 ≤ 4 * (headerOfWord (be32 b 0)).size.toNat then .fail .truncated
  else
    .ok (headerOfWord (be32 b 0)) (be32 b 4)
      { oui := (be32 b 8).extractLsb' 0 24, infoClass := (be32 b 12).extractLsb' 16 16,
        packetClass := (be32 b 12).extractLsb' 0 16 }
      ((b.take (min b.length (4 * (headerOfWord (be32 b 0)).size.toNat))).drop Config.hdrBytes)

/-- The framer as a pure function of its operands (rule R123): the caller's `size` is ignored, `oui` is
masked to 24 bits, the timestamp region is twelve zero bytes, the payload is not padded. -/
def encodePacket (hdr : Header) (streamId : Word) (k : ClassIdArg) (payload : List Byte) :
    List Byte :=
  bytesBe32 (headerWord hdr (BitVec.ofNat 16 (sizeWords payload.length))) ++ bytesBe32 streamId ++
    bytesBe32 ((k.oui.setWidth 24).setWidth 32) ++ bytesBe32 (k.infoClass ++ k.packetClass) ++
    List.replicate 12 0 ++ payload

/-- The header TXPKT frames with: the template and the current counter (rule R126). Its `size` is
ignored by the framer. -/
def txHeader (t : TxTemplate) (seq : BitVec 4) : Header :=
  { pktType := t.pktType, c := t.c, t := t.t, tsi := t.tsi, tsf := t.tsf, count := seq, size := 0 }

/-- The packet TXPKT sends (rule R126). -/
def txPacket (t : TxTemplate) (seq : BitVec 4) (streamId : Word) (payload : List Byte) :
    List Byte :=
  encodePacket (txHeader t seq) streamId
    { oui := t.oui.setWidth 32, infoClass := t.infoClass, packetClass := t.packetClass } payload

/-- DECODE (rule R120): a pure function; it raises nothing. -/
def execDecode (dgram : List Byte) (s : State) : Host.Outcome State Fault Refusal :=
  .next (deliver (.decode (decodePacket dgram)) s)

/-- ENCODE (rule R123), refused when the payload is longer than 65507 bytes (rule R101). -/
def execEncode (hdr : Header) (streamId : Word) (k : ClassIdArg) (payload : List Byte)
    (s : State) : Host.Outcome State Fault Refusal :=
  if payloadLegal payload.length then
    .next (deliver (.encode (encodePacket hdr streamId k payload)) s)
  else .next (refuseCommand (Instr.encode hdr streamId k payload).word s)

/-- TXINIT (rule R125). -/
def execTxinit (s : State) : Host.Outcome State Fault Refusal := .next { s with txSeq := 0 }

/-- TXPKT (rules R126, R127), refused when the payload is longer than 65507 bytes (rule R101). -/
def execTxpkt (payload : List Byte) (s : State) : Host.Outcome State Fault Refusal :=
  if payloadLegal payload.length then
    if s.sid.tx = 0 then .next (deliver (.txpkt false) s)
    else
      .next (deliver (.txpkt true)
        (sendTx (txPacket s.cfg.txTmpl s.txSeq s.sid.tx payload) { s with txSeq := s.txSeq + 1 }))
  else .next (refuseCommand (Instr.txpkt payload).word s)

end Sys2Proof.Machine
end

