-- ==== Sys2Proof/Machine/Flow.lean ====
section
/-! DEFINITION. FLOW: PUSHB, READ, DASET, DAWAIT, CLOSE, OPEN, and the micro-steps of the two sequencers
(44_flow.md). -/

namespace Sys2Proof.Machine

open Sys2Proof

/-! ## PUSHB -/

/-- PUSHB micro-step 1, start (rule R222). -/
def pbStart (samples : List Sample) (s : State) : State :=
  { s with pb := { state := if samples.length = 0 then .done else .check, k := samples.length,
                   j := 0, ins := 0, samples := samples } }

/-- PUSHB micro-step 2, check (rule R223). -/
def pbCheck (s : State) : State :=
  if nearFull s.cfg.rbCap s.rb.size then
    raise (.bufferOverflow (s.pb.k - s.pb.j)) { s with pb := { s.pb with state := .done } }
  else { s with pb := { s.pb with state := .insert } }

/-- The sample PUSHB inserts next. -/
def pbSample (s : State) : Sample := s.pb.samples.getD s.pb.j 0

/-- PUSHB micro-step 3, insert (rule R225). -/
def pbInsert (s : State) : State :=
  { insertElem (f32 (pbSample s)) s with
    pb := { s.pb with j := s.pb.j + 1, ins := s.pb.ins + 1,
                      state := if s.pb.j + 1 = s.pb.k then .done else .check } }

/-- PUSHB micro-step 4, done (rule R226): one signal per batch, if at least one sample went in. -/
def pbDone (s : State) : State :=
  deliver (.pushb s.pb.ins (s.pb.k - s.pb.ins))
    { (if 1 ≤ s.pb.ins then signalSet s else s) with pb := { s.pb with state := .idle } }

/-- The next micro-step of the producer-batch sequencer; none while idle. -/
def pbStep (s : State) : State :=
  match s.pb.state with
  | .idle => s
  | .check => pbCheck s
  | .insert => pbInsert s
  | .done => pbDone s

/-- PUSHB (rules R220, R222): its start micro-step; the others are turns of the sequencer. Refused while a
PUSHB is in progress (rule R101). -/
def execPushb (samples : List Sample) (s : State) : Host.Outcome State Fault Refusal :=
  if pushbLegal s then .next (pbStart samples s)
  else .next (refuseCommand (Instr.pushb samples).word s)

/-! ## READ -/

/-- READ micro-step 1, start (rule R229). RD_OUT is not written. -/
def rdStart (count : BitVec 16) (s : State) : State :=
  { s with rd := { s.rd with state := .fill, m := count.toNat, n := 0 } }

/-- The end of a READ: its result record and RD_IDLE (rules R231, R234, R237). -/
def rdFinish (n : Nat) (closed : Bool) (s : State) : State :=
  deliver (.read n closed (image (Memory.readList s.rd.out 0 n)))
    { s with rd := { s.rd with state := .idle } }

/-- READ micro-step 2, fill (rule R230). -/
def rdFill (s : State) : State :=
  if s.rd.n = s.rd.m then { s with rd := { s.rd with state := .check } }
  else
    match ringPop s.cfg.rbCap s.rb with
    | none => { s with rd := { s.rd with state := .check } }
    | some (e, r) =>
      { s with rb := r, rd := { s.rd with out := Memory.write s.rd.out s.rd.n e, n := s.rd.n + 1 } }

/-- READ micro-step 3, check (rule R231). -/
def rdCheck (s : State) : State :=
  if 0 < s.rd.n then rdFinish s.rd.n false s
  else if s.closed then rdFinish 0 true s
  else { s with rd := { s.rd with state := .wait } }

/-- READ micro-step 4, wait (rules R232, R233): held, with nothing changed, unless DA = 1 or CLOSED = 1. -/
def rdWait (s : State) : State :=
  if waitEnabled s then { signalTake s with rd := { s.rd with state := .woken } } else s

/-- READ micro-step 5, woken (rule R234). -/
def rdWoken (s : State) : State :=
  if s.closed then rdFinish 0 true s else { s with rd := { s.rd with state := .fill } }

/-- The next micro-step of the playback-read sequencer; none while idle. -/
def rdStep (s : State) : State :=
  match s.rd.state with
  | .idle => s
  | .fill => rdFill s
  | .check => rdCheck s
  | .wait => rdWait s
  | .woken => rdWoken s

/-- READ (rules R228, R229): its start micro-step; the others are turns of the sequencer. Refused for zero
elements and while a READ is in progress (rule R101). -/
def execRead (count : BitVec 16) (s : State) : Host.Outcome State Fault Refusal :=
  if readLegal count s then .next (rdStart count s)
  else .next (refuseCommand (Instr.read count).word s)

/-! ## The signal and the closed flag -/

/-- DASET (rule R240). -/
def execDaset (s : State) : Host.Outcome State Fault Refusal := .next (signalSet s)

/-- DAWAIT (rule R241). While it is held nothing changes (rule R285), and `step` keeps the command in its
agent's stream (log 6). -/
def execDawait (s : State) : Host.Outcome State Fault Refusal :=
  if waitEnabled s then .next (signalTake s) else .next s

/-- CLOSE (rule R244). -/
def execClose (s : State) : Host.Outcome State Fault Refusal := .next { s with closed := true }

/-- OPEN (rule R245). -/
def execOpen (s : State) : Host.Outcome State Fault Refusal := .next { s with closed := false }

end Sys2Proof.Machine
end

