-- ==== Sys2Proof/Machine/RingUnit.lean ====
section
/-! DEFINITION. RB: RBINS, RBPOP, RBSIZE, RBCLR (43_ring.md), each one atomic step (rule R70). -/

namespace Sys2Proof.Machine

open Sys2Proof

/-- RBINS (rules R200, R201): never fails, never blocks, does not set DA. -/
def execRbins (e : Word) (s : State) : Host.Outcome State Fault Refusal := .next (insertElem e s)

/-- RBPOP (rules R202, R203). -/
def execRbpop (s : State) : Host.Outcome State Fault Refusal :=
  match ringPop s.cfg.rbCap s.rb with
  | none => .next (deliver (.rbpop none) s)
  | some (e, r) => .next (deliver (.rbpop (some e)) { s with rb := r })

/-- RBSIZE (rule R204). -/
def execRbsize (s : State) : Host.Outcome State Fault Refusal :=
  .next (deliver (.rbsize s.rb.size) s)

/-- RBCLR (rule R206). -/
def execRbclr (s : State) : Host.Outcome State Fault Refusal :=
  .next { s with rb := ringClear s.cfg.rbCap s.rb }

end Sys2Proof.Machine
end

