-- ==== Sys2Proof/Machine/Waterfall.lean ====
section
/-! DEFINITION. WFR: WFFRAG, step by step (42_waterfall.md rules R170 to R178). -/

namespace Sys2Proof.Machine

open Sys2Proof

/-- The frame's upper bound on unbounded integers (rule R174). `total ≥ 1` where it is used. -/
def upperBound (f : Fragment) : Nat := f.low.toNat + (f.total.toNat - 1) * (f.bw.toNat + 1)

/-- Step 0, validity (rule R171): the subcode of the first test that holds. -/
def fragmentError (f : Fragment) : Option MalformedSub :=
  if f.total = 0 then some .fragZeroTotal
  else if f.bins.length ≠ f.width.toNat then some .fragBinsLen
  else if f.total.toNat < f.first.toNat + f.width.toNat then some .fragRange
  else if 2 ^ 64 ≤ upperBound f then some .freqRange
  else none

/-- Step 1, bin-count change (rule R172). -/
def wfConfigure (i : Nat) (f : Fragment) (c : WfContext) : WfContext × List Event :=
  if f.total = c.total then (c, [])
  else
    ({ c with total := f.total, buf := Memory.zeroBelow c.buf f.total.toNat, filled := 0,
              phase := .idle }, [.binsConfigured i f.total])

/-- Step 2, new timecode (rules R173, R175, R176). -/
def wfNewFrame (i : Nat) (f : Fragment) (c : WfContext) : WfContext × List Event :=
  if c.tcv = true ∧ f.timecode = c.tc then (c, [])
  else
    ({ c with tc := f.timecode, tcv := true, low := f.low, high := BitVec.ofNat 64 (upperBound f),
              filled := 0 }, [.dataRangeChanged i f.low (BitVec.ofNat 64 (upperBound f))])

/-- Step 3, copy (rule R177). -/
def wfCopy (f : Fragment) (c : WfContext) : WfContext :=
  { c with buf := Memory.writeList c.buf f.first.toNat f.bins, filled := c.filled + f.width.toNat,
           phase := .accumulating }

/-- Step 4, completion (rule R178). -/
def wfComplete (i : Nat) (f : Fragment) (c : WfContext) : WfContext × List Event :=
  if c.filled = c.total.toNat then
    ({ c with phase := .idle }, [.rowReceived i (Memory.readList c.buf 0 c.total.toNat) f.abl])
  else (c, [])

/-- Steps 1 to 4 on a valid fragment: the context after, and the events in the order of rule R184. -/
def wfAccept (i : Nat) (f : Fragment) (c : WfContext) : WfContext × List Event :=
  let c1 := wfConfigure i f c
  let c2 := wfNewFrame i f c1.1
  let c4 := wfComplete i f (wfCopy f c2.1)
  (c4.1, c1.2 ++ c2.2 ++ c4.2)

/-- WFFRAG without its result: performed by WFFRAG and by RXDGRAM (rules R150, R170). The flag is
`accepted`. -/
def wfApply (i : Nat) (f : Fragment) (s : State) : Bool × State :=
  match fragmentError f with
  | some sub => (false, raise (.malformedPacket sub) s)
  | none =>
    (true, emit (wfAccept i f (s.context i)).2 (setContext i (wfAccept i f (s.context i)).1 s))

/-- WFFRAG (rule R170), refused when the context index is not below N_WF (rule R101). -/
def execWffrag (ctx : BitVec 8) (f : Fragment) (s : State) : Host.Outcome State Fault Refusal :=
  if contextLegal ctx s then
    .next (deliver (.wffrag (wfApply ctx.toNat f s).1) (wfApply ctx.toNat f s).2)
  else .next (refuseCommand (Instr.wffrag ctx f).word s)

/-! ## What a subscriber receives of a bound, rule R176 -/

/-- The exact MHz value of a bound in hertz (rule R176). -/
def mhzOf (hz : Freq) : Rat := (hz.toNat : Rat) / 1000000

/-- The two bounds a DATA_RANGE_CHANGED event reports, in MHz (rule R176). -/
def Event.range? : Event → Option (Rat × Rat)
  | .binsConfigured _ _ => none
  | .dataRangeChanged _ low high => some (mhzOf low, mhzOf high)
  | .rowReceived _ _ _ => none

/-- The two bounds as a subscriber receives them, in the OPEN number format `mhz_repr` (rule R176). -/
def Event.reported? (e : Event) : Option (List Char × List Char) :=
  e.range?.map fun r => (Config.mhzRepr r.1, Config.mhzRepr r.2)

end Sys2Proof.Machine
end

