-- ==== Sys2Proof/Machine/Router.lean ====
section
/-! DEFINITION. ROUTER: RXDGRAM, SIDSET (41_router.md). -/

namespace Sys2Proof.Machine

open Sys2Proof

/-- The first slot, in ascending order from index `i`, that holds `sid` (rule R152). -/
def findSlot (sid : Word) : Nat → List Word → Option Nat
  | _, [] => none
  | i, w :: ws => if w = sid then some i else findSlot sid (i + 1) ws

/-- The waterfall route (rule R153): the payload through `tile_parse` to the reassembler. -/
def routeWaterfall (parse : List Byte → Option Fragment) (i : Nat) (payload : List Byte)
    (s : State) : Route × State :=
  match parse payload with
  | none => (.droppedMalformed, raise (.malformedPacket .tileParse) s)
  | some f => (.toWaterfall i, (wfApply i f s).2)

/-- What is done with a datagram that decodes (rules R150, R152, R154). StreamID 0 matches no slot. -/
def routePacket (parse : List Byte → Option Fragment) (sid : Word) (payload : List Byte)
    (s : State) : Route × State :=
  if sid = 0 then (.droppedUnrouted, s)
  else
    match findSlot sid 0 s.sid.wf with
    | some i => routeWaterfall parse i payload s
    | none => if s.sid.rxa = sid then (.toRxAudio, sendRxa payload s) else (.droppedUnrouted, s)

/-- RXDGRAM without its result, under a given `tile_parse` (rules R150, R151). -/
def routeDatagram (parse : List Byte → Option Fragment) (dgram : List Byte) (s : State) :
    Route × State :=
  match decodePacket dgram with
  | .fail sub => (.droppedMalformed, raise (.malformedPacket sub) s)
  | .ok _ sid _ payload => routePacket parse sid payload s

/-- RXDGRAM (rule R150), with the OPEN `tile_parse` of the configuration. -/
def execRxdgram (dgram : List Byte) (s : State) : Host.Outcome State Fault Refusal :=
  .next (deliver (.rxdgram (routeDatagram Config.tileParse dgram s).1)
    (routeDatagram Config.tileParse dgram s).2)

/-- The effect of SIDSET on a legal slot (rules R156 to R158). -/
def setSlot (slot : Slot) (v : Word) (s : State) : State :=
  match slot with
  | .wf i => resetContext i.val { s with sid := { s.sid with wf := s.sid.wf.set i.val v } }
  | .rxa => { s with sid := { s.sid with rxa := v } }
  | .tx => { s with sid := { s.sid with tx := v } }

/-- SIDSET (rule R156), refused for an index that names no slot (rule R101). -/
def execSidset (slot : Slot) (v : Word) (s : State) : Host.Outcome State Fault Refusal :=
  if slotLegal slot s then .next (setSlot slot v s)
  else .next (refuseCommand (Instr.sidset slot v).word s)

end Sys2Proof.Machine
end

