-- ==== Sys2Proof/Machine/Dispatch.lean ====
section
/-! DEFINITION. One arm per operation of rule R100. -/

namespace Sys2Proof.Machine

open Sys2Proof

def exec (i : Instr) (s : State) : Host.Outcome State Fault Refusal :=
  match i with
  | .decode dgram => Sys2Proof.Machine.execDecode dgram s
  | .encode hdr streamId classId payload => Sys2Proof.Machine.execEncode hdr streamId classId payload s
  | .txpkt payload => Sys2Proof.Machine.execTxpkt payload s
  | .txinit => Sys2Proof.Machine.execTxinit s
  | .rxdgram dgram => Sys2Proof.Machine.execRxdgram dgram s
  | .sidset slot value => Sys2Proof.Machine.execSidset slot value s
  | .wffrag ctx frag => Sys2Proof.Machine.execWffrag ctx frag s
  | .rbins elem => Sys2Proof.Machine.execRbins elem s
  | .rbpop => Sys2Proof.Machine.execRbpop s
  | .rbsize => Sys2Proof.Machine.execRbsize s
  | .rbclr => Sys2Proof.Machine.execRbclr s
  | .pushb samples => Sys2Proof.Machine.execPushb samples s
  | .read count => Sys2Proof.Machine.execRead count s
  | .daset => Sys2Proof.Machine.execDaset s
  | .dawait => Sys2Proof.Machine.execDawait s
  | .closeStream => Sys2Proof.Machine.execClose s
  | .openStream => Sys2Proof.Machine.execOpen s

end Sys2Proof.Machine
end

