-- ==== Sys2Proof/Machine/Issue.lean ====
section
/-! DEFINITION. Issuing a command: taking it from an agent's stream, and what becomes of it (rules R95,
R101, R268). `Step` calls these. -/

namespace Sys2Proof.Machine

open Sys2Proof

/-- The command stream of an agent. -/
def Inputs.stream (e : Inputs) (a : Agent) : List Command :=
  match a with
  | .net => e.net
  | .prod => e.prod
  | .cons => e.cons
  | .host => e.host

/-- Replace the command stream of an agent. -/
def Inputs.setStream (e : Inputs) (a : Agent) (cs : List Command) : Inputs :=
  match a with
  | .net => { e with net := cs }
  | .prod => { e with prod := cs }
  | .cons => { e with cons := cs }
  | .host => { e with host := cs }

/-- The state in which an agent's stream is `cs`. -/
def withStream (a : Agent) (cs : List Command) (s : State) : State :=
  { s with env := s.env.setStream a cs }

/-- The state with the first turn of the interleaving taken. -/
def withTurns (ts : List Turn) (s : State) : State := { s with env := { s.env with turns := ts } }

/-- An agent that may not issue: "agent CONS has no enabled step" while its READ is held (rule R233). -/
def agentHeld (a : Agent) (s : State) : Bool := decide (a = .cons) && readHeld s

/-- A command whose items are not the record of rule R96: refused if its word is illegal ("Command legality
is tested first", rule R268), else the fault of log 7. -/
def badRecord (op : Opcode) (word : Word) (s : State) : Host.Outcome State Fault Refusal :=
  if fieldsLegal op (idxField word) (immField word) s then .fault .operandRecord
  else .next (refuseCommand word s)

/-- Agent `a` issues command `c`, the rest of its stream being `cs`. A held DAWAIT stays in the stream
(log 6). -/
def issueCommand (a : Agent) (c : Command) (cs : List Command) (s : State) :
    Host.Outcome State Fault Refusal :=
  match decodeCommand c with
  | .ok i => if instrEnabled i s then exec i (withStream a cs s) else .next s
  | .error (.reservedOpcode _) => .next (refuseCommand c.word (withStream a cs s))
  | .error (.formatField _) => .next (refuseCommand c.word (withStream a cs s))
  | .error (.operandRecord op) => badRecord op c.word (withStream a cs s)

/-- The turn of an agent to issue. -/
def issueTurn (a : Agent) (s : State) : Host.Outcome State Fault Refusal :=
  if agentHeld a s then .next s
  else
    match s.env.stream a with
    | [] => .next s
    | c :: cs => issueCommand a c cs s

/-- The turn of a sequencer: its next micro-step (rules R23, R71). DESIGN CHOICE: also while its agent is held
by a DAWAIT, which blocks that agent's command stream alone (rule R241; log 23). -/
def advanceTurn (q : Sequencer) (s : State) : State :=
  match q with
  | .pushb => pbStep s
  | .read => rdStep s

/-- One turn of the interleaving (rules R21, R70, R71). -/
def takeTurn (t : Turn) (s : State) : Host.Outcome State Fault Refusal :=
  match t with
  | .issue a => issueTurn a s
  | .advance q => .next (advanceTurn q s)
  | .reset => .next (applyReset s)
  | .external e => .next (raise e.record s)

/-- The agent a command is loaded for from outside: HOST, which is never held by a READ (log 8). -/
def loadCommand (c : Command) (s : State) : State :=
  { s with env := { s.env with host := c :: s.env.host, turns := .issue .host :: s.env.turns } }

end Sys2Proof.Machine
end

