-- ==== Sys2Proof/Machine/Step.lean ====
section
/-! DEFINITION. The step of the machine: one turn of the interleaving. -/

namespace Sys2Proof.Machine

open Sys2Proof

/-- One step: the first turn of the interleaving is taken. With no turn to take the block waits (rule
R301). -/
def step (s : State) : Host.Outcome State Fault Refusal :=
  match s.env.turns with
  | [] => .next s
  | t :: ts => takeTurn t (withTurns ts s)

/-- `s` with the instruction whose bits are `w`, its operand record of zeros, as the very next command. -/
def State.withFetchWord (s : State) (nbits w : Nat) : State := loadCommand (tableCommand nbits w) s

end Sys2Proof.Machine
end

