-- ==== Sys2Proof/Safety.lean ====
section
/-! DEFINITION. What holds of every state of a run, in the terms the statements use: the invariants of rules
R25, R30, R31, R34 and R50, the logical content of the ring, and runs of several operations. -/

namespace Sys2Proof.Machine

open Sys2Proof

/-! ## The logical content of the ring -/

/-- The elements at ring positions `from`, `from + 1`, … modulo `cap`, `n` of them. -/
def ringSlice (cap : Nat) (mem : Memory 32) (start : Nat) : Nat → List Word
  | 0 => []
  | n + 1 => Memory.read mem (start % cap) :: ringSlice cap mem (start + 1) n

/-- The logical content of the FIFO, oldest first (rule R25): `RB_MEM[(RB_TAIL + k) mod N]` for
`k = 0 .. RB_SIZE-1`. -/
def ringContent (cap : Nat) (r : Ring) : List Word := ringSlice cap r.mem r.tail r.size

/-! ## Invariants -/

/-- The ring invariant of rule R25, with RB_MEM canonical and within its space. -/
structure RingInv (cap : Nat) (r : Ring) : Prop where
  size_le : r.size ≤ cap
  head_lt : r.head < cap
  tail_lt : r.tail < cap
  head_eq : r.head = (r.tail + r.size) % cap
  mem_wf : Memory.wf r.mem = true
  mem_below : Memory.below cap r.mem = true

/-- The legal values of the playback-read sequencer (rules R30, R50): RD_N ≤ RD_M ≤ MAX_READ, at least one
element asked for while a READ is in progress, nothing read while it waits. -/
structure ReadInv (r : ReadSeq) : Prop where
  n_le : r.n ≤ r.m
  m_le : r.m ≤ Config.maxRead
  asked : r.state ≠ .idle → 1 ≤ r.m
  waiting : r.state = .wait ∨ r.state = .woken → r.n = 0
  out_wf : Memory.wf r.out = true
  out_below : Memory.below Config.maxRead r.out = true

/-- The legal values of the producer-batch sequencer (rules R31, R50, R225): PB_INS = PB_J ≤ PB_K ≤
MAX_BATCH, a sample left while there is one to handle, PB_SAMPLES of PB_K samples. -/
structure PushInv (p : PushSeq) : Prop where
  ins_eq : p.ins = p.j
  j_le : p.j ≤ p.k
  k_le : p.k ≤ Config.maxBatch
  left : p.state = .check ∨ p.state = .insert → p.j < p.k
  samples_len : p.samples.length = p.k

/-- The invariants of one waterfall context (rules R34, R35): WF_TOTAL = 0 exactly in the reset state, a
configured context has a valid timecode, and WF_PHASE is Idle exactly when the count equals the total. -/
structure ContextInv (c : WfContext) : Prop where
  unconfigured : c.total = 0 → c = WfContext.reset
  configured : c.total ≠ 0 → c.tcv = true
  phase : c.phase = .idle ↔ c.filled = c.total.toNat
  buf_wf : Memory.wf c.buf = true
  buf_below : Memory.below Config.maxBins c.buf = true

/-- The invariant of the block. It says nothing of the inputs, which may be anything. -/
structure BlockInv (s : State) : Prop where
  params : s.cfg.ok = true
  ring : RingInv s.cfg.rbCap s.rb
  read : ReadInv s.rd
  push : PushInv s.pb
  table : s.sid.wf.length = s.cfg.nWf
  contexts : s.wf.length = s.cfg.nWf
  context : ∀ c ∈ s.wf, ContextInv c

/-- The margin PUSHB keeps (rules R224, R318): at most N - 3 elements, and at most N - 4 between a check
that passed and its insert. -/
structure MarginInv (s : State) : Prop where
  fill : s.rb.size + 3 ≤ s.cfg.rbCap
  checked : s.pb.state = .insert → s.rb.size + 4 ≤ s.cfg.rbCap

/-! ## Runs -/

/-- A list of instructions carried out one after another. -/
def execAll : List Instr → State → Host.Outcome State Fault Refusal
  | [], s => .next s
  | i :: is, s =>
    match exec i s with
    | .next t => execAll is t
    | .fault r => .fault r
    | .refused r => .refused r

/-- `n` micro-steps of a sequencer. -/
def advanceN (q : Sequencer) : Nat → State → State
  | 0, s => s
  | n + 1, s => advanceN q n (advanceTurn q s)

/-! ## What the statements say of datagrams and fragments -/

/-- The number in the four bytes at offset `k`, most significant first (rule R10). -/
def beValue (b : List Byte) (k : Nat) : Nat :=
  (b.getD k 0).toNat * 2 ^ 24 + (b.getD (k + 1) 0).toNat * 2 ^ 16 +
    (b.getD (k + 2) 0).toNat * 2 ^ 8 + (b.getD (k + 3) 0).toNat

/-- The number word 0 of a packet is, from its fields (rule R91). -/
def headerValue (h : Header) (size : Nat) : Nat :=
  h.pktType.toNat * 2 ^ 28 + h.c.toNat * 2 ^ 27 + h.t.toNat * 2 ^ 26 + h.tsi.toNat * 2 ^ 22 +
    h.tsf.toNat * 2 ^ 20 + h.count.toNat * 2 ^ 16 + size

/-- The packet counter in the bytes of a packet: bits 19:16 of word 0 (rule R91). -/
def packetCount (b : List Byte) : Nat := (b.getD 1 0).toNat % 16

/-- The bytes of a ring element, least significant first (rule R65). -/
def leBytes (w : Word) : List Byte :=
  [BitVec.ofNat 8 w.toNat, BitVec.ofNat 8 (w.toNat / 2 ^ 8), BitVec.ofNat 8 (w.toNat / 2 ^ 16),
    BitVec.ofNat 8 (w.toNat / 2 ^ 24)]

/-- A fragment none of the tests of rule R171 drops. -/
structure ValidFragment (f : Fragment) : Prop where
  total_ne : f.total ≠ 0
  bins_len : f.bins.length = f.width.toNat
  range : f.first.toNat + f.width.toNat ≤ f.total.toNat
  bound : f.low.toNat + (f.total.toNat - 1) * (f.bw.toNat + 1) < 2 ^ 64

/-- A datagram makes a reassembler take a fragment: under a given `tile_parse`, the datagram decodes to a StreamID that
is not 0, slot `i` is the first waterfall slot that holds it, and the payload parses to the valid fragment `f` (rules
R150, R152, R153, R171). -/
def reassembles (parse : List Byte → Option Fragment) (b : List Byte) (s : State) (i : Nat)
    (f : Fragment) : Prop :=
  ∃ (h : Header) (sid : Word) (k : ClassId) (p : List Byte), decodePacket b = .ok h sid k p ∧
    sid ≠ 0 ∧ findSlot sid 0 s.sid.wf = some i ∧ parse p = some f ∧ ValidFragment f

/-- A fragment starts a new frame in a context (rule R173). -/
def startsFrame (f : Fragment) (c : WfContext) : Prop := c.tcv = false ∨ f.timecode ≠ c.tc

/-- Fragments that tile the bins from `a` up to `total`, each carrying at least one. -/
def tiles (total : Nat) : Nat → List Fragment → Prop
  | a, [] => a = total
  | a, f :: fs => f.first.toNat = a ∧ 1 ≤ f.width.toNat ∧ tiles total (a + f.width.toNat) fs

/-- One ring operation of an interleaving: RBINS of an element, or RBPOP. -/
def ringOp : Option Word → Instr
  | some e => .rbins e
  | none => .rbpop

/-! ## Interleavings with the micro-steps of PUSHB and READ -/

/-- One step on the way of the elements: an instruction, or the next micro-step of a sequencer. -/
inductive Move where
  | instr (i : Instr)
  | micro (q : Sequencer)
  deriving DecidableEq, Repr

/-- Carry out a move. -/
def Move.carry (m : Move) (s : State) : Host.Outcome State Fault Refusal :=
  match m with
  | .instr i => exec i s
  | .micro q => .next (advanceTurn q s)

/-- The element a move from `s` to `t` inserts: RBINS's own; PUSHB's sample PB_J, where PB_INS counts it
(rule R225). -/
def moveIn (m : Move) (s t : State) : List Word :=
  match m with
  | .instr (.rbins e) => [e]
  | .instr (.decode _) | .instr (.encode _ _ _ _) | .instr (.txpkt _) | .instr .txinit
  | .instr (.rxdgram _) | .instr (.sidset _ _) | .instr (.wffrag _ _) | .instr .rbpop
  | .instr .rbsize | .instr .rbclr | .instr (.pushb _) | .instr (.read _) | .instr .daset
  | .instr .dawait | .instr .closeStream | .instr .openStream | .micro .read => []
  | .micro .pushb =>
    if t.pb.ins = s.pb.ins + 1 then [f32 (s.pb.samples.getD s.pb.j 0)] else []

/-- The element a result record of RBPOP delivers (rule R97). -/
def Result.popped : Result → Option Word
  | .rbpop e => e
  | .decode _ | .encode _ | .txpkt _ | .rxdgram _ | .wffrag _ | .rbsize _ | .pushb _ _
  | .read _ _ _ => none

/-- The elements a move from `s` to `t` takes out: those RBPOP delivers; the one READ puts at RD_OUT[RD_N],
where RD_N counts it (rule R230). -/
def moveOut (m : Move) (s t : State) : List Word :=
  match m with
  | .instr _ => (t.out.dataOut.drop s.out.dataOut.length).filterMap Result.popped
  | .micro .read => if t.rd.n = s.rd.n + 1 then [Memory.read t.rd.out s.rd.n] else []
  | .micro .pushb => []

/-- The elements that moves carried out one after another insert, those they take out, and the state they
leave; none if one of them stops. -/
def flow : List Move → State → Option (List Word × List Word × State)
  | [], s => some ([], [], s)
  | m :: ms, s =>
    match m.carry s with
    | .next t => (flow ms t).map fun r => (moveIn m s t ++ r.1, moveOut m s t ++ r.2.1, r.2.2)
    | .fault _ => none
    | .refused _ => none

/-- No move that inserts finds the ring full (rules R73, R207). -/
def noOverwrite : List Move → State → Prop
  | [], _ => True
  | m :: ms, s =>
    match m.carry s with
    | .next t => (moveIn m s t ≠ [] → s.rb.size ≠ s.cfg.rbCap) ∧ noOverwrite ms t
    | .fault _ => True
    | .refused _ => True

/-! ## Views of the event records -/

/-- An event is a ROW_RECEIVED. -/
def Event.isRow : Event → Bool
  | .binsConfigured _ _ => false
  | .dataRangeChanged _ _ _ => false
  | .rowReceived _ _ _ => true

/-! ## The value of a binary32 pattern, to say what rule R221 says of `f32` -/

/-- The real number of a binary32 pattern that is a zero or a normal number (93_implementation_defined.md
G6). -/
def binary32Value (w : Word) : Rat :=
  if (w.extractLsb' 0 31) = 0 then 0
  else
    (if w.getLsbD 31 then -1 else 1) * (1 + ((w.extractLsb' 0 23).toNat : Rat) / 2 ^ 23) *
      (2 : Rat) ^ (((w.extractLsb' 23 8).toNat : Int) - 127)

end Sys2Proof.Machine
end

