-- ==== Sys2Proof/Certificates/Slice0/Obligations.lean ====
section
/-! DEFINITION. The statements for the provers, from the numbered rules of the spec. -/

open Sys2Proof Sys2Proof.Machine

/-! ## Encoding -/

/-- For every well-formed instruction, the decoder reads from its command word and operand record the
instruction itself (rules R95, R96, R100). -/
def Obligations.DecodeEncodeCommand : Prop :=
  ∀ i : Instr, i.wf = true → decodeCommand (encodeCommand i) = .ok i

/-- A command that decodes is the encoding of the instruction it decodes to: each command has one meaning and
no bit of it is dropped (rules R95, R96, R100, R101). -/
def Obligations.EncodeDecodeCommand : Prop :=
  ∀ (c : Command) (i : Instr), decodeCommand c = .ok i → encodeCommand i = c

/-- The command words that select a row are exactly those with the row's opcode in bits 31:24, `idx` in bits
23:16, `imm` in bits 15:0 and the fields its format requires to be 0 at 0 (rules R95, R100). -/
def Obligations.DecodeWordTable : Prop :=
  ∀ (w : Word) (op : Opcode), decodeWord w = .ok op ↔
    ∃ idx imm : Nat, idx < 2 ^ 8 ∧ imm < 2 ^ 16 ∧
      w.toNat = op.code.toNat * 2 ^ 24 + idx * 2 ^ 16 + imm ∧
      (op.format = .z → idx = 0 ∧ imm = 0) ∧ (op.format = .x → imm = 0) ∧
      (op.format = .l → idx = 0)

/-- Words written out from the encodings of the spec decode to the instruction they stand for, one of each of the
seventeen rows; `decodeTableWord` gives a word its operand record of zeros (rules R96, R100, R106; log 8). -/
def Obligations.CommandWordSamples : Prop :=
  decodeCommand ⟨0x01000002, [.byte 0x38, .byte 0x05]⟩ = .ok (.decode [0x38, 0x05]) ∧
  decodeCommand ⟨0x02000001, [.header Header.zero, .word 0x40000000,
    .classId ⟨0x123456, 0xABCD, 0xEF01⟩, .byte 0x55]⟩ =
      .ok (.encode Header.zero 0x40000000 ⟨0x123456, 0xABCD, 0xEF01⟩ [0x55]) ∧
  decodeCommand ⟨0x03000001, [.byte 0xAA]⟩ = .ok (.txpkt [0xAA]) ∧
  decodeTableWord 32 0x04000000 = some .txinit ∧
  decodeCommand ⟨0x08000003, [.byte 1, .byte 2, .byte 3]⟩ = .ok (.rxdgram [1, 2, 3]) ∧
  decodeCommand ⟨0x09FE0000, [.word 0x04000008]⟩ = .ok (.sidset .rxa 0x04000008) ∧
  decodeCommand ⟨0x09FF0000, [.word 0x0400000A]⟩ = .ok (.sidset .tx 0x0400000A) ∧
  decodeCommand ⟨0x09050000, [.word 0x42000000]⟩ = .ok (.sidset (.wf 5) 0x42000000) ∧
  decodeTableWord 32 0x10030000 = some (.wffrag 3 Fragment.zero) ∧
  decodeCommand ⟨0x20000000, [.word 0x3F000000]⟩ = .ok (.rbins 0x3F000000) ∧
  decodeTableWord 32 0x21000000 = some .rbpop ∧
  decodeTableWord 32 0x22000000 = some .rbsize ∧
  decodeTableWord 32 0x23000000 = some .rbclr ∧
  decodeCommand ⟨0x30000002, [.sample 16384, .sample 0xC000]⟩ = .ok (.pushb [16384, 0xC000]) ∧
  decodeTableWord 32 0x31000004 = some (.read 4) ∧
  decodeTableWord 32 0x32000000 = some .daset ∧
  decodeTableWord 32 0x33000000 = some .dawait ∧
  decodeTableWord 32 0x34000000 = some .closeStream ∧
  decodeTableWord 32 0x35000000 = some .openStream

/-! ## The step -/

/-- An agent's turn takes the next command of its stream, and no other stream changes. Where the command decodes and the
agent is not held, the step is `exec` of the instruction, with the turn and the command taken. CONS alone can be held by a
READ, while RD_STATE = RD_WAIT, DA = 0 and CLOSED = 0; any agent by a DAWAIT, while DA = 0 and CLOSED = 0, and by no other
instruction, because every one but DAWAIT is enabled in every state. Held, nothing but the turn changes and the command
stays in the stream. A sequencer's turn is one micro-step, whether its agent is held by a DAWAIT or not (rules R21, R23,
R71, R233, R241, R285; turns and streams are the model's: log 4, 5, 6, 23). -/
def Obligations.StepRunsDecoded : Prop :=
  (∀ e : Inputs, e.stream .net = e.net ∧ e.stream .prod = e.prod ∧ e.stream .cons = e.cons ∧
    e.stream .host = e.host) ∧
  (∀ (e : Inputs) (a b : Agent) (cs : List Command), (e.setStream a cs).turns = e.turns ∧
    (e.setStream a cs).stream b = if b = a then cs else e.stream b) ∧
  (∀ (i : Instr) (s : State), i ≠ .dawait → instrEnabled i s = true) ∧
  (∀ (s : State) (a : Agent) (c : Command) (cs : List Command) (ts : List Turn) (i : Instr),
    s.env.turns = .issue a :: ts → s.env.stream a = c :: cs → decodeCommand c = .ok i →
      (a ≠ .cons ∨ s.rd.state ≠ .wait ∨ s.da = true ∨ s.closed = true →
        i ≠ .dawait ∨ s.da = true ∨ s.closed = true →
          step s = exec i { s with env := { s.env.setStream a cs with turns := ts } }) ∧
      (i = .dawait → s.da = false → s.closed = false →
        step s = .next { s with env := { s.env with turns := ts } })) ∧
  (∀ (s : State) (ts : List Turn), s.env.turns = .issue .cons :: ts →
    s.rd.state = .wait → s.da = false → s.closed = false →
      step s = .next { s with env := { s.env with turns := ts } }) ∧
  ∀ (s : State) (q : Sequencer) (ts : List Turn), s.env.turns = .advance q :: ts →
    step s = .next (advanceTurn q { s with env := { s.env with turns := ts } })

/-- A command word that selects no row, issued by an agent no READ holds, is refused: one ILLEGAL_COMMAND record with the
word, nothing returned, no register changed (rules R101, R233, R265). -/
def Obligations.StepRefusesIllegalWord : Prop :=
  ∀ (s : State) (a : Agent) (c : Command) (cs : List Command) (ts : List Turn),
    s.env.turns = .issue a :: ts → s.env.stream a = c :: cs →
    a ≠ .cons ∨ s.rd.state ≠ .wait ∨ s.da = true ∨ s.closed = true →
    (∀ op, decodeWord c.word ≠ .ok op) →
      step s = .next { s with
        out := { s.out with err := s.out.err ++ [.illegalCommand c.word] }
        env := { s.env.setStream a cs with turns := ts } }

/-- What the model's step does where no instruction is carried out. With no turn to take the block waits and nothing
changes (rule R301; log 4); at the turn of an agent whose stream is empty nothing but the turn changes (log 4). A command
whose word selects a row and whose operand record is not the one rule R96 gives it is refused if its word is illegal in
the state, because legality is tested first (rule R268); if the word is legal it stops the machine with the fault
`operandRecord` (the model's choice, log 7). Such a word is illegal exactly where rule R101 says: by the `idx` of SIDSET
and WFFRAG, the payload length of ENCODE and TXPKT, a READ of no element, and the state of the sequencer of READ and
PUSHB. A record logged by a unit outside the block is appended to ERR, with its code, and nothing else changes (rules
R261, R263, R264; that it is a turn is the model's choice, log 12). -/
def Obligations.StepOtherwise : Prop :=
  (∀ s : State, s.env.turns = [] → step s = .next s) ∧
  (∀ (s : State) (a : Agent) (ts : List Turn), s.env.turns = .issue a :: ts →
    s.env.stream a = [] → step s = .next { s with env := { s.env with turns := ts } }) ∧
  (∀ (s : State) (a : Agent) (c : Command) (cs : List Command) (ts : List Turn) (op : Opcode),
    s.env.turns = .issue a :: ts → s.env.stream a = c :: cs →
    a ≠ .cons ∨ s.rd.state ≠ .wait ∨ s.da = true ∨ s.closed = true →
    decodeWord c.word = .ok op → (∀ i, decodeCommand c ≠ .ok i) →
    (fieldsLegal op (idxField c.word) (immField c.word) s = true →
      step s = .fault .operandRecord) ∧
    (fieldsLegal op (idxField c.word) (immField c.word) s = false →
      step s = .next { s with
        out := { s.out with err := s.out.err ++ [.illegalCommand c.word] }
        env := { s.env.setStream a cs with turns := ts } })) ∧
  (∀ (op : Opcode) (idx : BitVec 8) (imm : BitVec 16) (s : State),
    fieldsLegal op idx imm s = false ↔
      (op = .sidset ∧ s.cfg.nWf ≤ idx.toNat ∧ idx ≠ 0xFE ∧ idx ≠ 0xFF) ∨
      (op = .wffrag ∧ s.cfg.nWf ≤ idx.toNat) ∨
      ((op = .encode ∨ op = .txpkt) ∧ 65507 < imm.toNat) ∨
      (op = .read ∧ (imm = 0 ∨ s.rd.state ≠ .idle)) ∨
      (op = .pushb ∧ s.pb.state ≠ .idle)) ∧
  ∀ (s : State) (e : ExternalError) (ts : List Turn), s.env.turns = .external e :: ts →
    ∃ r : ErrRecord,
      step s = .next { s with
        out := { s.out with err := s.out.err ++ [r] }, env := { s.env with turns := ts } } ∧
      (e = .codecFailure → r = .codecFailure ∧ r.code = 2) ∧
      (e = .transportFailure → r = .transportFailure ∧ r.code = 4) ∧
      (e = .deviceUnavailable → r = .deviceUnavailable ∧ r.code = 5)

/-- Nothing is fatal: every instruction answers a next state in every state, and no step is refused (rule
R266). -/
def Obligations.EveryInstructionCompletes : Prop :=
  (∀ (i : Instr) (s : State), ∃ t, exec i s = .next t) ∧
    (∀ (s : State) (r : Refusal), step s ≠ .refused r)

/-- The commands that decode and that rule R101 makes illegal are refused: one ILLEGAL_COMMAND record with the
command word, and nothing else changes (rules R101, R265). -/
def Obligations.RefusedCommands : Prop :=
  ∀ s : State,
    (∀ (k : Fin 254) (v : Word), s.cfg.nWf ≤ k.val →
      exec (.sidset (.wf k) v) s = .next { s with out := { s.out with
        err := s.out.err ++ [.illegalCommand (Instr.sidset (.wf k) v).word] } }) ∧
    (∀ (ctx : BitVec 8) (f : Fragment), s.cfg.nWf ≤ ctx.toNat →
      exec (.wffrag ctx f) s = .next { s with out := { s.out with
        err := s.out.err ++ [.illegalCommand (Instr.wffrag ctx f).word] } }) ∧
    (∀ (h : Header) (sid : Word) (k : ClassIdArg) (p : List Byte), 65507 < p.length →
      exec (.encode h sid k p) s = .next { s with out := { s.out with
        err := s.out.err ++ [.illegalCommand (Instr.encode h sid k p).word] } }) ∧
    (∀ p : List Byte, 65507 < p.length →
      exec (.txpkt p) s = .next { s with out := { s.out with
        err := s.out.err ++ [.illegalCommand (Instr.txpkt p).word] } }) ∧
    (∀ m : BitVec 16, m = 0 ∨ s.rd.state ≠ .idle →
      exec (.read m) s = .next { s with out := { s.out with
        err := s.out.err ++ [.illegalCommand (Instr.read m).word] } }) ∧
    (∀ vs : List Sample, s.pb.state ≠ .idle →
      exec (.pushb vs) s = .next { s with out := { s.out with
        err := s.out.err ++ [.illegalCommand (Instr.pushb vs).word] } })

/-! ## Reset -/

/-- Reset puts every register in its value of the table of rule R50, under every configuration, whatever the
state was: the machine right after reset, and HOST's reset action as a step (rule R300). -/
def Obligations.ResetRegisters : Prop :=
  (∀ p : Params, (State.resetWith p).cfg = p ∧ (State.resetWith p).out = Traces.start) ∧
  ∀ (s : State) (ts : List Turn), s.env.turns = .reset :: ts →
    ∃ t : State, step s = .next t ∧ t.cfg = s.cfg ∧
      (∀ u : State, u = t ∨ u = State.resetWith s.cfg →
        u.rb.head = 0 ∧ u.rb.tail = 0 ∧ u.rb.size = 0 ∧ (∀ a, Memory.read u.rb.mem a = 0) ∧
        u.da = false ∧ u.closed = false ∧
        u.rd.state = .idle ∧ u.rd.m = 0 ∧ u.rd.n = 0 ∧ (∀ a, Memory.read u.rd.out a = 0) ∧
        u.pb.state = .idle ∧ u.pb.k = 0 ∧ u.pb.j = 0 ∧ u.pb.ins = 0 ∧ u.pb.samples = [] ∧
        u.sid.wf = List.replicate s.cfg.nWf 0 ∧ u.sid.rxa = 0 ∧ u.sid.tx = 0 ∧
        u.wf.length = s.cfg.nWf ∧
        (∀ c ∈ u.wf, c.total = 0 ∧ c.tc = 0 ∧ c.tcv = false ∧ c.filled = 0 ∧ c.low = 0 ∧
          c.high = 0 ∧ c.phase = .idle ∧ ∀ a, Memory.read c.buf a = 0) ∧
        u.txSeq = 0)

/-- Straight after reset, before any configuration: a datagram that decodes is dropped as unrouted; TXPKT does nothing
but answer; a READ is held after two micro-steps; a PUSHB works at once, its first sample in the ring after two
micro-steps; a valid WFFRAG works at once, as the first packet of its stream; DECODE and ENCODE work at once (rule
R303). -/
def Obligations.AfterReset : Prop :=
  ∀ p : Params,
    (∀ (b : List Byte) (h : Header) (sid : Word) (k : ClassId) (pl : List Byte),
      decodePacket b = .ok h sid k pl →
      exec (.rxdgram b) (State.resetWith p) =
        .next (deliver (.rxdgram .droppedUnrouted) (State.resetWith p))) ∧
    (∀ pl : List Byte, pl.length ≤ 65507 →
      exec (.txpkt pl) (State.resetWith p) = .next (deliver (.txpkt false) (State.resetWith p))) ∧
    (∀ m : BitVec 16, m ≠ 0 → ∃ t : State, exec (.read m) (State.resetWith p) = .next t ∧
      (advanceN .read 2 t).rd.state = .wait ∧
      ∀ n, 2 ≤ n → advanceN .read n t = advanceN .read 2 t) ∧
    (∀ (v : Sample) (vs : List Sample), 4 ≤ p.rbCap → ∃ t u : State,
      exec (.pushb (v :: vs)) (State.resetWith p) = .next t ∧ u = advanceN .pushb 2 t ∧
      u.rb.size = 1 ∧ ringContent p.rbCap u.rb = [f32 v] ∧ u.pb.ins = 1 ∧
      u.out = Traces.start) ∧
    (∀ (ctx : BitVec 8) (f : Fragment), ctx.toNat < p.nWf → ValidFragment f →
      ∃ (t : State) (rest : List Event),
        exec (.wffrag ctx f) (State.resetWith p) = .next t ∧
        t.out = { Traces.start with
          evt := .binsConfigured ctx.toNat f.total ::
            .dataRangeChanged ctx.toNat f.low (BitVec.ofNat 64 (upperBound f)) :: rest
          dataOut := [.wffrag true] } ∧
        (∀ e ∈ rest, e.isRow = true) ∧ (t.context ctx.toNat).filled = f.width.toNat) ∧
    (∀ b : List Byte, exec (.decode b) (State.resetWith p) =
      .next (deliver (.decode (decodePacket b)) (State.resetWith p))) ∧
    (∀ (h : Header) (sid : Word) (k : ClassIdArg) (pl : List Byte), pl.length ≤ 65507 →
      exec (.encode h sid k pl) (State.resetWith p) =
        .next (deliver (.encode (encodePacket h sid k pl)) (State.resetWith p)))

/-! ## CODEC -/

/-- DECODE's outcome on every datagram: the three failures in their order with their subcodes, else every
field, from the bytes, and the payload with its length; it changes nothing (rules R121, R122). -/
def Obligations.DecodeOutcome : Prop :=
  MalformedSub.short.code = 1 ∧ MalformedSub.sizeLt7.code = 2 ∧ MalformedSub.truncated.code = 3 ∧
  ∀ (b : List Byte) (s : State), ∃ r : PacketResult,
    exec (.decode b) s = .next { s with out := { s.out with
      dataOut := s.out.dataOut ++ [.decode r] } } ∧
    (b.length < 28 → r = .fail .short) ∧
    (28 ≤ b.length → beValue b 0 % 2 ^ 16 < 7 → r = .fail .sizeLt7) ∧
    (28 ≤ b.length → 7 ≤ beValue b 0 % 2 ^ 16 →
      (4 * (beValue b 0 % 2 ^ 16) : Int) - b.length ≥ 4 → r = .fail .truncated) ∧
    (28 ≤ b.length → 7 ≤ beValue b 0 % 2 ^ 16 →
      (4 * (beValue b 0 % 2 ^ 16) : Int) - b.length < 4 →
      ∃ (h : Header) (sid : Word) (k : ClassId) (p : List Byte), r = .ok h sid k p ∧
        headerValue h h.size.toNat = beValue b 0 ∧ sid.toNat = beValue b 4 ∧
        k.oui.toNat = beValue b 8 % 2 ^ 24 ∧
        k.infoClass.toNat * 2 ^ 16 + k.packetClass.toNat = beValue b 12 ∧
        p = (b.take (min b.length (4 * (beValue b 0 % 2 ^ 16)))).drop 28 ∧
        p.length = min b.length (4 * (beValue b 0 % 2 ^ 16)) - 28 ∧
        (b.length ≤ 65535 → p.length ≤ 65507))

/-- ENCODE's packet on every payload up to 65507 bytes: word 0 with the computed size, the StreamID, the
masked OUI, the class word, twelve zero bytes, the payload unpadded; nothing changes. A longer payload is refused (rule R123). -/
def Obligations.EncodeBytes : Prop :=
  ∀ (h : Header) (sid : Word) (k : ClassIdArg) (p : List Byte) (s : State),
    (p.length ≤ 65535 → (Instr.encode h sid k p).word.toNat = 0x02000000 + p.length) ∧
    (65507 < p.length → exec (.encode h sid k p) s = .next { s with out := { s.out with
      err := s.out.err ++ [.illegalCommand (Instr.encode h sid k p).word] } }) ∧
    (p.length ≤ 65507 → ∃ b : List Byte,
      exec (.encode h sid k p) s = .next { s with out := { s.out with
        dataOut := s.out.dataOut ++ [.encode b] } } ∧
      b.length = 28 + p.length ∧
      beValue b 0 = headerValue h ((p.length + 3) / 4 + 7) ∧
      beValue b 4 = sid.toNat ∧ beValue b 8 = k.oui.toNat % 2 ^ 24 ∧
      beValue b 12 = k.infoClass.toNat * 2 ^ 16 + k.packetClass.toNat ∧
      (∀ i, 16 ≤ i → i < 28 → b.getD i 1 = 0) ∧ b.drop 28 = p)

/-- The round-trip law: for every header whose size is consistent with the payload, every StreamID, every
24-bit ClassID and every payload up to 65507 bytes, DECODE of ENCODE's packet delivers them back. With another size
or a wider OUI the packet decodes too, to the same StreamID and payload, but not to the header and ClassID given (rule
R124). -/
def Obligations.PacketRoundTrip : Prop :=
  (∀ (h : Header) (sid : Word) (k : ClassId) (p : List Byte), p.length ≤ 65507 →
    h.size.toNat = (p.length + 3) / 4 + 7 →
    ∃ b : List Byte,
      (∀ s : State, exec (.encode h sid k.toArg p) s = .next (deliver (.encode b) s)) ∧
      (∀ s : State, exec (.decode b) s = .next (deliver (.decode (.ok h sid k p)) s))) ∧
  ∀ (h : Header) (sid : Word) (k : ClassIdArg) (p : List Byte), p.length ≤ 65507 →
    (h.size.toNat ≠ (p.length + 3) / 4 + 7 ∨ 2 ^ 24 ≤ k.oui.toNat) →
    ∃ (b : List Byte) (h' : Header) (k' : ClassId),
      (∀ s : State, exec (.encode h sid k p) s = .next (deliver (.encode b) s)) ∧
      (∀ s : State, exec (.decode b) s = .next (deliver (.decode (.ok h' sid k' p)) s)) ∧
      ¬ (h' = h ∧ k'.toArg = k)

/-- TXINIT: command word 0x04000000; TX_SEQ becomes 0 and nothing else changes (rule R125). -/
def Obligations.TxinitResult : Prop :=
  Instr.txinit.word = 0x04000000 ∧ ∀ s : State, exec .txinit s = .next { s with txSeq := 0 }

/-- TXPKT with a target stream: TX_OUT gains the packet ENCODE makes of the template, the counter before the
increment, SID_TX and the payload; TX_SEQ advances modulo 16; sent = 1; nothing else changes (rule R126). -/
def Obligations.TxpktSends : Prop :=
  ∀ (s : State) (p : List Byte) (z : BitVec 16), p.length ≤ 65507 → s.sid.tx ≠ 0 →
    (Instr.txpkt p).word.toNat = 0x03000000 + p.length ∧
    ∃ b : List Byte,
      exec (.encode
          { pktType := s.cfg.txTmpl.pktType, c := s.cfg.txTmpl.c, t := s.cfg.txTmpl.t,
            tsi := s.cfg.txTmpl.tsi, tsf := s.cfg.txTmpl.tsf, count := s.txSeq, size := z }
          s.sid.tx
          { oui := s.cfg.txTmpl.oui.setWidth 32, infoClass := s.cfg.txTmpl.infoClass,
            packetClass := s.cfg.txTmpl.packetClass } p) s = .next (deliver (.encode b) s) ∧
      ∃ q : BitVec 4, q.toNat = (s.txSeq.toNat + 1) % 16 ∧
        exec (.txpkt p) s = .next { s with
          txSeq := q
          out := { s.out with
            txOut := s.out.txOut ++ [b], dataOut := s.out.dataOut ++ [.txpkt true] } }

/-- TXPKT with no target stream returns sent = 0, appends nothing to TX_OUT, leaves TX_SEQ unchanged and raises
nothing (rule R127). -/
def Obligations.TxpktNoStream : Prop :=
  ∀ (s : State) (p : List Byte), p.length ≤ 65507 → s.sid.tx = 0 →
    exec (.txpkt p) s = .next { s with out := { s.out with
      dataOut := s.out.dataOut ++ [.txpkt false] } }

/-- The sequence wraparound law: sixteen TXPKT with a target stream leave TX_SEQ at its starting value s, and
the sixteen packets carry s, s+1, .. modulo 16, each value of 0 .. 15 exactly once (rule R128). -/
def Obligations.TxSequenceWrap : Prop :=
  ∀ (s : State) (ps : List (List Byte)), ps.length = 16 → (∀ p ∈ ps, p.length ≤ 65507) →
    s.sid.tx ≠ 0 →
    ∃ (t : State) (bs : List (List Byte)), execAll (ps.map .txpkt) s = .next t ∧
      t.txSeq = s.txSeq ∧ t.out.txOut = s.out.txOut ++ bs ∧ bs.length = 16 ∧
      (∀ k, k < 16 → ∃ b, bs[k]? = some b ∧ packetCount b = (s.txSeq.toNat + k) % 16) ∧
      (bs.map packetCount).Perm (List.range 16)

/-! ## ROUTER -/

/-- A datagram that does not decode is dropped: one MALFORMED_PACKET record with DECODE's subcode, the route
DROPPED_MALFORMED, and nothing else changes (rule R151). -/
def Obligations.RxdgramMalformed : Prop :=
  ∀ (s : State) (b : List Byte) (sub : MalformedSub),
    decodePacket b = .fail sub →
    exec (.rxdgram b) s = .next { s with out := { s.out with
      err := s.out.err ++ [.malformedPacket sub]
      dataOut := s.out.dataOut ++ [.rxdgram .droppedMalformed] } }

/-- The lookup of a datagram that decodes: StreamID 0 matches no slot; the first waterfall slot that holds the
StreamID wins, its payload through `tile_parse` to WFFRAG or dropped as TILE_PARSE; else SID_RXA, whose payload
goes whole to RXA_OUT; else dropped silently. SID_TX is not looked at (rules R150, R152 to R154). The routes are
numbered 0 to 3 and the subcode TILE_PARSE is 4 (rules R97, R260). -/
def Obligations.RxdgramRoutes : Prop :=
  (Route.droppedMalformed.code = 0 ∧ (∀ i, (Route.toWaterfall i).code = 1) ∧
    Route.toRxAudio.code = 2 ∧ Route.droppedUnrouted.code = 3 ∧ MalformedSub.tileParse.code = 4) ∧
  ∀ (s : State) (b : List Byte) (h : Header) (sid : Word) (k : ClassId) (p : List Byte),
    decodePacket b = .ok h sid k p →
    (sid = 0 →
      exec (.rxdgram b) s = .next (deliver (.rxdgram .droppedUnrouted) s)) ∧
    (∀ i, sid ≠ 0 → i < s.cfg.nWf → s.cfg.nWf ≤ 254 → s.sid.wf[i]? = some sid →
      (∀ j, j < i → s.sid.wf[j]? ≠ some sid) →
      (Config.tileParse p = none →
        exec (.rxdgram b) s = .next (deliver (.rxdgram .droppedMalformed)
          (raise (.malformedPacket .tileParse) s))) ∧
      (∀ f, Config.tileParse p = some f →
        ∃ (u : State) (acc : Bool),
          exec (.wffrag (BitVec.ofNat 8 i) f) s = .next (deliver (.wffrag acc) u) ∧
          exec (.rxdgram b) s = .next (deliver (.rxdgram (.toWaterfall i)) u))) ∧
    (sid ≠ 0 → sid ∉ s.sid.wf → s.sid.rxa = sid →
      exec (.rxdgram b) s = .next (deliver (.rxdgram .toRxAudio) (sendRxa p s))) ∧
    (sid ≠ 0 → sid ∉ s.sid.wf → s.sid.rxa ≠ sid →
      exec (.rxdgram b) s = .next (deliver (.rxdgram .droppedUnrouted) s))

/-- Isolation: an RXDGRAM, under every `tile_parse`, changes no register but those of one waterfall context. That
context is the one of the first slot that holds the datagram's StreamID, and it changes only when the fragment its
payload parses to is valid; it is then the context WFFRAG makes of it, with no bin changed outside the fragment's slice
but those a new total sets to 0. On every other route no context changes, and when an error is logged nothing else
happens (rules R150, R155, R266). -/
def Obligations.RxdgramFrame : Prop :=
  (∀ (s : State) (b : List Byte), exec (.rxdgram b) s =
    .next (deliver (.rxdgram (routeDatagram Config.tileParse b s).1)
      (routeDatagram Config.tileParse b s).2)) ∧
  ∀ (parse : List Byte → Option Fragment) (s t : State) (b : List Byte),
    t = (routeDatagram parse b s).2 →
    (∃ (es : List Event) (er : List ErrRecord) (rx : List (List Byte)),
      t = { s with
        wf := t.wf
        out := { s.out with
          evt := s.out.evt ++ es, err := s.out.err ++ er, rxaOut := s.out.rxaOut ++ rx } } ∧
      (er ≠ [] → t.wf = s.wf ∧ es = [] ∧ rx = [])) ∧
    (∀ (i : Nat) (f : Fragment), reassembles parse b s i f → ∃ c : WfContext,
      c = (wfAccept i f (s.context i)).1 ∧ t.wf = s.wf.set i c ∧
      ∀ a, a < f.first.toNat ∨ f.first.toNat + f.width.toNat ≤ a →
        Memory.read c.buf a =
          if f.total ≠ (s.context i).total ∧ a < f.total.toNat then 0
          else Memory.read (s.context i).buf a) ∧
    ((∀ (i : Nat) (f : Fragment), ¬ reassembles parse b s i f) → t.wf = s.wf)

/-- SIDSET, each slot with its command word. On a waterfall slot below N_WF: the slot holds the value, even the
value it held before, and that slot's context is in its reset state, with no event; on SID_RXA or SID_TX nothing but
that register changes (rules R156, R157, R158). -/
def Obligations.SidsetResult : Prop :=
  (∀ (k : Fin 254) (v : Word), (Instr.sidset (.wf k) v).word.toNat = 0x09000000 + k.val * 2 ^ 16) ∧
  ∀ (s : State) (v : Word),
    (∀ k : Fin 254, k.val < s.cfg.nWf → ∃ c : WfContext,
      exec (.sidset (.wf k) v) s = .next { s with
        sid := { s.sid with wf := s.sid.wf.set k.val v }
        wf := s.wf.set k.val c } ∧
      c.total = 0 ∧ c.tcv = false ∧ c.tc = 0 ∧ c.filled = 0 ∧ c.low = 0 ∧ c.high = 0 ∧
      c.phase = .idle ∧ ∀ a, Memory.read c.buf a = 0) ∧
    (Instr.sidset .rxa v).word = 0x09FE0000 ∧
    exec (.sidset .rxa v) s = .next { s with sid := { s.sid with rxa := v } } ∧
    (Instr.sidset .tx v).word = 0x09FF0000 ∧
    exec (.sidset .tx v) s = .next { s with sid := { s.sid with tx := v } }

/-! ## WFR -/

/-- WFFRAG's validity tests, in their order, with their subcodes: a malformed fragment is dropped with one
record, accepted = 0 and nothing else changed; any other is accepted, a zero-width one too, with no record (rule
R171). -/
def Obligations.WffragValidity : Prop :=
  MalformedSub.fragZeroTotal.code = 5 ∧ MalformedSub.fragBinsLen.code = 6 ∧
  MalformedSub.fragRange.code = 7 ∧ MalformedSub.freqRange.code = 8 ∧
  ∀ (ctx : BitVec 8) (f : Fragment) (s : State), ctx.toNat < s.cfg.nWf →
    (∀ sub : MalformedSub,
      (f.total.toNat = 0 ∧ sub = .fragZeroTotal) ∨
      (f.total.toNat ≠ 0 ∧ f.bins.length ≠ f.width.toNat ∧ sub = .fragBinsLen) ∨
      (f.total.toNat ≠ 0 ∧ f.bins.length = f.width.toNat ∧
        f.first.toNat + f.width.toNat > f.total.toNat ∧ sub = .fragRange) ∨
      (f.total.toNat ≠ 0 ∧ f.bins.length = f.width.toNat ∧
        f.first.toNat + f.width.toNat ≤ f.total.toNat ∧
        2 ^ 64 ≤ f.low.toNat + (f.total.toNat - 1) * (f.bw.toNat + 1) ∧ sub = .freqRange) →
      exec (.wffrag ctx f) s = .next { s with out := { s.out with
        err := s.out.err ++ [.malformedPacket sub]
        dataOut := s.out.dataOut ++ [.wffrag false] } }) ∧
    (ValidFragment f → ∃ t : State, exec (.wffrag ctx f) s = .next t ∧
      t.out.err = s.out.err ∧ t.out.dataOut = s.out.dataOut ++ [.wffrag true])

/-- WFFRAG's four steps on a valid fragment: the context's registers and buffer after, the events in order, and
nothing else changed (rules R170, R172, R173, R175, R177, R178). -/
def Obligations.WffragSteps : Prop :=
  ∀ (ctx : BitVec 8) (f : Fragment) (s : State), ctx.toNat < s.cfg.nWf → ValidFragment f →
    Memory.wf (s.context ctx.toNat).buf = true →
    ∃ (c : WfContext) (e1 e2 e4 : List Event),
      exec (.wffrag ctx f) s = .next { s with
        wf := s.wf.set ctx.toNat c
        out := { s.out with
          evt := s.out.evt ++ (e1 ++ e2 ++ e4)
          dataOut := s.out.dataOut ++ [.wffrag true] } } ∧
      c.total = f.total ∧ c.tc = f.timecode ∧ c.tcv = true ∧
      (startsFrame f (s.context ctx.toNat) →
        c.low = f.low ∧
        c.high.toNat = f.low.toNat + (f.total.toNat - 1) * (f.bw.toNat + 1) ∧
        e2 = [.dataRangeChanged ctx.toNat c.low c.high]) ∧
      (¬ startsFrame f (s.context ctx.toNat) →
        c.low = (s.context ctx.toNat).low ∧ c.high = (s.context ctx.toNat).high ∧ e2 = []) ∧
      (f.total ≠ (s.context ctx.toNat).total → e1 = [.binsConfigured ctx.toNat f.total]) ∧
      (f.total = (s.context ctx.toNat).total → e1 = []) ∧
      (f.total ≠ (s.context ctx.toNat).total ∨ startsFrame f (s.context ctx.toNat) →
        c.filled = f.width.toNat) ∧
      (f.total = (s.context ctx.toNat).total → ¬ startsFrame f (s.context ctx.toNat) →
        c.filled = (s.context ctx.toNat).filled + f.width.toNat) ∧
      (∀ a, f.first.toNat ≤ a → a < f.first.toNat + f.width.toNat →
        Memory.read c.buf a = f.bins.getD (a - f.first.toNat) 0) ∧
      (∀ a, a < f.first.toNat ∨ f.first.toNat + f.width.toNat ≤ a →
        Memory.read c.buf a =
          if f.total ≠ (s.context ctx.toNat).total ∧ a < f.total.toNat then 0
          else Memory.read (s.context ctx.toNat).buf a) ∧
      (c.filled = f.total.toNat →
        c.phase = .idle ∧ e4 = [.rowReceived ctx.toNat
          ((List.range f.total.toNat).map fun a => Memory.read c.buf a) f.abl]) ∧
      (c.filled ≠ f.total.toNat → c.phase = .accumulating ∧ e4 = [])

/-- The range a subscriber is told: a valid fragment that starts a frame emits one event whose bounds, in MHz, are
exactly the fragment's `low` and `low + (total - 1) * (bw + 1)` hertz over a million, in the OPEN number format (rules
R174, R176; log 3). -/
def Obligations.ReportedRange : Prop :=
  ∀ (ctx : BitVec 8) (f : Fragment) (s : State) (low high : Rat), ctx.toNat < s.cfg.nWf →
    ValidFragment f → startsFrame f (s.context ctx.toNat) →
    low = (f.low.toNat : Rat) / 1000000 →
    high = (f.low.toNat + ((f.total.toNat : Rat) - 1) * ((f.bw.toNat : Rat) + 1)) / 1000000 →
    ∃ (t : State) (pre post : List Event) (e : Event),
      exec (.wffrag ctx f) s = .next t ∧ t.out.evt = s.out.evt ++ pre ++ e :: post ∧
      (∀ x ∈ pre ++ post, x.range? = none) ∧ e.range? = some (low, high) ∧
      e.reported? = some (Config.mhzRepr low, Config.mhzRepr high)

/-- At most three events of one WFFRAG or RXDGRAM, always in the order BINS_CONFIGURED, DATA_RANGE_CHANGED,
ROW_RECEIVED; an error excludes all three (rule R184). -/
def Obligations.EventOrder : Prop :=
  ∀ (i : Instr) (s t : State), exec i s = .next t →
    ∃ es : List Event, t.out.evt = s.out.evt ++ es ∧ (es.map Event.code).Sublist [1, 2, 3] ∧
      (t.out.err ≠ s.out.err → es = [])

/-- The worked property: two fragments of one frame that tile its bins, at least one bin each, on a context they
restart or that has counted none: no ROW_RECEIVED after the first, exactly one after the second, with all the bins
in order and the second's auto-black-level; on a context already configured and on that timecode the first emits
nothing at all, on one that it configures and whose frame it starts just those two events (rule R185). -/
def Obligations.WaterfallTwoFragments : Prop :=
  ∀ (ctx : BitVec 8) (s : State) (f g : Fragment), ctx.toNat < s.cfg.nWf →
    ctx.toNat < s.wf.length → Memory.wf (s.context ctx.toNat).buf = true →
    ValidFragment f → ValidFragment g → f.total = g.total → f.timecode = g.timecode →
    tiles f.total.toNat 0 [f, g] →
    (f.total ≠ (s.context ctx.toNat).total ∨ startsFrame f (s.context ctx.toNat) ∨
      (s.context ctx.toNat).filled = 0) →
    ∃ (t u : State) (es : List Event),
      exec (.wffrag ctx f) s = .next t ∧ t.out.evt = s.out.evt ++ es ∧
      (∀ e ∈ es, e.isRow = false) ∧
      (f.total = (s.context ctx.toNat).total → ¬ startsFrame f (s.context ctx.toNat) →
        es = []) ∧
      (f.total ≠ (s.context ctx.toNat).total → startsFrame f (s.context ctx.toNat) →
        es.map Event.code = [1, 2]) ∧
      (t.context ctx.toNat).filled = f.width.toNat ∧
      exec (.wffrag ctx g) t = .next u ∧ (u.context ctx.toNat).filled = f.total.toNat ∧
      u.out.evt = t.out.evt ++ [.rowReceived ctx.toNat (f.bins ++ g.bins) g.abl]

/-- Fragments of one frame that exactly tile its bins give one ROW_RECEIVED, after the last of them, whatever
their order, with the bins in index order (rules R178, R183 (c)). -/
def Obligations.WaterfallAnyOrder : Prop :=
  ∀ (ctx : BitVec 8) (s : State) (total : BitVec 16) (tc : BitVec 32) (gs fs : List Fragment),
    ctx.toNat < s.cfg.nWf → ctx.toNat < s.wf.length →
    Memory.wf (s.context ctx.toNat).buf = true →
    (∀ f ∈ gs, ValidFragment f ∧ f.total = total ∧ f.timecode = tc) → total ≠ 0 →
    tiles total.toNat 0 gs → fs.Perm gs →
    (total ≠ (s.context ctx.toNat).total ∨ (s.context ctx.toNat).tcv = false ∨
      tc ≠ (s.context ctx.toNat).tc ∨ (s.context ctx.toNat).filled = 0) →
    ∃ (t : State) (es : List Event) (last : Fragment),
      execAll (fs.map (.wffrag ctx)) s = .next t ∧ fs.getLast? = some last ∧
      t.out.evt = s.out.evt ++ es ++
        [.rowReceived ctx.toNat (gs.flatMap Fragment.bins) last.abl] ∧
      (∀ e ∈ es, e.isRow = false) ∧ (t.context ctx.toNat).phase = .idle

/-- A fragment of the completed frame's timecode and total: it is copied, it raises the count, and no row is emitted, now or at
any later such fragment, unless its width is 0 and the count stands at the total, when the row is emitted again; a
fragment of another timecode or total restarts the count (rule R179). -/
def Obligations.WaterfallAfterCompletion : Prop :=
  ∀ (ctx : BitVec 8) (s : State) (f : Fragment), ctx.toNat < s.cfg.nWf →
    ctx.toNat < s.wf.length → ValidFragment f →
    (s.context ctx.toNat).total.toNat ≤ (s.context ctx.toNat).filled →
    ∃ t : State, exec (.wffrag ctx f) s = .next t ∧
      (f.total = (s.context ctx.toNat).total → ¬ startsFrame f (s.context ctx.toNat) →
        (t.context ctx.toNat).filled = (s.context ctx.toNat).filled + f.width.toNat ∧
        (t.context ctx.toNat).buf =
          Memory.writeList (s.context ctx.toNat).buf f.first.toNat f.bins ∧
        ((s.context ctx.toNat).total.toNat < (s.context ctx.toNat).filled + f.width.toNat →
          t.out.evt = s.out.evt ∧ (t.context ctx.toNat).phase = .accumulating) ∧
        ((s.context ctx.toNat).filled + f.width.toNat = (s.context ctx.toNat).total.toNat →
          t.out.evt = s.out.evt ++ [.rowReceived ctx.toNat
            (Memory.readList (s.context ctx.toNat).buf 0 f.total.toNat) f.abl])) ∧
      (f.total ≠ (s.context ctx.toNat).total ∨ startsFrame f (s.context ctx.toNat) →
        (t.context ctx.toNat).filled = f.width.toNat)

/-- One frame at a time: when every fragment has another timecode than the one before it, each restarts the
count, and no row is emitted unless a single fragment carries all the bins (rule R180). -/
def Obligations.WaterfallInterleaved : Prop :=
  ∀ (ctx : BitVec 8) (s : State) (fs : List Fragment), ctx.toNat < s.cfg.nWf →
    ctx.toNat < s.wf.length → (∀ f ∈ fs, ValidFragment f ∧ f.width ≠ f.total) →
    (∀ f rest, fs = f :: rest → startsFrame f (s.context ctx.toNat)) →
    (∀ pre f g post, fs = pre ++ f :: g :: post → f.timecode ≠ g.timecode) →
    ∃ (t : State) (es : List Event), execAll (fs.map (.wffrag ctx)) s = .next t ∧
      t.out.evt = s.out.evt ++ es ∧ (∀ e ∈ es, e.isRow = false) ∧
      (∀ last, fs.getLast? = some last →
        (t.context ctx.toNat).filled = last.width.toNat ∧
        (t.context ctx.toNat).tc = last.timecode)

/-! ## RB -/

/-- RBINS: the element at RB_HEAD, RB_HEAD advanced modulo N, and RB_TAIL advanced on a full ring or RB_SIZE
incremented on any other; nothing else changes. The logical content gains the element at its end and, on a full
ring, loses its oldest (rules R200, R201). -/
def Obligations.RbinsResult : Prop :=
  ∀ (s : State) (e : Word), ∃ r : Ring,
    exec (.rbins e) s = .next { s with rb := r } ∧
    r.head = (s.rb.head + 1) % s.cfg.rbCap ∧
    (s.rb.size = s.cfg.rbCap → r.tail = (s.rb.tail + 1) % s.cfg.rbCap ∧ r.size = s.rb.size) ∧
    (s.rb.size ≠ s.cfg.rbCap → r.tail = s.rb.tail ∧ r.size = s.rb.size + 1) ∧
    (Memory.wf s.rb.mem = true → ∀ a, Memory.read r.mem a =
      if a = s.rb.head then e else Memory.read s.rb.mem a) ∧
    (RingInv s.cfg.rbCap s.rb →
      ringContent s.cfg.rbCap r =
        (if s.rb.size = s.cfg.rbCap then (ringContent s.cfg.rbCap s.rb).tail
         else ringContent s.cfg.rbCap s.rb) ++ [e])

/-- RBPOP: on an empty ring ok = false, no element, and no state changes; else the oldest element of the logical
content, RB_TAIL advanced modulo N and RB_SIZE decremented, RB_MEM and RB_HEAD unchanged (rules R202, R203). -/
def Obligations.RbpopResult : Prop :=
  ∀ s : State,
    (s.rb.size = 0 → exec .rbpop s = .next { s with out := { s.out with
      dataOut := s.out.dataOut ++ [.rbpop none] } }) ∧
    (s.rb.size ≠ 0 → ∃ e : Word,
      exec .rbpop s = .next { s with
        rb := { s.rb with tail := (s.rb.tail + 1) % s.cfg.rbCap, size := s.rb.size - 1 }
        out := { s.out with dataOut := s.out.dataOut ++ [.rbpop (some e)] } } ∧
      e = Memory.read s.rb.mem s.rb.tail ∧
      (RingInv s.cfg.rbCap s.rb →
        ringContent s.cfg.rbCap s.rb = e :: ringContent s.cfg.rbCap
          { s.rb with tail := (s.rb.tail + 1) % s.cfg.rbCap, size := s.rb.size - 1 }))

/-- RBSIZE: command word 0x22000000; it delivers RB_SIZE, which is in [0, N], and changes nothing (rule R204). -/
def Obligations.RbsizeResult : Prop :=
  Instr.rbsize.word = 0x22000000 ∧
  ∀ s : State, (RingInv s.cfg.rbCap s.rb → s.rb.size ≤ s.cfg.rbCap) ∧
    exec .rbsize s = .next { s with out := { s.out with
      dataOut := s.out.dataOut ++ [.rbsize s.rb.size] } }

/-- RBCLR: command word 0x23000000; both indices and the count 0, every element of RB_MEM 0, EMPTY = 1, FULL and
NEAR_FULL 0; nothing else changes, DA, CLOSED and the sequencers among it (rule R206). -/
def Obligations.RbclrResult : Prop :=
  Instr.rbclr.word = 0x23000000 ∧
  ∀ s : State, ∃ (m : Memory 32) (t : State),
    exec .rbclr s = .next t ∧
    t = { s with rb := { head := 0, tail := 0, size := 0, mem := m } } ∧
    (∀ a, a < s.cfg.rbCap → Memory.read m a = 0) ∧ statusEmpty t = true ∧
    (4 ≤ s.cfg.rbCap → statusFull t = false ∧ statusNearFull t = false)

/-- The FIFO law. k ≤ N inserts into an empty ring leave RB_SIZE = k, k pops return the elements in insertion
order and leave the ring empty, and a further pop returns ok = false. In any interleaving of inserts and pops from an
empty ring in which no insert finds it full, the elements popped, followed by the elements still in the ring, are the
elements inserted, in order: what is popped is a prefix of what was inserted (rule R207). In any interleaving of
instructions of every kind but RBCLR with the micro-steps of PUSHB and READ, in which no insert finds the ring full, the
elements taken out by RBPOP and READ, followed by those still in the ring, are those that were in the ring followed by
those RBINS and PUSHB inserted, in order; and while no direct RBPOP and no new READ falls in it, the RD_N elements of RD_OUT
are extended by the elements taken out, in that order (rules R73, R207, R225, R230, R235 (e)). -/
def Obligations.FifoLaw : Prop :=
  (∀ (s : State) (es : List Word), RingInv s.cfg.rbCap s.rb → s.rb.size = 0 →
    es.length ≤ s.cfg.rbCap →
    ∃ t u : State, execAll (es.map .rbins) s = .next t ∧ t.rb.size = es.length ∧
      execAll (List.replicate es.length .rbpop) t = .next u ∧
      u.out.dataOut = s.out.dataOut ++ es.map (fun e => .rbpop (some e)) ∧ u.rb.size = 0 ∧
      exec .rbpop u = .next (deliver (.rbpop none) u)) ∧
  (∀ (s : State) (ops : List (Option Word)), RingInv s.cfg.rbCap s.rb → s.rb.size = 0 →
    (∀ pre e post u, ops = pre ++ some e :: post → execAll (pre.map ringOp) s = .next u →
      u.rb.size ≠ s.cfg.rbCap) →
    ∃ (t : State) (rs : List (Option Word)), execAll (ops.map ringOp) s = .next t ∧
      t.out.dataOut = s.out.dataOut ++ rs.map .rbpop ∧
      rs.filterMap id ++ ringContent s.cfg.rbCap t.rb = ops.filterMap id) ∧
  (∀ (s : State) (ms : List Move), RingInv s.cfg.rbCap s.rb → Memory.wf s.rd.out = true →
    noOverwrite ms s → .instr .rbclr ∉ ms →
    ∃ (ins outs : List Word) (t : State), flow ms s = some (ins, outs, t) ∧
      RingInv s.cfg.rbCap t.rb ∧
      outs ++ ringContent s.cfg.rbCap t.rb = ringContent s.cfg.rbCap s.rb ++ ins ∧
      (s.rb.size = 0 → outs <+: ins) ∧
      (.instr .rbpop ∉ ms → (∀ c, .instr (.read c) ∉ ms) →
        Memory.readList t.rd.out 0 t.rd.n = Memory.readList s.rd.out 0 s.rd.n ++ outs))

/-- The overwrite law: N + 1 inserts into an empty ring leave RB_SIZE = N and RB_HEAD = RB_TAIL one past where
they were, and the next pop returns the second element (rule R208). -/
def Obligations.OverwriteLaw : Prop :=
  ∀ (s : State) (es : List Word), RingInv s.cfg.rbCap s.rb → 4 ≤ s.cfg.rbCap → s.rb.size = 0 →
    es.length = s.cfg.rbCap + 1 →
    ∃ t u : State, execAll (es.map .rbins) s = .next t ∧ t.rb.size = s.cfg.rbCap ∧
      t.rb.head = (s.rb.head + 1) % s.cfg.rbCap ∧ t.rb.tail = t.rb.head ∧
      (s.rb.head = 0 → t.rb.head = 1) ∧
      exec .rbpop t = .next u ∧ u.out.dataOut = s.out.dataOut ++ [.rbpop es[1]?]

/-- The status outputs: EMPTY, FULL and NEAR_FULL from RB_SIZE. EMPTY is when RBPOP answers no element. FULL is when
RBINS keeps RB_SIZE, and, in a ring that meets its invariant with N ≥ 4, when it moves RB_TAIL and overwrites the
oldest element, on which the write lands. NEAR_FULL is when the producer's check drops the batch (rule R27). -/
def Obligations.StatusOutputs : Prop :=
  ∀ s : State,
    (statusEmpty s = true ↔ s.rb.size = 0) ∧ (statusFull s = true ↔ s.rb.size = s.cfg.rbCap) ∧
    (statusNearFull s = true ↔ (s.rb.size : Int) > (s.cfg.rbCap : Int) - 4) ∧
    (statusEmpty s = true ↔ exec .rbpop s = .next (deliver (.rbpop none) s)) ∧
    (∀ e : Word, ∃ t : State, exec (.rbins e) s = .next t ∧
      (statusFull s = true ↔ t.rb.size = s.rb.size) ∧
      (RingInv s.cfg.rbCap s.rb → 4 ≤ s.cfg.rbCap →
        (statusFull s = true ↔ t.rb.tail ≠ s.rb.tail) ∧
        (statusFull s = true → s.rb.head = s.rb.tail ∧ Memory.read t.rb.mem s.rb.tail = e ∧
          ringContent s.cfg.rbCap t.rb = (ringContent s.cfg.rbCap s.rb).tail ++ [e]) ∧
        (statusFull s = false →
          ringContent s.cfg.rbCap t.rb = ringContent s.cfg.rbCap s.rb ++ [e]))) ∧
    (s.pb.state = .check →
      (statusNearFull s = true ↔ (advanceTurn .pushb s).pb.state = .done))

/-! ## FLOW: the producer -/

/-- The sample conversion: for each of the 65536 samples the pattern is the binary32 number s / 32768 exactly; no
infinity, NaN or subnormal results, +1.0 never; 0 gives +0.0; the values of rule R221 (rule R221). -/
def Obligations.F32Exact : Prop :=
  (∀ v : Sample, binary32Value (f32 v) = (v.toInt : Rat) / 32768 ∧
    ((f32 v).extractLsb' 23 8) ≠ 0xFF ∧ (((f32 v).extractLsb' 23 8) = 0 → f32 v = 0) ∧
    f32 v ≠ 0x3F800000) ∧
  f32 0 = 0 ∧ f32 (BitVec.ofInt 16 (-32768)) = 0xBF800000 ∧ f32 32767 = 0x3F7FFE00 ∧
  f32 1 = 0x38000000 ∧ f32 (BitVec.ofInt 16 (-1)) = 0xB8000000 ∧ f32 16384 = 0x3F000000 ∧
  f32 (BitVec.ofInt 16 (-16384)) = 0xBF000000

/-- PUSHB micro-step 1: from PB_IDLE the batch is taken and the sequencer goes to PB_DONE if it is empty, else to
PB_CHECK; nothing else changes. From any other state the command is refused (rule R222). -/
def Obligations.PushbStarts : Prop :=
  ∀ (s : State) (vs : List Sample),
    (s.pb.state = .idle → exec (.pushb vs) s = .next { s with pb :=
      { state := if vs = [] then .done else .check, k := vs.length, j := 0, ins := 0,
        samples := vs } }) ∧
    (s.pb.state ≠ .idle → exec (.pushb vs) s = .next { s with out := { s.out with
      err := s.out.err ++ [.illegalCommand (Instr.pushb vs).word] } })

/-- PUSHB micro-steps 2 to 4: the check, the insert (one RBINS), the end with its signal and result; each changes
nothing else, and PB_INS = PB_J holds throughout (rules R223, R225, R226). -/
def Obligations.PushbMicroSteps : Prop :=
  ∀ s : State,
    (s.pb.state = .check → (s.rb.size : Int) > (s.cfg.rbCap : Int) - 4 →
      advanceTurn .pushb s = { s with
        pb := { s.pb with state := .done }
        out := { s.out with err := s.out.err ++ [.bufferOverflow (s.pb.k - s.pb.j)] } }) ∧
    (s.pb.state = .check → (s.rb.size : Int) ≤ (s.cfg.rbCap : Int) - 4 →
      advanceTurn .pushb s = { s with pb := { s.pb with state := .insert } }) ∧
    (s.pb.state = .insert → ∃ t : State,
      exec (.rbins (f32 (s.pb.samples.getD s.pb.j 0))) s = .next t ∧
      advanceTurn .pushb s = { t with pb := { s.pb with
        j := s.pb.j + 1, ins := s.pb.ins + 1
        state := if s.pb.j + 1 = s.pb.k then .done else .check } }) ∧
    (s.pb.state = .done →
      advanceTurn .pushb s = { s with
        da := s.da || decide (1 ≤ s.pb.ins)
        pb := { s.pb with state := .idle }
        out := { s.out with
          dataOut := s.out.dataOut ++ [.pushb s.pb.ins (s.pb.k - s.pb.ins)] } }) ∧
    (s.pb.state = .idle → advanceTurn .pushb s = s) ∧
    (s.pb.ins = s.pb.j → (advanceTurn .pushb s).pb.ins = (advanceTurn .pushb s).pb.j)

/-- A whole PUSHB with no other step between: it inserts as many samples as leave N - 3 elements in the ring, in
order, converted; it drops the rest with one BUFFER_OVERFLOW record; it signals once if at least one went in; it
returns the two counts; nothing else changes (rules R220, R224, R262). -/
def Obligations.PushbWholeBatch : Prop :=
  ∀ (s : State) (vs : List Sample) (n : Nat), RingInv s.cfg.rbCap s.rb → 4 ≤ s.cfg.rbCap →
    s.pb.state = .idle → n = min vs.length (s.cfg.rbCap - 3 - s.rb.size) →
    ∃ t u : State, exec (.pushb vs) s = .next t ∧
      u = advanceN .pushb (2 * n + if n < vs.length then 2 else 1) t ∧
      u.pb.state = .idle ∧ RingInv s.cfg.rbCap u.rb ∧
      ringContent s.cfg.rbCap u.rb = ringContent s.cfg.rbCap s.rb ++ (vs.take n).map f32 ∧
      u = { s with
        rb := u.rb
        pb := u.pb
        da := s.da || decide (1 ≤ n)
        out := { s.out with
          err := s.out.err ++
            if n < vs.length then [.bufferOverflow (vs.length - n)] else []
          dataOut := s.out.dataOut ++ [.pushb n (vs.length - n)] } }

/-- The overflow-drop law: a batch of at least one sample that finds RB_SIZE > N - 4 at its first check inserts
nothing, does not signal, raises one BUFFER_OVERFLOW of its whole length and returns (0, K) (rule R227). -/
def Obligations.PushbOverflowDrop : Prop :=
  ∀ (s : State) (vs : List Sample), s.pb.state = .idle → vs ≠ [] →
    (s.rb.size : Int) > (s.cfg.rbCap : Int) - 4 →
    ∃ t : State, exec (.pushb vs) s = .next t ∧
      advanceN .pushb 2 t = { s with
        pb := { state := .idle, k := vs.length, j := 0, ins := 0, samples := vs }
        out := { s.out with
          err := s.out.err ++ [.bufferOverflow vs.length]
          dataOut := s.out.dataOut ++ [.pushb 0 vs.length] } }

/-- With no RBINS issued directly, RB_SIZE never rises above N - 3 and a PUSHB's insert never finds the ring full:
every other instruction, every micro-step and reset keep the margin (rules R224, R318). -/
def Obligations.ProducerNeverOverwrites : Prop :=
  (∀ (i : Instr) (s t : State), (∀ e, i ≠ .rbins e) → MarginInv s → exec i s = .next t →
    MarginInv t) ∧
  (∀ (q : Sequencer) (s : State), MarginInv s → MarginInv (advanceTurn q s)) ∧
  (∀ s : State, MarginInv s → MarginInv (applyReset s)) ∧
  (∀ s : State, MarginInv s → s.rb.size ≤ s.cfg.rbCap - 3 ∧ s.rb.size ≠ s.cfg.rbCap)

/-! ## FLOW: the consumer -/

/-- READ micro-step 1: from RD_IDLE, for at least one element, RD_M, RD_N and RD_STATE are set and nothing else
changes. For zero elements or from any other state the command is refused (rule R229). -/
def Obligations.ReadStarts : Prop :=
  ∀ (s : State) (m : BitVec 16),
    (s.rd.state = .idle → 1 ≤ m.toNat → exec (.read m) s = .next { s with
      rd := { state := .fill, m := m.toNat, n := 0, out := s.rd.out } }) ∧
    (s.rd.state ≠ .idle ∨ m.toNat = 0 → exec (.read m) s = .next { s with out := { s.out with
      err := s.out.err ++ [.illegalCommand (Instr.read m).word] } })

/-- READ micro-steps 2 to 5: the fill (one RBPOP), the check, the wait, the wake; each changes nothing else (rules
R230, R231, R232, R234). -/
def Obligations.ReadMicroSteps : Prop :=
  ∀ s : State,
    (s.rd.state = .fill → s.rd.n = s.rd.m ∨ s.rb.size = 0 →
      advanceTurn .read s = { s with rd := { s.rd with state := .check } }) ∧
    (s.rd.state = .fill → s.rd.n ≠ s.rd.m → s.rb.size ≠ 0 →
      advanceTurn .read s = { s with
        rb := { s.rb with tail := (s.rb.tail + 1) % s.cfg.rbCap, size := s.rb.size - 1 }
        rd := { s.rd with
          out := Memory.write s.rd.out s.rd.n (Memory.read s.rb.mem s.rb.tail)
          n := s.rd.n + 1 } }) ∧
    (s.rd.state = .check → 0 < s.rd.n →
      advanceTurn .read s = { s with
        rd := { s.rd with state := .idle }
        out := { s.out with dataOut := s.out.dataOut ++ [.read s.rd.n false
          ((Memory.readList s.rd.out 0 s.rd.n).flatMap leBytes)] } }) ∧
    (s.rd.state = .check ∧ s.rd.n = 0 ∨ s.rd.state = .woken → s.closed = true →
      advanceTurn .read s = { s with
        rd := { s.rd with state := .idle }
        out := { s.out with dataOut := s.out.dataOut ++ [.read 0 true []] } }) ∧
    (s.rd.state = .check → s.rd.n = 0 → s.closed = false →
      advanceTurn .read s = { s with rd := { s.rd with state := .wait } }) ∧
    (s.rd.state = .wait → s.da = true ∨ s.closed = true →
      advanceTurn .read s = { s with da := false, rd := { s.rd with state := .woken } }) ∧
    (s.rd.state = .wait → s.da = false → s.closed = false → advanceTurn .read s = s) ∧
    (s.rd.state = .woken → s.closed = false →
      advanceTurn .read s = { s with rd := { s.rd with state := .fill } }) ∧
    (s.rd.state = .idle → advanceTurn .read s = s)

/-- A whole READ on a ring that is not empty, with no other step between: it completes without waiting, even when
CLOSED = 1, with the oldest min(M, RB_SIZE) elements in FIFO order as little-endian bytes and closed = 0; the rest
of RD_OUT is not written, DA is not touched, nothing else changes (rules R228, R235 (d), R237). -/
def Obligations.ReadNonBlocking : Prop :=
  ∀ (s : State) (m : BitVec 16) (n : Nat), RingInv s.cfg.rbCap s.rb →
    Memory.wf s.rd.out = true → s.rd.state = .idle → 1 ≤ m.toNat → 1 ≤ s.rb.size →
    n = min m.toNat s.rb.size →
    ∃ t u : State, exec (.read m) s = .next t ∧ u = advanceN .read (n + 2) t ∧ 1 ≤ n ∧
      (∀ j, j ≤ n + 2 → (advanceN .read j t).rd.state ≠ .wait) ∧
      u.rd.state = .idle ∧ u.rb.mem = s.rb.mem ∧ RingInv s.cfg.rbCap u.rb ∧
      ringContent s.cfg.rbCap u.rb = (ringContent s.cfg.rbCap s.rb).drop n ∧
      (∀ a, n ≤ a → Memory.read u.rd.out a = Memory.read s.rd.out a) ∧
      u = { s with
        rb := u.rb
        rd := u.rd
        out := { s.out with dataOut := s.out.dataOut ++ [.read n false
          (((ringContent s.cfg.rbCap s.rb).take n).flatMap leBytes)] } }

/-- What READ guarantees of every completion: closed = 0 gives 1 ≤ n ≤ M, n = 0 comes only with closed = 1 and only
when CLOSED = 1, the bytes are 4n; and once an element has been read the READ never waits (rule R235 (a) to
(c)). -/
def Obligations.ReadAtLeastOne : Prop :=
  ∀ s : State, ReadInv s.rd →
    ((advanceTurn .read s).out.dataOut = s.out.dataOut ∨
      ∃ (n : Nat) (cl : Bool) (bytes : List Byte),
        (advanceTurn .read s).out.dataOut = s.out.dataOut ++ [.read n cl bytes] ∧
        (advanceTurn .read s).rd.state = .idle ∧ bytes.length = 4 * n ∧
        (cl = false → 1 ≤ n ∧ n ≤ s.rd.m) ∧ (cl = true → n = 0 ∧ s.closed = true)) ∧
    (1 ≤ s.rd.n → (advanceTurn .read s).rd.state ≠ .wait)

/-- The wait is a hold, not a fault: while RD_STATE = RD_WAIT, DA = 0 and CLOSED = 0 neither the READ's own step nor
a command of CONS changes anything; a DASET, PUSHB's last micro-step among them, or a CLOSE lifts it (rule
R233). -/
def Obligations.ReadHold : Prop :=
  ∀ s : State, s.rd.state = .wait → s.da = false → s.closed = false →
    (∀ ts, s.env.turns = .advance .read :: ts → step s = .next (withTurns ts s)) ∧
    (∀ ts, s.env.turns = .issue .cons :: ts → step s = .next (withTurns ts s)) ∧
    (∃ t : State, exec .daset s = .next t ∧ (advanceTurn .read t).rd.state = .woken) ∧
    (∃ t : State, exec .closeStream s = .next t ∧ (advanceTurn .read t).rd.state = .woken) ∧
    (s.pb.state = .done → 1 ≤ s.pb.ins →
      (advanceTurn .read (advanceTurn .pushb s)).rd.state = .woken)

/-- A stale notification: a READ that waits on an empty ring with DA = 1 takes the notification, retries, finds
nothing and is held, in four micro-steps that leave everything but DA as it was (rule R236). -/
def Obligations.StaleNotification : Prop :=
  ∀ s : State, s.rd.state = .wait → s.rd.n = 0 → 1 ≤ s.rd.m → s.rb.size = 0 → s.da = true →
    s.closed = false →
    advanceN .read 4 s = { s with da := false } ∧
    ∀ n, advanceN .read (4 + n) s = { s with da := false }

/-! ## FLOW: the signal and the closed flag -/

/-- DASET: command word 0x32000000; DA becomes 1 and nothing else changes; a second one changes nothing (rule
R240). -/
def Obligations.DasetResult : Prop :=
  Instr.daset.word = 0x32000000 ∧
  ∀ s : State, exec .daset s = .next { s with da := true } ∧
    (s.da = true → exec .daset s = .next s)

/-- DAWAIT: enabled exactly when DA = 1 or CLOSED = 1; taken, it leaves DA = 0 and changes nothing else (rule R241).
Not enabled, it changes nothing and its agent is held: that `exec` then answers the same state, and that the command
stays the next one of the agent's stream, is how the model holds it (log 6, on the streams and turns of log 4 and
5). -/
def Obligations.DawaitResult : Prop :=
  Instr.dawait.word = 0x33000000 ∧
  ∀ s : State,
    (instrEnabled .dawait s = true ↔ s.da = true ∨ s.closed = true) ∧
    (s.da = true ∨ s.closed = true → exec .dawait s = .next { s with da := false }) ∧
    (s.da = false → exec .dawait s = .next s) ∧
    (∀ (a : Agent) (cs : List Command) (ts : List Turn), s.da = false → s.closed = false →
      s.env.turns = .issue a :: ts → s.env.stream a = ⟨0x33000000, []⟩ :: cs →
        step s = .next (withTurns ts s))

/-- The signal's law: n ≥ 1 DASET with no wait between enable exactly one wait when CLOSED = 0; and without a DASET,
PUSHB's last micro-step among them, DA stays 0, whatever else is carried out; and a notification is never lost:
DA stays 1 until a DAWAIT or a READ's wait step takes it (rule R242). -/
def Obligations.SignalLaw : Prop :=
  (∀ (s : State) (n : Nat), 1 ≤ n → s.closed = false →
    ∃ t u : State, execAll (List.replicate n .daset) s = .next t ∧
      instrEnabled .dawait t = true ∧ exec .dawait t = .next u ∧
      instrEnabled .dawait u = false) ∧
  (∀ (is : List Instr) (s t : State), s.da = false → .daset ∉ is → execAll is s = .next t →
    t.da = false) ∧
  (∀ s : State, s.da = false → (advanceTurn .read s).da = false) ∧
  (∀ s : State, s.da = false → (advanceTurn .pushb s).da = true →
    s.pb.state = .done ∧ 1 ≤ s.pb.ins) ∧
  (∀ (i : Instr) (s t : State), s.da = true → i ≠ .dawait → exec i s = .next t → t.da = true) ∧
  (∀ s : State, s.da = true → (advanceTurn .pushb s).da = true) ∧
  (∀ s : State, s.da = true → (advanceTurn .read s).da = false → s.rd.state = .wait)

/-- CLOSE: command word 0x34000000; CLOSED becomes 1 and nothing else changes; a READ held in its wait then
completes with (0, closed = 1, empty) in two micro-steps, one at its check with nothing read in one (rule R244). -/
def Obligations.CloseReleasesReader : Prop :=
  Instr.closeStream.word = 0x34000000 ∧
  ∀ s : State, ∃ t : State, exec .closeStream s = .next t ∧ t = { s with closed := true } ∧
    (s.closed = true → t = s) ∧
    (s.rd.state = .wait → advanceN .read 2 t = { t with
      da := false
      rd := { t.rd with state := .idle }
      out := { t.out with dataOut := t.out.dataOut ++ [.read 0 true []] } }) ∧
    (s.rd.state = .check → s.rd.n = 0 → advanceN .read 1 t = { t with
      rd := { t.rd with state := .idle }
      out := { t.out with dataOut := t.out.dataOut ++ [.read 0 true []] } })

/-- OPEN: command word 0x35000000; CLOSED becomes 0 and nothing else changes, the ring and DA among it; a second one
changes nothing (rule R245). -/
def Obligations.OpenResult : Prop :=
  Instr.openStream.word = 0x35000000 ∧
  ∀ s : State, exec .openStream s = .next { s with closed := false } ∧
    (s.closed = false → exec .openStream s = .next s)

/-! ## The whole machine -/

/-- The invariant holds after reset under every legal configuration, and in the machine's own reset state (rules
R25, R34, R50). -/
def Obligations.InvAtReset : Prop :=
  (∀ p : Params, p.ok = true → BlockInv (State.resetWith p)) ∧ BlockInv State.reset

/-- Every step keeps the invariant of the block, from every state that meets it, whatever commands and turns are to
come: the ring invariant, the legal values of the sequencers, the waterfall invariants, the canonical form of every
memory (rules R25, R30, R31, R34, R50). -/
def Obligations.StepKeepsInv : Prop :=
  ∀ s t : State, BlockInv s → step s = .next t → BlockInv t

/-- Each operation and micro-step raises at most one error record. One that raises ILLEGAL_COMMAND has changed nothing
else at all; an RXDGRAM or WFFRAG that raises MALFORMED_PACKET has delivered its failure result besides, and neither has
changed a register or emitted an event. BUFFER_OVERFLOW is raised by PUSHB's check micro-step alone, which then changes
PB_STATE and nothing else: what the PUSHB has changed is what its completed micro-steps changed. READ's micro-steps raise
nothing (rules R266, R267). MALFORMED_PACKET is code 1 with its subcode, BUFFER_OVERFLOW code 3 with the count of dropped
samples, ILLEGAL_COMMAND code 6 with the command word; the other records carry no such value (rule R108; log 12). -/
def Obligations.ErrorsArePrecise : Prop :=
  (∀ (i : Instr) (s t : State), exec i s = .next t →
    t.out.err = s.out.err ∨
    t = { s with out := { s.out with err := s.out.err ++ [.illegalCommand i.word] } } ∨
    ∃ (sub : MalformedSub) (r : Result),
      t = { s with out := { s.out with
        err := s.out.err ++ [.malformedPacket sub], dataOut := s.out.dataOut ++ [r] } } ∧
      (((∃ c f, i = .wffrag c f) ∧ r = .wffrag false) ∨
        ((∃ b, i = .rxdgram b) ∧
          (r = .rxdgram .droppedMalformed ∨ ∃ j, r = .rxdgram (.toWaterfall j))))) ∧
  (∀ s t : State, t = advanceTurn .pushb s →
    t.out.err = s.out.err ∨
    (s.pb.state = .check ∧ t = { s with
      pb := { s.pb with state := .done }
      out := { s.out with err := s.out.err ++ [.bufferOverflow (s.pb.k - s.pb.j)] } })) ∧
  (∀ s : State, (advanceTurn .read s).out.err = s.out.err) ∧
  (∀ sub : MalformedSub, (ErrRecord.malformedPacket sub).code = 1 ∧
    (ErrRecord.malformedPacket sub).info = some sub.code) ∧
  (∀ n : Nat, (ErrRecord.bufferOverflow n).code = 3 ∧ (ErrRecord.bufferOverflow n).info = some n) ∧
  (∀ w : Word, (ErrRecord.illegalCommand w).code = 6 ∧
    (ErrRecord.illegalCommand w).info = some w.toNat) ∧
  (∀ e : ExternalError, e.record.info = none)

/-- Who writes what: each register changes only by the operations and micro-steps that the table of rule R50 names for
it. RB_HEAD and RB_MEM by RBINS, at the element RB_HEAD names, and RBCLR; RB_TAIL by RBINS when the ring is full, RBPOP
and RBCLR; RB_SIZE by RBINS, RBPOP and RBCLR; DA, CLOSED, TX_SEQ, each slot of the stream table and each waterfall
context by their own operations; PB_K and PB_SAMPLES by the start of a PUSHB only, RD_M by that of a READ only. A PUSHB's
micro-steps write the ring by their RBINS alone; a READ's keep RB_HEAD and RB_MEM and write RD_OUT at the element RD_N
names alone (rules R24, R28 to R33, R36, R50). -/
def Obligations.WrittenBy : Prop :=
  (∀ (i : Instr) (s t : State), exec i s = .next t →
    t.cfg = s.cfg ∧ t.env = s.env ∧
    (t.rb.head ≠ s.rb.head → (∃ e, i = .rbins e) ∨ i = .rbclr) ∧
    (t.rb.tail ≠ s.rb.tail →
      ((∃ e, i = .rbins e) ∧ s.rb.size = s.cfg.rbCap) ∨ i = .rbpop ∨ i = .rbclr) ∧
    (t.rb.size ≠ s.rb.size → (∃ e, i = .rbins e) ∨ i = .rbpop ∨ i = .rbclr) ∧
    (t.rb.mem ≠ s.rb.mem →
      (∃ e, i = .rbins e ∧ t.rb.mem = Memory.write s.rb.mem s.rb.head e) ∨ i = .rbclr) ∧
    (∀ a, Memory.read t.rb.mem a ≠ Memory.read s.rb.mem a →
      ((∃ e, i = .rbins e) ∧ a = s.rb.head) ∨ (i = .rbclr ∧ a < s.cfg.rbCap)) ∧
    (t.da ≠ s.da → i = .daset ∨ i = .dawait) ∧
    (t.closed ≠ s.closed → i = .closeStream ∨ i = .openStream) ∧
    (t.rd ≠ s.rd → ∃ m, i = .read m) ∧ t.rd.out = s.rd.out ∧
    (t.pb ≠ s.pb → ∃ vs, i = .pushb vs) ∧
    (t.sid.rxa ≠ s.sid.rxa → ∃ v, i = .sidset .rxa v) ∧
    (t.sid.tx ≠ s.sid.tx → ∃ v, i = .sidset .tx v) ∧
    (∀ j : Nat, t.sid.wf[j]? ≠ s.sid.wf[j]? → ∃ k v, i = .sidset (.wf k) v ∧ k.val = j) ∧
    (∀ j : Nat, t.wf[j]? ≠ s.wf[j]? →
      (∃ c f, i = .wffrag c f ∧ c.toNat = j) ∨ (∃ k v, i = .sidset (.wf k) v ∧ k.val = j) ∨
      ∃ b f, i = .rxdgram b ∧ reassembles Config.tileParse b s j f) ∧
    (t.txSeq ≠ s.txSeq → i = .txinit ∨ ∃ p, i = .txpkt p)) ∧
  (∀ s t : State, t = advanceTurn .pushb s →
    t = { s with
      rb := t.rb
      da := t.da
      pb := { t.pb with k := s.pb.k, samples := s.pb.samples }
      out := { s.out with err := t.out.err, dataOut := t.out.dataOut } } ∧
    (t.rb ≠ s.rb → s.pb.state = .insert ∧
      t.rb = ringInsert s.cfg.rbCap (f32 (s.pb.samples.getD s.pb.j 0)) s.rb) ∧
    (t.rb.tail ≠ s.rb.tail → s.rb.size = s.cfg.rbCap) ∧
    (∀ a, a ≠ s.rb.head → Memory.read t.rb.mem a = Memory.read s.rb.mem a) ∧
    (t.da ≠ s.da → s.pb.state = .done) ∧
    (t.pb.j ≠ s.pb.j ∨ t.pb.ins ≠ s.pb.ins → s.pb.state = .insert) ∧
    (t.out.err ≠ s.out.err → s.pb.state = .check) ∧
    (t.out.dataOut ≠ s.out.dataOut → s.pb.state = .done)) ∧
  (∀ s t : State, t = advanceTurn .read s →
    t = { s with
      rb := { s.rb with tail := t.rb.tail, size := t.rb.size }
      da := t.da
      rd := { t.rd with m := s.rd.m }
      out := { s.out with dataOut := t.out.dataOut } } ∧
    (t.rb ≠ s.rb → s.rd.state = .fill) ∧
    (t.da ≠ s.da → s.rd.state = .wait) ∧
    (t.rd.n ≠ s.rd.n → s.rd.state = .fill) ∧
    (t.rd.out ≠ s.rd.out → s.rd.state = .fill ∧
      t.rd.out = Memory.write s.rd.out s.rd.n (Memory.read s.rb.mem s.rb.tail)) ∧
    (∀ a, a ≠ s.rd.n → Memory.read t.rd.out a = Memory.read s.rd.out a) ∧
    (t.out.dataOut ≠ s.out.dataOut → s.rd.state = .check ∨ s.rd.state = .woken))

/-- The configuration is fixed for a run and the traces are outputs: a step writes no parameter and only appends
to the traces (rule R21). -/
def Obligations.StepKeepsConfigAndHistory : Prop :=
  ∀ s t : State, step s = .next t → t.cfg = s.cfg ∧
    s.out.evt <+: t.out.evt ∧ s.out.err <+: t.out.err ∧ s.out.txOut <+: t.out.txOut ∧
      s.out.rxaOut <+: t.out.rxaOut ∧ s.out.dataOut <+: t.out.dataOut

/-- The traces are never read back: what a step appends to each trace, and everything else it does, is the same whatever
the traces held; and so is whether it stops (rules R21, R267, R284). -/
def Obligations.TracesNeverRead : Prop :=
  ∀ (s : State) (o : Traces),
    (∀ t : State, step s = .next t →
      ∃ (ev : List Event) (er : List ErrRecord) (tx rx : List (List Byte)) (da : List Result),
        t.out = { evt := s.out.evt ++ ev, err := s.out.err ++ er, txOut := s.out.txOut ++ tx,
                  rxaOut := s.out.rxaOut ++ rx, dataOut := s.out.dataOut ++ da } ∧
        step { s with out := o } = .next { t with
          out := { evt := o.evt ++ ev, err := o.err ++ er, txOut := o.txOut ++ tx,
                   rxaOut := o.rxaOut ++ rx, dataOut := o.dataOut ++ da } }) ∧
    (∀ r : Fault, step s = .fault r → step { s with out := o } = .fault r)
end

