-- ==== Sys2Proof/Laws/Memory.lean ====
section
/-! SUPPORT. The laws of an element-addressed memory: what a read gives after each write, and that every
operation keeps the canonical form and stays within the space. -/

namespace Sys2Proof.Machine

open Sys2Proof

variable {w : Nat}

/-! ## The canonical form -/

theorem Memory.wfFrom_cons (lo a : Nat) (v : BitVec w) (rest : Memory w) :
    Memory.wfFrom lo ((a, v) :: rest) = true ↔
      lo ≤ a ∧ v ≠ 0 ∧ Memory.wfFrom (a + 1) rest = true := by
  simp [Memory.wfFrom, and_assoc]

theorem Memory.wfFrom_anti {lo lo' : Nat} (h : lo' ≤ lo) :
    ∀ {m : Memory w}, Memory.wfFrom lo m = true → Memory.wfFrom lo' m = true
  | [], _ => rfl
  | (a, v) :: rest, hm => by
    rw [Memory.wfFrom_cons] at hm ⊢
    exact ⟨by omega, hm.2⟩

theorem Memory.cell_wfFrom {lo a : Nat} {v : BitVec w} {rest : Memory w} (h : lo ≤ a)
    (hr : Memory.wfFrom (a + 1) rest = true) :
    Memory.wfFrom lo (Memory.cell a v rest) = true := by
  unfold Memory.cell
  split
  · exact Memory.wfFrom_anti (by omega) hr
  · rename_i hv
    exact (Memory.wfFrom_cons ..).2 ⟨h, hv, hr⟩

theorem Memory.write_wfFrom {lo : Nat} :
    ∀ {m : Memory w} {a : Nat} {v : BitVec w}, lo ≤ a → Memory.wfFrom lo m = true →
      Memory.wfFrom lo (Memory.write m a v) = true
  | [], _, _, h, _ => Memory.cell_wfFrom h rfl
  | (k, x) :: rest, a, v, h, hm => by
    obtain ⟨hk, hx, hr⟩ := (Memory.wfFrom_cons ..).1 hm
    unfold Memory.write
    split
    · exact Memory.cell_wfFrom h ((Memory.wfFrom_cons ..).2 ⟨by omega, hx, hr⟩)
    · split
      · subst a
        exact Memory.cell_wfFrom h hr
      · exact (Memory.wfFrom_cons ..).2 ⟨hk, hx, Memory.write_wfFrom (by omega) hr⟩

/-- A write keeps the canonical form. -/
theorem Memory.write_wf {m : Memory w} (h : Memory.wf m = true) (a : Nat) (v : BitVec w) :
    Memory.wf (Memory.write m a v) = true :=
  Memory.write_wfFrom (Nat.zero_le a) h

/-- A write of several elements keeps the canonical form. -/
theorem Memory.writeList_wf :
    ∀ {vs : List (BitVec w)} {m : Memory w} {a : Nat}, Memory.wf m = true →
      Memory.wf (Memory.writeList m a vs) = true
  | [], _, _, h => h
  | v :: _, _, a, h => by
    rw [Memory.writeList]
    exact Memory.writeList_wf (Memory.write_wf h a v)

theorem Memory.filter_wfFrom (p : Nat × BitVec w → Bool) :
    ∀ {m : Memory w} {lo : Nat}, Memory.wfFrom lo m = true →
      Memory.wfFrom lo (m.filter p) = true
  | [], _, _ => rfl
  | (k, x) :: rest, lo, hm => by
    obtain ⟨hk, hx, hr⟩ := (Memory.wfFrom_cons ..).1 hm
    have ih := Memory.filter_wfFrom p hr
    rw [List.filter_cons]
    split
    · exact (Memory.wfFrom_cons ..).2 ⟨hk, hx, ih⟩
    · exact Memory.wfFrom_anti (by omega) ih

/-- Zeroing the elements below an address keeps the canonical form. -/
theorem Memory.zeroBelow_wf {m : Memory w} (h : Memory.wf m = true) (n : Nat) :
    Memory.wf (Memory.zeroBelow m n) = true :=
  Memory.filter_wfFrom _ h

/-! ## The space -/

theorem Memory.below_cons (n : Nat) (c : Nat × BitVec w) (m : Memory w) :
    Memory.below n (c :: m) = true ↔ c.1 < n ∧ Memory.below n m = true := by
  simp [Memory.below]

theorem Memory.cell_below {n a : Nat} {v : BitVec w} {rest : Memory w} (h : a < n)
    (hr : Memory.below n rest = true) : Memory.below n (Memory.cell a v rest) = true := by
  unfold Memory.cell
  split
  · exact hr
  · exact (Memory.below_cons ..).2 ⟨h, hr⟩

/-- A write within the space stays within it. -/
theorem Memory.write_below {n : Nat} :
    ∀ {m : Memory w} {a : Nat} {v : BitVec w}, a < n → Memory.below n m = true →
      Memory.below n (Memory.write m a v) = true
  | [], _, _, h, hm => Memory.cell_below h hm
  | (k, x) :: rest, a, v, h, hm => by
    obtain ⟨hk, hr⟩ := (Memory.below_cons ..).1 hm
    unfold Memory.write
    split
    · exact Memory.cell_below h hm
    · split
      · exact Memory.cell_below h hr
      · exact (Memory.below_cons ..).2 ⟨hk, Memory.write_below h hr⟩

/-- A write of several elements within the space stays within it. -/
theorem Memory.writeList_below {n : Nat} :
    ∀ {vs : List (BitVec w)} {m : Memory w} {a : Nat}, a + vs.length ≤ n →
      Memory.below n m = true → Memory.below n (Memory.writeList m a vs) = true
  | [], _, _, _, hm => hm
  | v :: vs, _, a, h, hm => by
    rw [List.length_cons] at h
    rw [Memory.writeList]
    exact Memory.writeList_below (by omega) (Memory.write_below (by omega) hm)

/-- Zeroing stays within the space. -/
theorem Memory.zeroBelow_below {n k : Nat} {m : Memory w} (h : Memory.below n m = true) :
    Memory.below n (Memory.zeroBelow m k) = true := by
  simp only [Memory.below, Memory.zeroBelow, List.all_eq_true] at h ⊢
  intro c hc
  exact h c (List.mem_filter.1 hc).1

/-! ## What a read gives -/

@[simp] theorem Memory.read_nil (a : Nat) : Memory.read ([] : Memory w) a = 0 := rfl

theorem Memory.read_lt {lo : Nat} :
    ∀ {m : Memory w} {a : Nat}, Memory.wfFrom lo m = true → a < lo → Memory.read m a = 0
  | [], _, _, _ => rfl
  | (k, x) :: rest, a, hm, h => by
    obtain ⟨hk, -, hr⟩ := (Memory.wfFrom_cons ..).1 hm
    unfold Memory.read
    rw [if_neg (by omega)]
    exact Memory.read_lt hr (by omega)

theorem Memory.read_cell_same {a : Nat} {v : BitVec w} {rest : Memory w}
    (hr : Memory.wfFrom (a + 1) rest = true) : Memory.read (Memory.cell a v rest) a = v := by
  unfold Memory.cell
  split
  · rename_i hv
    rw [Memory.read_lt hr (by omega)]
    exact hv.symm
  · simp [Memory.read]

theorem Memory.read_cell_other {a b : Nat} {v : BitVec w} {rest : Memory w} (h : a ≠ b) :
    Memory.read (Memory.cell a v rest) b = Memory.read rest b := by
  unfold Memory.cell
  split
  · rfl
  · simp [Memory.read, h]

theorem Memory.read_write_same_from {lo : Nat} :
    ∀ {m : Memory w} {a : Nat} {v : BitVec w}, Memory.wfFrom lo m = true →
      Memory.read (Memory.write m a v) a = v
  | [], _, _, _ => Memory.read_cell_same rfl
  | (k, x) :: rest, a, v, hm => by
    obtain ⟨-, hx, hr⟩ := (Memory.wfFrom_cons ..).1 hm
    unfold Memory.write
    split
    · exact Memory.read_cell_same ((Memory.wfFrom_cons ..).2 ⟨by omega, hx, hr⟩)
    · split
      · subst a
        exact Memory.read_cell_same hr
      · unfold Memory.read
        rw [if_neg (by omega)]
        exact Memory.read_write_same_from hr

/-- A read after a write to the same element gives the value written. -/
theorem Memory.read_write_same {m : Memory w} (h : Memory.wf m = true) (a : Nat) (v : BitVec w) :
    Memory.read (Memory.write m a v) a = v :=
  Memory.read_write_same_from h

/-- A write leaves every other element alone. -/
theorem Memory.read_write_other :
    ∀ {m : Memory w} {a b : Nat} {v : BitVec w}, a ≠ b →
      Memory.read (Memory.write m a v) b = Memory.read m b
  | [], _, _, _, h => Memory.read_cell_other h
  | (k, x) :: rest, a, b, v, h => by
    unfold Memory.write
    split
    · exact Memory.read_cell_other h
    · split
      · subst a
        rw [Memory.read_cell_other h]
        simp [Memory.read, h]
      · unfold Memory.read
        rw [Memory.read_write_other h]

/-- What a read gives after a write. -/
theorem Memory.read_write {m : Memory w} (h : Memory.wf m = true) (a b : Nat) (v : BitVec w) :
    Memory.read (Memory.write m a v) b = if a = b then v else Memory.read m b := by
  split
  · subst b
    exact Memory.read_write_same h a v
  · exact Memory.read_write_other ‹_›

/-- What a read gives after a write of several elements. -/
theorem Memory.read_writeList :
    ∀ {vs : List (BitVec w)} {m : Memory w} {a : Nat} (b : Nat), Memory.wf m = true →
      Memory.read (Memory.writeList m a vs) b =
        if a ≤ b ∧ b < a + vs.length then vs.getD (b - a) 0 else Memory.read m b
  | [], _, a, b, _ => by
    rw [Memory.writeList, if_neg (by simp only [List.length_nil]; omega)]
  | v :: vs, m, a, b, h => by
    rw [Memory.writeList, Memory.read_writeList b (Memory.write_wf h a v), Memory.read_write h]
    simp only [List.length_cons]
    by_cases hab : a = b
    · subst b
      rw [if_neg (by omega), if_pos rfl, if_pos (by omega)]
      simp
    · rw [if_neg hab]
      by_cases hin : a + 1 ≤ b ∧ b < a + 1 + vs.length
      · rw [if_pos hin, if_pos (by omega), show b - a = (b - (a + 1)) + 1 by omega]
        simp
      · rw [if_neg hin, if_neg (by omega)]

/-- A write of several elements leaves every element outside them alone. -/
theorem Memory.read_writeList_other :
    ∀ {vs : List (BitVec w)} {m : Memory w} {a b : Nat}, b < a ∨ a + vs.length ≤ b →
      Memory.read (Memory.writeList m a vs) b = Memory.read m b
  | [], _, _, _, _ => rfl
  | v :: vs, m, a, b, h => by
    simp only [List.length_cons] at h
    rw [Memory.writeList, Memory.read_writeList_other (by omega),
      Memory.read_write_other (by omega)]

/-- What a read gives after zeroing: 0 below the address, what it was from there on. -/
theorem Memory.read_zeroBelow (n : Nat) :
    ∀ (m : Memory w) (a : Nat),
      Memory.read (Memory.zeroBelow m n) a = if a < n then 0 else Memory.read m a
  | [], a => by simp [Memory.zeroBelow]
  | (k, x) :: rest, a => by
    have ih := Memory.read_zeroBelow n rest a
    unfold Memory.zeroBelow at ih ⊢
    by_cases hk : n ≤ k
    · rw [List.filter_cons_of_pos (by simpa using hk)]
      unfold Memory.read
      rw [ih]
      by_cases hka : k = a
      · rw [if_pos hka, if_pos hka, if_neg (by omega)]
      · rw [if_neg hka, if_neg hka]
    · rw [List.filter_cons_of_neg (by simpa using hk), ih]
      by_cases ha : a < n
      · rw [if_pos ha, if_pos ha]
      · rw [if_neg ha, if_neg ha, Memory.read, if_neg (by omega)]

@[simp] theorem Memory.readList_zero (m : Memory w) (a : Nat) : Memory.readList m a 0 = [] := rfl

theorem Memory.readList_succ (m : Memory w) (a n : Nat) :
    Memory.readList m a (n + 1) = Memory.read m a :: Memory.readList m (a + 1) n := rfl

@[simp] theorem Memory.readList_length (m : Memory w) :
    ∀ (n a : Nat), (Memory.readList m a n).length = n
  | 0, _ => rfl
  | n + 1, a => by
    rw [Memory.readList_succ, List.length_cons, Memory.readList_length m n (a + 1)]

/-- The elements a read of several gives, one by one. -/
theorem Memory.readList_getElem? (m : Memory w) :
    ∀ (n a k : Nat), k < n → (Memory.readList m a n)[k]? = some (Memory.read m (a + k))
  | 0, _, _, h => absurd h (Nat.not_lt_zero _)
  | n + 1, a, 0, _ => by simp [Memory.readList_succ]
  | n + 1, a, k + 1, h => by
    rw [Memory.readList_succ, List.getElem?_cons_succ,
      Memory.readList_getElem? m n (a + 1) k (by omega), show a + 1 + k = a + (k + 1) by omega]

/-- A read of several elements, in two parts. -/
theorem Memory.readList_append (m : Memory w) :
    ∀ (n k a : Nat), Memory.readList m a (n + k) =
      Memory.readList m a n ++ Memory.readList m (a + n) k
  | 0, k, a => by simp
  | n + 1, k, a => by
    rw [show n + 1 + k = (n + k) + 1 by omega, Memory.readList_succ, Memory.readList_succ,
      Memory.readList_append m n k (a + 1), show a + 1 + n = a + (n + 1) by omega,
      List.cons_append]

/-- Memories that read alike on a range give the same elements there. -/
theorem Memory.readList_congr {m m' : Memory w} :
    ∀ (n a : Nat), (∀ b, a ≤ b → b < a + n → Memory.read m b = Memory.read m' b) →
      Memory.readList m a n = Memory.readList m' a n
  | 0, _, _ => rfl
  | n + 1, a, h => by
    rw [Memory.readList_succ, Memory.readList_succ, h a (by omega) (by omega),
      Memory.readList_congr n (a + 1) fun b hb hb' => h b (by omega) (by omega)]

/-- What was written is read back. -/
theorem Memory.readList_writeList {m : Memory w} (h : Memory.wf m = true)
    (vs : List (BitVec w)) (a : Nat) :
    Memory.readList (Memory.writeList m a vs) a vs.length = vs := by
  apply List.ext_getElem?
  intro k
  by_cases hk : k < vs.length
  · rw [Memory.readList_getElem? _ _ _ _ hk, Memory.read_writeList _ h, if_pos (by omega),
      show a + k - a = k by omega, List.getElem?_eq_getElem hk]
    simp [hk]
  · rw [List.getElem?_eq_none (by simpa using hk), List.getElem?_eq_none (by omega)]

end Sys2Proof.Machine
end

