-- ==== Sys2Proof/Laws/PerInstr.lean ====
section
/-! SUPPORT. One lemma per instruction: its command word carries its row's opcode and its own fields, and
the decoder reads the row from it. -/

namespace Sys2Proof.Laws

open Sys2Proof

theorem opField_commandWord (op idx : BitVec 8) (imm : BitVec 16) :
    opField (commandWord op idx imm) = op := by
  apply BitVec.eq_of_toNat_eq
  simp only [opField, commandWord, BitVec.extractLsb'_toNat, BitVec.toNat_append,
    Nat.shiftRight_eq_div_pow]
  rw [← Nat.shiftLeft_add_eq_or_of_lt imm.isLt, ← Nat.shiftLeft_add_eq_or_of_lt idx.isLt,
    Nat.shiftLeft_eq, Nat.shiftLeft_eq]
  have h1 := imm.isLt
  have h2 := idx.isLt
  have h3 := op.isLt
  omega

theorem idxField_commandWord (op idx : BitVec 8) (imm : BitVec 16) :
    idxField (commandWord op idx imm) = idx := by
  apply BitVec.eq_of_toNat_eq
  simp only [idxField, commandWord, BitVec.extractLsb'_toNat, BitVec.toNat_append,
    Nat.shiftRight_eq_div_pow]
  rw [← Nat.shiftLeft_add_eq_or_of_lt imm.isLt, ← Nat.shiftLeft_add_eq_or_of_lt idx.isLt,
    Nat.shiftLeft_eq, Nat.shiftLeft_eq]
  have h1 := imm.isLt
  have h2 := idx.isLt
  have h3 := op.isLt
  omega

theorem immField_commandWord (op idx : BitVec 8) (imm : BitVec 16) :
    immField (commandWord op idx imm) = imm := by
  apply BitVec.eq_of_toNat_eq
  simp only [immField, commandWord, BitVec.extractLsb'_toNat, BitVec.toNat_append,
    Nat.shiftRight_eq_div_pow]
  rw [← Nat.shiftLeft_add_eq_or_of_lt imm.isLt, ← Nat.shiftLeft_add_eq_or_of_lt idx.isLt,
    Nat.shiftLeft_eq, Nat.shiftLeft_eq]
  have h1 := imm.isLt
  have h2 := idx.isLt
  have h3 := op.isLt
  omega

/-- The three fields of an instruction's word are its own, and the decoder reads its row from it. -/
def WordRow.Statement (i : Instr) : Prop :=
  opField i.word = i.opcode.code ∧ idxField i.word = i.idx ∧ immField i.word = i.imm ∧
    decodeWord i.word = .ok i.opcode

theorem wordRow_of_admits (i : Instr)
    (hc : Opcode.ofCode? i.opcode.code = some i.opcode)
    (ha : i.opcode.format.admits i.idx i.imm = true) : WordRow.Statement i := by
  have ho := opField_commandWord i.opcode.code i.idx i.imm
  have hx := idxField_commandWord i.opcode.code i.idx i.imm
  have hm := immField_commandWord i.opcode.code i.idx i.imm
  refine ⟨ho, hx, hm, ?_⟩
  simp only [decodeWord, Instr.word, ho, hx, hm, hc, ha, if_true]

theorem WordRow.decode (dgram : List Byte) : WordRow.Statement (.decode dgram) :=
  wordRow_of_admits _ rfl rfl
theorem WordRow.encode (hdr : Header) (sid : Word) (k : ClassIdArg) (payload : List Byte) :
    WordRow.Statement (.encode hdr sid k payload) := wordRow_of_admits _ rfl rfl
theorem WordRow.txpkt (payload : List Byte) : WordRow.Statement (.txpkt payload) :=
  wordRow_of_admits _ rfl rfl
theorem WordRow.txinit : WordRow.Statement .txinit := wordRow_of_admits _ rfl rfl
theorem WordRow.rxdgram (dgram : List Byte) : WordRow.Statement (.rxdgram dgram) :=
  wordRow_of_admits _ rfl rfl
theorem WordRow.sidset (slot : Slot) (value : Word) : WordRow.Statement (.sidset slot value) :=
  wordRow_of_admits _ rfl rfl
theorem WordRow.wffrag (ctx : BitVec 8) (frag : Fragment) :
    WordRow.Statement (.wffrag ctx frag) := wordRow_of_admits _ rfl rfl
theorem WordRow.rbins (elem : Word) : WordRow.Statement (.rbins elem) :=
  wordRow_of_admits _ rfl rfl
theorem WordRow.rbpop : WordRow.Statement .rbpop := wordRow_of_admits _ rfl rfl
theorem WordRow.rbsize : WordRow.Statement .rbsize := wordRow_of_admits _ rfl rfl
theorem WordRow.rbclr : WordRow.Statement .rbclr := wordRow_of_admits _ rfl rfl
theorem WordRow.pushb (samples : List Sample) : WordRow.Statement (.pushb samples) :=
  wordRow_of_admits _ rfl rfl
theorem WordRow.read (count : BitVec 16) : WordRow.Statement (.read count) :=
  wordRow_of_admits _ rfl rfl
theorem WordRow.daset : WordRow.Statement .daset := wordRow_of_admits _ rfl rfl
theorem WordRow.dawait : WordRow.Statement .dawait := wordRow_of_admits _ rfl rfl
theorem WordRow.closeStream : WordRow.Statement .closeStream := wordRow_of_admits _ rfl rfl
theorem WordRow.openStream : WordRow.Statement .openStream := wordRow_of_admits _ rfl rfl

end Sys2Proof.Laws
end

