-- ==== Sys2Proof/Laws/Ring.lean ====
section
/-! SUPPORT. What the ring primitives do to the ring invariant and to the logical content of the FIFO. -/

namespace Sys2Proof.Machine

open Sys2Proof

/-! ## Slices of the ring -/

@[simp] theorem ringSlice_zero (cap : Nat) (mem : Memory 32) (a : Nat) :
    ringSlice cap mem a 0 = [] := rfl

theorem ringSlice_succ (cap : Nat) (mem : Memory 32) (a n : Nat) :
    ringSlice cap mem a (n + 1) =
      Memory.read mem (a % cap) :: ringSlice cap mem (a + 1) n := rfl

@[simp] theorem ringSlice_length (cap : Nat) (mem : Memory 32) :
    ∀ (n a : Nat), (ringSlice cap mem a n).length = n
  | 0, _ => rfl
  | n + 1, a => by rw [ringSlice_succ, List.length_cons, ringSlice_length cap mem n]

/-- The last element of a slice. -/
theorem ringSlice_snoc (cap : Nat) (mem : Memory 32) :
    ∀ (n a : Nat), ringSlice cap mem a (n + 1) =
      ringSlice cap mem a n ++ [Memory.read mem ((a + n) % cap)]
  | 0, a => rfl
  | n + 1, a => by
    rw [ringSlice_succ, ringSlice_snoc cap mem n (a + 1), ringSlice_succ,
      show a + 1 + n = a + (n + 1) by omega, List.cons_append]

/-- A slice depends on the elements at its positions only. -/
theorem ringSlice_congr {cap : Nat} {mem mem' : Memory 32} :
    ∀ (n a : Nat), (∀ k, k < n → Memory.read mem ((a + k) % cap) =
        Memory.read mem' ((a + k) % cap)) →
      ringSlice cap mem a n = ringSlice cap mem' a n
  | 0, _, _ => rfl
  | n + 1, a, h => by
    have h0 : Memory.read mem (a % cap) = Memory.read mem' (a % cap) := h 0 (by omega)
    rw [ringSlice_succ, ringSlice_succ, h0,
      ringSlice_congr (mem := mem) (mem' := mem') n (a + 1) fun k hk => by
        rw [show a + 1 + k = a + (k + 1) by omega]
        exact h (k + 1) (by omega)]

/-- A slice depends on its start modulo the capacity. -/
theorem ringSlice_mod (cap : Nat) (mem : Memory 32) :
    ∀ (n a : Nat), ringSlice cap mem (a % cap) n = ringSlice cap mem a n
  | 0, _ => rfl
  | n + 1, a => by
    rw [ringSlice_succ, ringSlice_succ, Nat.mod_mod, ← ringSlice_mod cap mem n (a % cap + 1),
      ← ringSlice_mod cap mem n (a + 1), Nat.mod_add_mod]

/-- Distinct positions less than a capacity apart are distinct modulo it. -/
theorem mod_ne_of_lt {cap a k n : Nat} (hk : k < n) (hn : n < cap) :
    (a + k) % cap ≠ (a + n) % cap := by
  intro h
  have h' : k % cap = n % cap := Nat.ModEq.add_left_cancel' a h
  rw [Nat.mod_eq_of_lt (by omega), Nat.mod_eq_of_lt hn] at h'
  omega

@[simp] theorem ringContent_length (cap : Nat) (r : Ring) :
    (ringContent cap r).length = r.size := ringSlice_length cap r.mem r.size r.tail

/-! ## The invariant -/

/-- A cleared ring meets the invariant. -/
theorem ringReset_inv {cap : Nat} (h : 0 < cap) : RingInv cap Ring.reset :=
  { size_le := Nat.zero_le _, head_lt := h, tail_lt := h, head_eq := by simp [Ring.reset],
    mem_wf := rfl, mem_below := rfl }

/-- RBINS keeps the ring invariant. -/
theorem ringInsert_inv {cap : Nat} {r : Ring} (e : Word) (hr : RingInv cap r) :
    RingInv cap (ringInsert cap e r) := by
  have hcap : 0 < cap := Nat.lt_of_le_of_lt (Nat.zero_le _) hr.head_lt
  have hsize := hr.size_le
  refine ⟨?_, Nat.mod_lt _ hcap, ?_, ?_, Memory.write_wf hr.mem_wf _ _,
    Memory.write_below hr.head_lt hr.mem_below⟩
  · simp only [ringInsert]
    split <;> omega
  · simp only [ringInsert]
    split
    · exact Nat.mod_lt _ hcap
    · exact hr.tail_lt
  · simp only [ringInsert]
    rw [hr.head_eq, Nat.mod_add_mod]
    split
    · rw [Nat.mod_add_mod, show r.tail + 1 + r.size = r.tail + r.size + 1 by omega]
    · rw [show r.tail + (r.size + 1) = r.tail + r.size + 1 by omega]

/-- What RBPOP can answer. -/
theorem ringPop_eq (cap : Nat) (r : Ring) :
    (r.size = 0 ∧ ringPop cap r = none) ∨
      (r.size ≠ 0 ∧ ringPop cap r = some (Memory.read r.mem r.tail,
        { r with tail := (r.tail + 1) % cap, size := r.size - 1 })) := by
  by_cases h : r.size = 0
  · exact .inl ⟨h, if_pos h⟩
  · exact .inr ⟨h, if_neg h⟩

/-- RBPOP keeps the ring invariant. -/
theorem ringPop_inv {cap : Nat} {r r' : Ring} {e : Word} (hr : RingInv cap r)
    (h : ringPop cap r = some (e, r')) : RingInv cap r' := by
  have hcap : 0 < cap := Nat.lt_of_le_of_lt (Nat.zero_le _) hr.head_lt
  rcases ringPop_eq cap r with ⟨-, hn⟩ | ⟨hs, he⟩
  · rw [hn] at h
    cases h
  · rw [he] at h
    cases h
    exact
      { size_le := Nat.le_trans (Nat.sub_le _ _) hr.size_le, head_lt := hr.head_lt
        tail_lt := Nat.mod_lt _ hcap
        head_eq := by
          show r.head = _
          rw [hr.head_eq, Nat.mod_add_mod, show r.tail + 1 + (r.size - 1) = r.tail + r.size by omega]
        mem_wf := hr.mem_wf, mem_below := hr.mem_below }

/-- RBCLR keeps the ring invariant. -/
theorem ringClear_inv {cap : Nat} {r : Ring} (hr : RingInv cap r) :
    RingInv cap (ringClear cap r) := by
  have hcap : 0 < cap := Nat.lt_of_le_of_lt (Nat.zero_le _) hr.head_lt
  exact
    { size_le := Nat.zero_le _, head_lt := hcap, tail_lt := hcap, head_eq := by simp [ringClear]
      mem_wf := Memory.zeroBelow_wf hr.mem_wf cap
      mem_below := Memory.zeroBelow_below hr.mem_below }

/-! ## The logical content -/

/-- RBINS on a ring that is not full appends to the content. -/
theorem ringInsert_content {cap : Nat} {r : Ring} (e : Word) (hr : RingInv cap r)
    (hfull : r.size < cap) :
    ringContent cap (ringInsert cap e r) = ringContent cap r ++ [e] := by
  have hne : r.size ≠ cap := by omega
  simp only [ringContent, ringInsert, if_neg hne]
  rw [ringSlice_snoc, hr.head_eq, Memory.read_write_same hr.mem_wf]
  congr 1
  apply ringSlice_congr
  intro k hk
  exact Memory.read_write_other (mod_ne_of_lt hk hfull).symm

/-- RBINS on a full ring drops the oldest element and appends. -/
theorem ringInsert_content_full {cap : Nat} {r : Ring} (e : Word) (hr : RingInv cap r)
    (hfull : r.size = cap) :
    ringContent cap (ringInsert cap e r) = (ringContent cap r).tail ++ [e] := by
  have hcap : 0 < cap := Nat.lt_of_le_of_lt (Nat.zero_le _) hr.head_lt
  have hhead : r.head = r.tail := by
    rw [hr.head_eq, hfull, Nat.add_mod_right, Nat.mod_eq_of_lt hr.tail_lt]
  obtain ⟨n, hn⟩ : ∃ n, r.size = n + 1 := ⟨r.size - 1, by omega⟩
  simp only [ringContent, ringInsert, if_pos hfull]
  rw [hn, ringSlice_mod, ringSlice_snoc, ringSlice_succ, List.tail_cons]
  have hlast : (r.tail + 1 + n) % cap = r.head := by
    rw [show r.tail + 1 + n = r.tail + cap by omega, Nat.add_mod_right,
      Nat.mod_eq_of_lt hr.tail_lt, hhead]
  rw [hlast, Memory.read_write_same hr.mem_wf]
  congr 1
  apply ringSlice_congr
  intro k hk
  refine Memory.read_write_other fun h => ?_
  rw [← hlast] at h
  exact mod_ne_of_lt hk (by omega) h.symm

/-- RBPOP takes the oldest element of the content. -/
theorem ringPop_content {cap : Nat} {r r' : Ring} {e : Word} (hr : RingInv cap r)
    (h : ringPop cap r = some (e, r')) : ringContent cap r = e :: ringContent cap r' := by
  rcases ringPop_eq cap r with ⟨-, hn⟩ | ⟨hs, he⟩
  · rw [hn] at h
    cases h
  · rw [he] at h
    cases h
    obtain ⟨n, hn⟩ : ∃ n, r.size = n + 1 := ⟨r.size - 1, by omega⟩
    simp only [ringContent, hn, Nat.add_sub_cancel]
    rw [ringSlice_succ, ringSlice_mod, Nat.mod_eq_of_lt hr.tail_lt]

/-- RBPOP answers none exactly when the content is empty. -/
theorem ringPop_none_iff (cap : Nat) (r : Ring) :
    ringPop cap r = none ↔ ringContent cap r = [] := by
  rw [← List.length_eq_zero_iff, ringContent_length]
  rcases ringPop_eq cap r with ⟨h, hn⟩ | ⟨h, hn⟩ <;> simp [h, hn]

/-- The content of a cleared ring is empty. -/
@[simp] theorem ringClear_content (cap : Nat) (r : Ring) :
    ringContent cap (ringClear cap r) = [] := rfl

end Sys2Proof.Machine
end

