-- ==== Sys2Proof/Laws/State.lean ====
section
/-! SUPPORT. One lemma per field per update of the state, true by `rfl`: no later proof unfolds a record
update. -/

namespace Sys2Proof.Machine

open Sys2Proof

/-! ## deliver -/

@[simp] theorem deliver_cfg (r : Result) (s : State) :
    (deliver r s).cfg = s.cfg := rfl
@[simp] theorem deliver_rb (r : Result) (s : State) :
    (deliver r s).rb = s.rb := rfl
@[simp] theorem deliver_da (r : Result) (s : State) :
    (deliver r s).da = s.da := rfl
@[simp] theorem deliver_closed (r : Result) (s : State) :
    (deliver r s).closed = s.closed := rfl
@[simp] theorem deliver_rd (r : Result) (s : State) :
    (deliver r s).rd = s.rd := rfl
@[simp] theorem deliver_pb (r : Result) (s : State) :
    (deliver r s).pb = s.pb := rfl
@[simp] theorem deliver_sid (r : Result) (s : State) :
    (deliver r s).sid = s.sid := rfl
@[simp] theorem deliver_wf (r : Result) (s : State) :
    (deliver r s).wf = s.wf := rfl
@[simp] theorem deliver_txSeq (r : Result) (s : State) :
    (deliver r s).txSeq = s.txSeq := rfl
@[simp] theorem deliver_env (r : Result) (s : State) :
    (deliver r s).env = s.env := rfl
@[simp] theorem deliver_out_evt (r : Result) (s : State) :
    (deliver r s).out.evt = s.out.evt := rfl
@[simp] theorem deliver_out_err (r : Result) (s : State) :
    (deliver r s).out.err = s.out.err := rfl
@[simp] theorem deliver_out_txOut (r : Result) (s : State) :
    (deliver r s).out.txOut = s.out.txOut := rfl
@[simp] theorem deliver_out_rxaOut (r : Result) (s : State) :
    (deliver r s).out.rxaOut = s.out.rxaOut := rfl
@[simp] theorem deliver_out_dataOut (r : Result) (s : State) :
    (deliver r s).out.dataOut = s.out.dataOut ++ [r] := rfl

/-! ## emit -/

@[simp] theorem emit_cfg (es : List Event) (s : State) :
    (emit es s).cfg = s.cfg := rfl
@[simp] theorem emit_rb (es : List Event) (s : State) :
    (emit es s).rb = s.rb := rfl
@[simp] theorem emit_da (es : List Event) (s : State) :
    (emit es s).da = s.da := rfl
@[simp] theorem emit_closed (es : List Event) (s : State) :
    (emit es s).closed = s.closed := rfl
@[simp] theorem emit_rd (es : List Event) (s : State) :
    (emit es s).rd = s.rd := rfl
@[simp] theorem emit_pb (es : List Event) (s : State) :
    (emit es s).pb = s.pb := rfl
@[simp] theorem emit_sid (es : List Event) (s : State) :
    (emit es s).sid = s.sid := rfl
@[simp] theorem emit_wf (es : List Event) (s : State) :
    (emit es s).wf = s.wf := rfl
@[simp] theorem emit_txSeq (es : List Event) (s : State) :
    (emit es s).txSeq = s.txSeq := rfl
@[simp] theorem emit_env (es : List Event) (s : State) :
    (emit es s).env = s.env := rfl
@[simp] theorem emit_out_evt (es : List Event) (s : State) :
    (emit es s).out.evt = s.out.evt ++ es := rfl
@[simp] theorem emit_out_err (es : List Event) (s : State) :
    (emit es s).out.err = s.out.err := rfl
@[simp] theorem emit_out_txOut (es : List Event) (s : State) :
    (emit es s).out.txOut = s.out.txOut := rfl
@[simp] theorem emit_out_rxaOut (es : List Event) (s : State) :
    (emit es s).out.rxaOut = s.out.rxaOut := rfl
@[simp] theorem emit_out_dataOut (es : List Event) (s : State) :
    (emit es s).out.dataOut = s.out.dataOut := rfl

/-! ## raise -/

@[simp] theorem raise_cfg (e : ErrRecord) (s : State) :
    (raise e s).cfg = s.cfg := rfl
@[simp] theorem raise_rb (e : ErrRecord) (s : State) :
    (raise e s).rb = s.rb := rfl
@[simp] theorem raise_da (e : ErrRecord) (s : State) :
    (raise e s).da = s.da := rfl
@[simp] theorem raise_closed (e : ErrRecord) (s : State) :
    (raise e s).closed = s.closed := rfl
@[simp] theorem raise_rd (e : ErrRecord) (s : State) :
    (raise e s).rd = s.rd := rfl
@[simp] theorem raise_pb (e : ErrRecord) (s : State) :
    (raise e s).pb = s.pb := rfl
@[simp] theorem raise_sid (e : ErrRecord) (s : State) :
    (raise e s).sid = s.sid := rfl
@[simp] theorem raise_wf (e : ErrRecord) (s : State) :
    (raise e s).wf = s.wf := rfl
@[simp] theorem raise_txSeq (e : ErrRecord) (s : State) :
    (raise e s).txSeq = s.txSeq := rfl
@[simp] theorem raise_env (e : ErrRecord) (s : State) :
    (raise e s).env = s.env := rfl
@[simp] theorem raise_out_evt (e : ErrRecord) (s : State) :
    (raise e s).out.evt = s.out.evt := rfl
@[simp] theorem raise_out_err (e : ErrRecord) (s : State) :
    (raise e s).out.err = s.out.err ++ [e] := rfl
@[simp] theorem raise_out_txOut (e : ErrRecord) (s : State) :
    (raise e s).out.txOut = s.out.txOut := rfl
@[simp] theorem raise_out_rxaOut (e : ErrRecord) (s : State) :
    (raise e s).out.rxaOut = s.out.rxaOut := rfl
@[simp] theorem raise_out_dataOut (e : ErrRecord) (s : State) :
    (raise e s).out.dataOut = s.out.dataOut := rfl

/-! ## sendTx -/

@[simp] theorem sendTx_cfg (p : List Byte) (s : State) :
    (sendTx p s).cfg = s.cfg := rfl
@[simp] theorem sendTx_rb (p : List Byte) (s : State) :
    (sendTx p s).rb = s.rb := rfl
@[simp] theorem sendTx_da (p : List Byte) (s : State) :
    (sendTx p s).da = s.da := rfl
@[simp] theorem sendTx_closed (p : List Byte) (s : State) :
    (sendTx p s).closed = s.closed := rfl
@[simp] theorem sendTx_rd (p : List Byte) (s : State) :
    (sendTx p s).rd = s.rd := rfl
@[simp] theorem sendTx_pb (p : List Byte) (s : State) :
    (sendTx p s).pb = s.pb := rfl
@[simp] theorem sendTx_sid (p : List Byte) (s : State) :
    (sendTx p s).sid = s.sid := rfl
@[simp] theorem sendTx_wf (p : List Byte) (s : State) :
    (sendTx p s).wf = s.wf := rfl
@[simp] theorem sendTx_txSeq (p : List Byte) (s : State) :
    (sendTx p s).txSeq = s.txSeq := rfl
@[simp] theorem sendTx_env (p : List Byte) (s : State) :
    (sendTx p s).env = s.env := rfl
@[simp] theorem sendTx_out_evt (p : List Byte) (s : State) :
    (sendTx p s).out.evt = s.out.evt := rfl
@[simp] theorem sendTx_out_err (p : List Byte) (s : State) :
    (sendTx p s).out.err = s.out.err := rfl
@[simp] theorem sendTx_out_txOut (p : List Byte) (s : State) :
    (sendTx p s).out.txOut = s.out.txOut ++ [p] := rfl
@[simp] theorem sendTx_out_rxaOut (p : List Byte) (s : State) :
    (sendTx p s).out.rxaOut = s.out.rxaOut := rfl
@[simp] theorem sendTx_out_dataOut (p : List Byte) (s : State) :
    (sendTx p s).out.dataOut = s.out.dataOut := rfl

/-! ## sendRxa -/

@[simp] theorem sendRxa_cfg (p : List Byte) (s : State) :
    (sendRxa p s).cfg = s.cfg := rfl
@[simp] theorem sendRxa_rb (p : List Byte) (s : State) :
    (sendRxa p s).rb = s.rb := rfl
@[simp] theorem sendRxa_da (p : List Byte) (s : State) :
    (sendRxa p s).da = s.da := rfl
@[simp] theorem sendRxa_closed (p : List Byte) (s : State) :
    (sendRxa p s).closed = s.closed := rfl
@[simp] theorem sendRxa_rd (p : List Byte) (s : State) :
    (sendRxa p s).rd = s.rd := rfl
@[simp] theorem sendRxa_pb (p : List Byte) (s : State) :
    (sendRxa p s).pb = s.pb := rfl
@[simp] theorem sendRxa_sid (p : List Byte) (s : State) :
    (sendRxa p s).sid = s.sid := rfl
@[simp] theorem sendRxa_wf (p : List Byte) (s : State) :
    (sendRxa p s).wf = s.wf := rfl
@[simp] theorem sendRxa_txSeq (p : List Byte) (s : State) :
    (sendRxa p s).txSeq = s.txSeq := rfl
@[simp] theorem sendRxa_env (p : List Byte) (s : State) :
    (sendRxa p s).env = s.env := rfl
@[simp] theorem sendRxa_out_evt (p : List Byte) (s : State) :
    (sendRxa p s).out.evt = s.out.evt := rfl
@[simp] theorem sendRxa_out_err (p : List Byte) (s : State) :
    (sendRxa p s).out.err = s.out.err := rfl
@[simp] theorem sendRxa_out_txOut (p : List Byte) (s : State) :
    (sendRxa p s).out.txOut = s.out.txOut := rfl
@[simp] theorem sendRxa_out_rxaOut (p : List Byte) (s : State) :
    (sendRxa p s).out.rxaOut = s.out.rxaOut ++ [p] := rfl
@[simp] theorem sendRxa_out_dataOut (p : List Byte) (s : State) :
    (sendRxa p s).out.dataOut = s.out.dataOut := rfl

/-! ## signalSet -/

@[simp] theorem signalSet_cfg (s : State) :
    (signalSet s).cfg = s.cfg := rfl
@[simp] theorem signalSet_rb (s : State) :
    (signalSet s).rb = s.rb := rfl
@[simp] theorem signalSet_da (s : State) :
    (signalSet s).da = true := rfl
@[simp] theorem signalSet_closed (s : State) :
    (signalSet s).closed = s.closed := rfl
@[simp] theorem signalSet_rd (s : State) :
    (signalSet s).rd = s.rd := rfl
@[simp] theorem signalSet_pb (s : State) :
    (signalSet s).pb = s.pb := rfl
@[simp] theorem signalSet_sid (s : State) :
    (signalSet s).sid = s.sid := rfl
@[simp] theorem signalSet_wf (s : State) :
    (signalSet s).wf = s.wf := rfl
@[simp] theorem signalSet_txSeq (s : State) :
    (signalSet s).txSeq = s.txSeq := rfl
@[simp] theorem signalSet_out (s : State) :
    (signalSet s).out = s.out := rfl
@[simp] theorem signalSet_env (s : State) :
    (signalSet s).env = s.env := rfl

/-! ## signalTake -/

@[simp] theorem signalTake_cfg (s : State) :
    (signalTake s).cfg = s.cfg := rfl
@[simp] theorem signalTake_rb (s : State) :
    (signalTake s).rb = s.rb := rfl
@[simp] theorem signalTake_da (s : State) :
    (signalTake s).da = false := rfl
@[simp] theorem signalTake_closed (s : State) :
    (signalTake s).closed = s.closed := rfl
@[simp] theorem signalTake_rd (s : State) :
    (signalTake s).rd = s.rd := rfl
@[simp] theorem signalTake_pb (s : State) :
    (signalTake s).pb = s.pb := rfl
@[simp] theorem signalTake_sid (s : State) :
    (signalTake s).sid = s.sid := rfl
@[simp] theorem signalTake_wf (s : State) :
    (signalTake s).wf = s.wf := rfl
@[simp] theorem signalTake_txSeq (s : State) :
    (signalTake s).txSeq = s.txSeq := rfl
@[simp] theorem signalTake_out (s : State) :
    (signalTake s).out = s.out := rfl
@[simp] theorem signalTake_env (s : State) :
    (signalTake s).env = s.env := rfl

/-! ## insertElem -/

@[simp] theorem insertElem_cfg (e : Word) (s : State) :
    (insertElem e s).cfg = s.cfg := rfl
@[simp] theorem insertElem_rb (e : Word) (s : State) :
    (insertElem e s).rb = ringInsert s.cfg.rbCap e s.rb := rfl
@[simp] theorem insertElem_da (e : Word) (s : State) :
    (insertElem e s).da = s.da := rfl
@[simp] theorem insertElem_closed (e : Word) (s : State) :
    (insertElem e s).closed = s.closed := rfl
@[simp] theorem insertElem_rd (e : Word) (s : State) :
    (insertElem e s).rd = s.rd := rfl
@[simp] theorem insertElem_pb (e : Word) (s : State) :
    (insertElem e s).pb = s.pb := rfl
@[simp] theorem insertElem_sid (e : Word) (s : State) :
    (insertElem e s).sid = s.sid := rfl
@[simp] theorem insertElem_wf (e : Word) (s : State) :
    (insertElem e s).wf = s.wf := rfl
@[simp] theorem insertElem_txSeq (e : Word) (s : State) :
    (insertElem e s).txSeq = s.txSeq := rfl
@[simp] theorem insertElem_out (e : Word) (s : State) :
    (insertElem e s).out = s.out := rfl
@[simp] theorem insertElem_env (e : Word) (s : State) :
    (insertElem e s).env = s.env := rfl

/-! ## setContext -/

@[simp] theorem setContext_cfg (i : Nat) (c : WfContext) (s : State) :
    (setContext i c s).cfg = s.cfg := rfl
@[simp] theorem setContext_rb (i : Nat) (c : WfContext) (s : State) :
    (setContext i c s).rb = s.rb := rfl
@[simp] theorem setContext_da (i : Nat) (c : WfContext) (s : State) :
    (setContext i c s).da = s.da := rfl
@[simp] theorem setContext_closed (i : Nat) (c : WfContext) (s : State) :
    (setContext i c s).closed = s.closed := rfl
@[simp] theorem setContext_rd (i : Nat) (c : WfContext) (s : State) :
    (setContext i c s).rd = s.rd := rfl
@[simp] theorem setContext_pb (i : Nat) (c : WfContext) (s : State) :
    (setContext i c s).pb = s.pb := rfl
@[simp] theorem setContext_sid (i : Nat) (c : WfContext) (s : State) :
    (setContext i c s).sid = s.sid := rfl
@[simp] theorem setContext_wf (i : Nat) (c : WfContext) (s : State) :
    (setContext i c s).wf = s.wf.set i c := rfl
@[simp] theorem setContext_txSeq (i : Nat) (c : WfContext) (s : State) :
    (setContext i c s).txSeq = s.txSeq := rfl
@[simp] theorem setContext_out (i : Nat) (c : WfContext) (s : State) :
    (setContext i c s).out = s.out := rfl
@[simp] theorem setContext_env (i : Nat) (c : WfContext) (s : State) :
    (setContext i c s).env = s.env := rfl

/-! ## withStream -/

@[simp] theorem withStream_cfg (a : Agent) (cs : List Command) (s : State) :
    (withStream a cs s).cfg = s.cfg := rfl
@[simp] theorem withStream_rb (a : Agent) (cs : List Command) (s : State) :
    (withStream a cs s).rb = s.rb := rfl
@[simp] theorem withStream_da (a : Agent) (cs : List Command) (s : State) :
    (withStream a cs s).da = s.da := rfl
@[simp] theorem withStream_closed (a : Agent) (cs : List Command) (s : State) :
    (withStream a cs s).closed = s.closed := rfl
@[simp] theorem withStream_rd (a : Agent) (cs : List Command) (s : State) :
    (withStream a cs s).rd = s.rd := rfl
@[simp] theorem withStream_pb (a : Agent) (cs : List Command) (s : State) :
    (withStream a cs s).pb = s.pb := rfl
@[simp] theorem withStream_sid (a : Agent) (cs : List Command) (s : State) :
    (withStream a cs s).sid = s.sid := rfl
@[simp] theorem withStream_wf (a : Agent) (cs : List Command) (s : State) :
    (withStream a cs s).wf = s.wf := rfl
@[simp] theorem withStream_txSeq (a : Agent) (cs : List Command) (s : State) :
    (withStream a cs s).txSeq = s.txSeq := rfl
@[simp] theorem withStream_out (a : Agent) (cs : List Command) (s : State) :
    (withStream a cs s).out = s.out := rfl
@[simp] theorem withStream_env (a : Agent) (cs : List Command) (s : State) :
    (withStream a cs s).env = s.env.setStream a cs := rfl

/-! ## withTurns -/

@[simp] theorem withTurns_cfg (ts : List Turn) (s : State) :
    (withTurns ts s).cfg = s.cfg := rfl
@[simp] theorem withTurns_rb (ts : List Turn) (s : State) :
    (withTurns ts s).rb = s.rb := rfl
@[simp] theorem withTurns_da (ts : List Turn) (s : State) :
    (withTurns ts s).da = s.da := rfl
@[simp] theorem withTurns_closed (ts : List Turn) (s : State) :
    (withTurns ts s).closed = s.closed := rfl
@[simp] theorem withTurns_rd (ts : List Turn) (s : State) :
    (withTurns ts s).rd = s.rd := rfl
@[simp] theorem withTurns_pb (ts : List Turn) (s : State) :
    (withTurns ts s).pb = s.pb := rfl
@[simp] theorem withTurns_sid (ts : List Turn) (s : State) :
    (withTurns ts s).sid = s.sid := rfl
@[simp] theorem withTurns_wf (ts : List Turn) (s : State) :
    (withTurns ts s).wf = s.wf := rfl
@[simp] theorem withTurns_txSeq (ts : List Turn) (s : State) :
    (withTurns ts s).txSeq = s.txSeq := rfl
@[simp] theorem withTurns_out (ts : List Turn) (s : State) :
    (withTurns ts s).out = s.out := rfl
@[simp] theorem withTurns_env (ts : List Turn) (s : State) :
    (withTurns ts s).env = { s.env with turns := ts } := rfl

/-! ## The inputs -/

@[simp] theorem setStream_turns (e : Inputs) (a : Agent) (cs : List Command) :
    (e.setStream a cs).turns = e.turns := by cases a <;> rfl

@[simp] theorem stream_withTurns (e : Inputs) (a : Agent) (ts : List Turn) :
    ({ e with turns := ts } : Inputs).stream a = e.stream a := by cases a <;> rfl

@[simp] theorem stream_setStream_same (e : Inputs) (a : Agent) (cs : List Command) :
    (e.setStream a cs).stream a = cs := by cases a <;> rfl

theorem stream_setStream_other (e : Inputs) {a b : Agent} (cs : List Command) (h : a ≠ b) :
    (e.setStream a cs).stream b = e.stream b := by
  cases a <;> cases b <;> first | rfl | exact absurd rfl h

@[simp] theorem refuseCommand_eq (w : Word) (s : State) :
    refuseCommand w s = raise (.illegalCommand w) s := rfl

/-! ## Contexts -/

theorem context_setContext_same (s : State) {i : Nat} (c : WfContext) (h : i < s.wf.length) :
    (setContext i c s).context i = c := by
  simp [State.context, h]

theorem context_setContext_other (s : State) {i j : Nat} (c : WfContext) (h : i ≠ j) :
    (setContext i c s).context j = s.context j := by
  simp [State.context, List.getD_eq_getElem?_getD, List.getElem?_set_ne h]

/-! ## Reset -/

@[simp] theorem applyReset_cfg (s : State) : (applyReset s).cfg = s.cfg := rfl
@[simp] theorem applyReset_out (s : State) : (applyReset s).out = s.out := rfl
@[simp] theorem applyReset_env (s : State) : (applyReset s).env = s.env := rfl

end Sys2Proof.Machine
end

