-- ==== Sys2Proof/Laws/Steps.lean ====
section
/-! SUPPORT. What each shared operation, each turn and the step can do, said once. -/

namespace Sys2Proof.Machine

open Sys2Proof

/-! ## WFFRAG -/

/-- The fragments that pass every test of rule R171. -/
theorem fragmentError_eq_none (f : Fragment) :
    fragmentError f = none ↔ f.total ≠ 0 ∧ f.bins.length = f.width.toNat ∧
      f.first.toNat + f.width.toNat ≤ f.total.toNat ∧ upperBound f < 2 ^ 64 := by
  unfold fragmentError
  split
  · rename_i h
    simp [h]
  · split
    · rename_i h
      simp [h]
    · split
      · rename_i h
        simp only [reduceCtorEq, false_iff, not_and]
        omega
      · split
        · rename_i h
          simp only [reduceCtorEq, false_iff, not_and]
          omega
        · rename_i h1 h2 h3 h4
          simp only [true_iff]
          exact ⟨h1, by omega, by omega, by omega⟩

/-- A fragment passes the tests of rule R171 exactly when it is valid. -/
theorem fragmentError_none_iff (f : Fragment) : fragmentError f = none ↔ ValidFragment f := by
  rw [fragmentError_eq_none]
  exact ⟨fun ⟨h0, h1, h2, h3⟩ => ⟨h0, h1, h2, h3⟩, fun ⟨h0, h1, h2, h3⟩ => ⟨h0, h1, h2, h3⟩⟩

/-- What a valid fragment leaves in the bin buffer: the slice, over the buffer or, with a new total, over
the buffer set to 0 below that total. -/
theorem wfAccept_buf (i : Nat) (f : Fragment) (c : WfContext) :
    (wfAccept i f c).1.buf = Memory.writeList
      (if f.total = c.total then c.buf else Memory.zeroBelow c.buf f.total.toNat) f.first.toNat
      f.bins := by
  unfold wfAccept wfComplete wfCopy wfNewFrame wfConfigure
  simp only
  split <;> split <;> split <;> rfl

/-- What a valid fragment leaves outside its slice. -/
theorem wfAccept_read_other {i : Nat} {f : Fragment} {c : WfContext} (hf : ValidFragment f)
    {a : Nat} (ha : a < f.first.toNat ∨ f.first.toNat + f.width.toNat ≤ a) :
    Memory.read (wfAccept i f c).1.buf a =
      if f.total ≠ c.total ∧ a < f.total.toNat then 0 else Memory.read c.buf a := by
  rw [wfAccept_buf, Memory.read_writeList_other (by rw [hf.bins_len]; exact ha)]
  by_cases h : f.total = c.total
  · simp [h]
  · rw [if_neg h, Memory.read_zeroBelow]
    simp [h]

/-- What WFFRAG can do: drop a malformed fragment, or carry out its steps. -/
theorem wfApply_cases (i : Nat) (f : Fragment) (s : State) :
    (∃ sub, fragmentError f = some sub ∧
        wfApply i f s = (false, raise (.malformedPacket sub) s)) ∨
      (fragmentError f = none ∧
        wfApply i f s = (true, emit (wfAccept i f (s.context i)).2
          (setContext i (wfAccept i f (s.context i)).1 s))) := by
  unfold wfApply
  cases h : fragmentError f with
  | none => exact .inr ⟨rfl, rfl⟩
  | some sub => exact .inl ⟨sub, rfl, rfl⟩

/-! ## RXDGRAM -/

/-- The slot a search gives holds the StreamID, and no earlier slot does. -/
theorem findSlot_some {sid : Word} :
    ∀ {ws : List Word} {k i : Nat}, findSlot sid k ws = some i →
      ∃ j, i = k + j ∧ ws[j]? = some sid ∧ ∀ l, l < j → ws[l]? ≠ some sid
  | [], _, _, h => by cases h
  | w :: ws, k, i, h => by
    unfold findSlot at h
    split at h
    · rename_i hw
      cases h
      exact ⟨0, rfl, by simp [hw], fun l hl => absurd hl (Nat.not_lt_zero _)⟩
    · rename_i hw
      obtain ⟨j, hj, hs, hmin⟩ := findSlot_some h
      refine ⟨j + 1, by omega, by simpa using hs, ?_⟩
      intro l hl
      cases l with
      | zero => simpa using hw
      | succ l => simpa using hmin l (by omega)

/-- A search gives no slot exactly when no slot holds the StreamID. -/
theorem findSlot_none {sid : Word} :
    ∀ {ws : List Word} {k : Nat}, findSlot sid k ws = none ↔ sid ∉ ws
  | [], _ => by simp [findSlot]
  | w :: ws, k => by
    unfold findSlot
    split
    · rename_i hw
      simp [hw]
    · rename_i hw
      rw [findSlot_none, List.mem_cons, not_or]
      exact ⟨fun h => ⟨fun e => hw e.symm, h⟩, fun h => h.2⟩

/-- What RXDGRAM does, route by route. -/
theorem routeDatagram_routes (parse : List Byte → Option Fragment) (b : List Byte) (s : State) :
    (∃ sub, decodePacket b = .fail sub ∧
      routeDatagram parse b s = (.droppedMalformed, raise (.malformedPacket sub) s)) ∨
    ∃ h sid k p, decodePacket b = .ok h sid k p ∧
      ((sid = 0 ∧ routeDatagram parse b s = (.droppedUnrouted, s)) ∨
      (sid ≠ 0 ∧ ∃ i, findSlot sid 0 s.sid.wf = some i ∧
        ((parse p = none ∧ routeDatagram parse b s =
            (.droppedMalformed, raise (.malformedPacket .tileParse) s)) ∨
          ∃ f, parse p = some f ∧
            routeDatagram parse b s = (.toWaterfall i, (wfApply i f s).2))) ∨
      (sid ≠ 0 ∧ findSlot sid 0 s.sid.wf = none ∧
        ((s.sid.rxa = sid ∧ routeDatagram parse b s = (.toRxAudio, sendRxa p s)) ∨
          (s.sid.rxa ≠ sid ∧ routeDatagram parse b s = (.droppedUnrouted, s))))) := by
  unfold routeDatagram
  cases decodePacket b with
  | fail sub => exact .inl ⟨sub, rfl, rfl⟩
  | ok h sid k p =>
    refine .inr ⟨h, sid, k, p, rfl, ?_⟩
    simp only [routePacket]
    by_cases h0 : sid = 0
    · exact .inl ⟨h0, if_pos h0⟩
    · rw [if_neg h0]
      cases hs : findSlot sid 0 s.sid.wf with
      | some i =>
        refine .inr (.inl ⟨h0, i, rfl, ?_⟩)
        simp only [routeWaterfall]
        cases parse p with
        | none => exact .inl ⟨rfl, rfl⟩
        | some f => exact .inr ⟨f, rfl, rfl⟩
      | none =>
        refine .inr (.inr ⟨h0, rfl, ?_⟩)
        by_cases hr : s.sid.rxa = sid
        · exact .inl ⟨hr, if_pos hr⟩
        · exact .inr ⟨hr, if_neg hr⟩

/-- What RXDGRAM can do to the state: nothing, log a malformed packet, hand the payload to the audio
output, or carry out a WFFRAG on the context of a slot. -/
theorem routeDatagram_cases (parse : List Byte → Option Fragment) (b : List Byte) (s : State) :
    (routeDatagram parse b s).2 = s ∨
      (∃ sub, (routeDatagram parse b s).2 = raise (.malformedPacket sub) s) ∨
      (∃ p, (routeDatagram parse b s).2 = sendRxa p s) ∨
      (∃ i f, i < s.sid.wf.length ∧ (routeDatagram parse b s).2 = (wfApply i f s).2) := by
  rcases routeDatagram_routes parse b s with ⟨sub, -, e⟩ | ⟨h, sid, k, p, -, ⟨-, e⟩ |
    ⟨-, i, hi, ⟨-, e⟩ | ⟨f, -, e⟩⟩ | ⟨-, -, ⟨-, e⟩ | ⟨-, e⟩⟩⟩ <;> rw [e]
  · exact .inr (.inl ⟨sub, rfl⟩)
  · exact .inl rfl
  · exact .inr (.inl ⟨.tileParse, rfl⟩)
  · obtain ⟨j, hj, hs, -⟩ := findSlot_some hi
    have hlt := (List.getElem?_eq_some_iff.1 hs).1
    exact .inr (.inr (.inr ⟨i, f, by omega, rfl⟩))
  · exact .inr (.inr (.inl ⟨p, rfl⟩))
  · exact .inl rfl

/-- A datagram names at most one context and one fragment for the reassembler. -/
theorem reassembles_unique {parse : List Byte → Option Fragment} {b : List Byte} {s : State}
    {i j : Nat} {f g : Fragment} (hf : reassembles parse b s i f)
    (hg : reassembles parse b s j g) : i = j ∧ f = g := by
  obtain ⟨h, sid, k, p, hd, -, hs, hp, -⟩ := hf
  obtain ⟨h', sid', k', p', hd', -, hs', hp', -⟩ := hg
  rw [hd] at hd'
  cases hd'
  rw [hs] at hs'
  rw [hp] at hp'
  cases hs'
  cases hp'
  exact ⟨rfl, rfl⟩

/-- RXDGRAM writes a context exactly as the reassembler does, for a datagram that makes it take a
fragment. -/
theorem routeDatagram_reassembles {parse : List Byte → Option Fragment} {b : List Byte} {s : State}
    {i : Nat} {f : Fragment} (h : reassembles parse b s i f) :
    routeDatagram parse b s = (.toWaterfall i, emit (wfAccept i f (s.context i)).2
      (setContext i (wfAccept i f (s.context i)).1 s)) := by
  obtain ⟨hd, sid, k, p, hdec, h0, hs, hp, hv⟩ := h
  simp only [routeDatagram, hdec, routePacket, if_neg h0, hs, routeWaterfall, hp, wfApply,
    (fragmentError_none_iff f).2 hv]

/-- Every other RXDGRAM writes no register: it does nothing, logs one malformed packet, or hands the
payload to the audio output. -/
theorem routeDatagram_other {parse : List Byte → Option Fragment} {b : List Byte} {s : State}
    (h : ∀ i f, ¬ reassembles parse b s i f) :
    (routeDatagram parse b s).2 = s ∨
      (∃ sub, (routeDatagram parse b s).2 = raise (.malformedPacket sub) s) ∨
      (∃ p, (routeDatagram parse b s).2 = sendRxa p s) := by
  rcases routeDatagram_routes parse b s with ⟨sub, -, e⟩ | ⟨hd, sid, k, p, hdec, ⟨-, e⟩ |
    ⟨h0, i, hi, ⟨-, e⟩ | ⟨f, hf, e⟩⟩ | ⟨-, -, ⟨-, e⟩ | ⟨-, e⟩⟩⟩ <;> rw [e]
  · exact .inr (.inl ⟨sub, rfl⟩)
  · exact .inl rfl
  · exact .inr (.inl ⟨.tileParse, rfl⟩)
  · rcases wfApply_cases i f s with ⟨sub, -, e'⟩ | ⟨hv, -⟩
    · exact .inr (.inl ⟨sub, by rw [e']⟩)
    · exact absurd ⟨hd, sid, k, p, hdec, h0, hi, hf, (fragmentError_none_iff f).1 hv⟩ (h i f)
  · exact .inr (.inr ⟨p, rfl⟩)
  · exact .inl rfl

/-! ## Every instruction -/

/-- What an instruction does when it is not refused. -/
def InstrEffect (s t : State) : Instr → Prop
  | .decode b => t = deliver (.decode (decodePacket b)) s
  | .encode h sid k p => t = deliver (.encode (encodePacket h sid k p)) s
  | .txpkt p => (s.sid.tx = 0 ∧ t = deliver (.txpkt false) s) ∨
      (s.sid.tx ≠ 0 ∧ t = deliver (.txpkt true)
        (sendTx (txPacket s.cfg.txTmpl s.txSeq s.sid.tx p) { s with txSeq := s.txSeq + 1 }))
  | .txinit => t = { s with txSeq := 0 }
  | .rxdgram b => t = deliver (.rxdgram (routeDatagram Config.tileParse b s).1)
      (routeDatagram Config.tileParse b s).2
  | .sidset slot v => slotLegal slot s = true ∧ t = setSlot slot v s
  | .wffrag c f => c.toNat < s.cfg.nWf ∧
      t = deliver (.wffrag (wfApply c.toNat f s).1) (wfApply c.toNat f s).2
  | .rbins e => t = insertElem e s
  | .rbpop => (s.rb.size = 0 ∧ t = deliver (.rbpop none) s) ∨
      (s.rb.size ≠ 0 ∧ t = deliver (.rbpop (some (Memory.read s.rb.mem s.rb.tail)))
        { s with rb := { s.rb with tail := (s.rb.tail + 1) % s.cfg.rbCap, size := s.rb.size - 1 } })
  | .rbsize => t = deliver (.rbsize s.rb.size) s
  | .rbclr => t = { s with rb := ringClear s.cfg.rbCap s.rb }
  | .pushb vs => s.pb.state = .idle ∧ t = pbStart vs s
  | .read m => m ≠ 0 ∧ s.rd.state = .idle ∧ t = rdStart m s
  | .daset => t = signalSet s
  | .dawait => t = signalTake s ∨ (waitEnabled s = false ∧ t = s)
  | .closeStream => t = { s with closed := true }
  | .openStream => t = { s with closed := false }

/-- What `exec` can do: refuse the command, or what the instruction does. -/
theorem exec_cases {i : Instr} {s t : State} (h : exec i s = .next t) :
    t = raise (.illegalCommand i.word) s ∨ InstrEffect s t i := by
  cases i <;> simp only [exec] at h
  case decode | txinit | rxdgram | rbins | rbsize | rbclr | daset | closeStream | openStream =>
    cases h
    exact .inr rfl
  case encode =>
    unfold execEncode at h
    split at h <;> cases h
    · exact .inr rfl
    · exact .inl rfl
  case txpkt =>
    unfold execTxpkt at h
    split at h
    · split at h <;> cases h
      · exact .inr (.inl ⟨‹_›, rfl⟩)
      · exact .inr (.inr ⟨‹_›, rfl⟩)
    · cases h
      exact .inl rfl
  case sidset =>
    unfold execSidset at h
    split at h <;> cases h
    · exact .inr ⟨‹_›, rfl⟩
    · exact .inl rfl
  case wffrag =>
    unfold execWffrag at h
    split at h <;> cases h
    · exact .inr ⟨by simpa [contextLegal] using ‹contextLegal _ _ = true›, rfl⟩
    · exact .inl rfl
  case rbpop =>
    unfold execRbpop at h
    rcases ringPop_eq s.cfg.rbCap s.rb with ⟨h0, e⟩ | ⟨h0, e⟩ <;> rw [e] at h <;> cases h
    · exact .inr (.inl ⟨h0, rfl⟩)
    · exact .inr (.inr ⟨h0, rfl⟩)
  case pushb =>
    unfold execPushb at h
    split at h <;> cases h
    · exact .inr ⟨by simpa [pushbLegal] using ‹pushbLegal s = true›, rfl⟩
    · exact .inl rfl
  case read m =>
    unfold execRead at h
    split at h <;> cases h
    · rename_i hl
      simp only [readLegal, Bool.and_eq_true, decide_eq_true_eq] at hl
      exact .inr ⟨hl.1, hl.2, rfl⟩
    · exact .inl rfl
  case dawait =>
    unfold execDawait at h
    split at h <;> cases h
    · exact .inr (.inl rfl)
    · exact .inr (.inr ⟨by simpa using ‹¬ waitEnabled s = true›, rfl⟩)

/-! ## The sequencers -/

/-- A batch takes its next micro-step by PB_STATE. -/
theorem pbStep_cases (s : State) :
    (s.pb.state = .idle ∧ pbStep s = s) ∨ (s.pb.state = .check ∧ pbStep s = pbCheck s) ∨
      (s.pb.state = .insert ∧ pbStep s = pbInsert s) ∨
      (s.pb.state = .done ∧ pbStep s = pbDone s) := by
  unfold pbStep
  cases s.pb.state <;> simp

/-- A read takes its next micro-step by RD_STATE. -/
theorem rdStep_cases (s : State) :
    (s.rd.state = .idle ∧ rdStep s = s) ∨ (s.rd.state = .fill ∧ rdStep s = rdFill s) ∨
      (s.rd.state = .check ∧ rdStep s = rdCheck s) ∨
      (s.rd.state = .wait ∧ rdStep s = rdWait s) ∨
      (s.rd.state = .woken ∧ rdStep s = rdWoken s) := by
  unfold rdStep
  cases s.rd.state <;> simp

@[simp] theorem advanceN_zero (q : Sequencer) (s : State) : advanceN q 0 s = s := rfl

theorem advanceN_succ (q : Sequencer) (n : Nat) (s : State) :
    advanceN q (n + 1) s = advanceN q n (advanceTurn q s) := rfl

theorem advanceN_add (q : Sequencer) :
    ∀ (n k : Nat) (s : State), advanceN q (n + k) s = advanceN q k (advanceN q n s)
  | 0, k, s => by simp
  | n + 1, k, s => by
    rw [show n + 1 + k = (n + k) + 1 by omega, advanceN_succ, advanceN_succ,
      advanceN_add q n k]

/-! ## The decoder -/

/-- The bytes of a byte record are as many as `imm` says. -/
theorem bytesOperand_some {imm : BitVec 16} {items : List DataItem} {bs : List Byte}
    (h : bytesOperand imm items = some bs) : allBytes items = some bs ∧ bs.length = imm.toNat := by
  unfold bytesOperand at h
  split at h
  · rename_i cs hcs
    split at h
    · cases h
      exact ⟨hcs, ‹_›⟩
    · cases h
  · cases h

/-- The samples of a sample record are as many as `imm` says. -/
theorem samplesOperand_some {imm : BitVec 16} {items : List DataItem} {vs : List Sample}
    (h : samplesOperand imm items = some vs) :
    allSamples items = some vs ∧ vs.length = imm.toNat := by
  unfold samplesOperand at h
  split at h
  · rename_i cs hcs
    split at h
    · cases h
      exact ⟨hcs, ‹_›⟩
    · cases h
  · cases h

/-- A command that decodes has a legal word and the record of its row. -/
theorem decodeCommand_ok {c : Command} {i : Instr} (h : decodeCommand c = .ok i) :
    ∃ op, decodeWord c.word = .ok op ∧
      assemble op (idxField c.word) (immField c.word) c.items = some i := by
  unfold decodeCommand at h
  split at h
  · cases h
  · rename_i op hop
    split at h
    · rename_i j hj
      cases h
      exact ⟨op, hop, hj⟩
    · cases h

/-! ## The turns and the step -/

/-- A step with a turn to take. -/
theorem step_turn {s : State} {t : Turn} {ts : List Turn} (h : s.env.turns = t :: ts) :
    step s = takeTurn t (withTurns ts s) := by
  unfold step
  rw [h]

/-- The agents that may issue: all but CONS while its READ is held (rule R233). -/
theorem agentHeld_eq_false (a : Agent) (s : State) : agentHeld a s = false ↔
    a ≠ .cons ∨ s.rd.state ≠ .wait ∨ s.da = true ∨ s.closed = true := by
  cases a <;> cases hd : s.da <;> cases hc : s.closed <;>
    simp [agentHeld, readHeld, waitEnabled, hd, hc]

/-- The legality of a command reads neither the streams nor the turns. -/
@[simp] theorem fieldsLegal_env (op : Opcode) (idx : BitVec 8) (imm : BitVec 16) (s : State)
    (e : Inputs) : fieldsLegal op idx imm { s with env := e } = fieldsLegal op idx imm s := by
  cases op <;> rfl

/-- What an agent's turn to issue can do when it answers a next state: nothing (held, nothing to issue, a
held DAWAIT), carry out the command that its stream's first entry decodes to, or refuse it. -/
theorem issueTurn_cases {a : Agent} {s s' : State} (h : issueTurn a s = .next s') :
    s' = s ∨
      (∃ c cs i, s.env.stream a = c :: cs ∧ decodeCommand c = .ok i ∧
        instrEnabled i s = true ∧ exec i (withStream a cs s) = .next s') ∨
      (∃ c cs, s.env.stream a = c :: cs ∧
        s' = raise (.illegalCommand c.word) (withStream a cs s)) := by
  unfold issueTurn at h
  split at h
  · cases h
    exact .inl rfl
  · split at h
    · cases h
      exact .inl rfl
    · rename_i c cs hc
      unfold issueCommand at h
      split at h
      · rename_i i hi
        split at h
        · rename_i he
          exact .inr (.inl ⟨c, cs, i, hc, hi, he, h⟩)
        · cases h
          exact .inl rfl
      · cases h
        exact .inr (.inr ⟨c, cs, hc, rfl⟩)
      · cases h
        exact .inr (.inr ⟨c, cs, hc, rfl⟩)
      · unfold badRecord at h
        split at h
        · cases h
        · cases h
          exact .inr (.inr ⟨c, cs, hc, rfl⟩)

/-- What one turn can do when it answers a next state. -/
theorem takeTurn_cases {t : Turn} {s s' : State} (h : takeTurn t s = .next s') :
    (∃ a, t = .issue a ∧ issueTurn a s = .next s') ∨
      (∃ q, t = .advance q ∧ s' = advanceTurn q s) ∨
      (t = .reset ∧ s' = applyReset s) ∨
      (∃ e, t = .external e ∧ s' = raise e.record s) := by
  cases t with
  | issue a => exact .inl ⟨a, rfl, h⟩
  | advance q =>
    cases h
    exact .inr (.inl ⟨q, rfl, rfl⟩)
  | reset =>
    cases h
    exact .inr (.inr (.inl ⟨rfl, rfl⟩))
  | external e =>
    cases h
    exact .inr (.inr (.inr ⟨e, rfl, rfl⟩))

/-- What a step can do when it answers a next state: wait, or take the first turn. -/
theorem step_cases {s s' : State} (h : step s = .next s') :
    (s.env.turns = [] ∧ s' = s) ∨
      (∃ t ts, s.env.turns = t :: ts ∧ takeTurn t (withTurns ts s) = .next s') := by
  unfold step at h
  split at h
  · cases h
    exact .inl ⟨‹_›, rfl⟩
  · rename_i t ts ht
    exact .inr ⟨t, ts, ht, h⟩

/-! ## Runs -/

@[simp] theorem execAll_nil (s : State) : execAll [] s = .next s := rfl

theorem execAll_cons {i : Instr} {is : List Instr} {s t : State} (h : exec i s = .next t) :
    execAll (i :: is) s = execAll is t := by
  rw [execAll, h]

/-! ## What a move does on the way of the elements -/

/-- What a move does to the configuration, RD_OUT, RD_N and the ring: it leaves the ring as it is, or is one RBINS of
the element it inserts, or one RBPOP of the element it takes out. -/
structure MoveEffect (m : Move) (s t : State) : Prop where
  cfg : t.cfg = s.cfg
  out_wf : Memory.wf t.rd.out = true
  ring : (t.rb = s.rb ∧ moveIn m s t = [] ∧ moveOut m s t = []) ∨
    (∃ e, t.rb = ringInsert s.cfg.rbCap e s.rb ∧ moveIn m s t = [e] ∧ moveOut m s t = []) ∨
    ∃ e, ringPop s.cfg.rbCap s.rb = some (e, t.rb) ∧ moveIn m s t = [] ∧ moveOut m s t = [e]
  read : m ≠ .instr .rbpop → (∀ c, m ≠ .instr (.read c)) →
    Memory.readList t.rd.out 0 t.rd.n = Memory.readList s.rd.out 0 s.rd.n ++ moveOut m s t

/-- An RXDGRAM leaves everything but the waterfall contexts and the traces, and delivers nothing of its own. -/
theorem routeDatagram_frame (parse : List Byte → Option Fragment) (b : List Byte) (s : State) :
    (routeDatagram parse b s).2.cfg = s.cfg ∧ (routeDatagram parse b s).2.rb = s.rb ∧
      (routeDatagram parse b s).2.rd = s.rd ∧
      (routeDatagram parse b s).2.out.dataOut = s.out.dataOut := by
  rcases routeDatagram_cases parse b s with e | ⟨sub, e⟩ | ⟨p, e⟩ | ⟨i, f, -, e⟩ <;> rw [e]
  · exact ⟨rfl, rfl, rfl, rfl⟩
  · exact ⟨rfl, rfl, rfl, rfl⟩
  · exact ⟨rfl, rfl, rfl, rfl⟩
  · rcases wfApply_cases i f s with ⟨sub, -, e'⟩ | ⟨-, e'⟩ <;> rw [e'] <;> exact ⟨rfl, rfl, rfl, rfl⟩

/-- An instruction other than RBINS, RBPOP and RBCLR leaves the ring and RD_OUT as they are and takes no element
out. -/
theorem exec_ring_same {i : Instr} {s t : State} (h : exec i s = .next t) (hi : ∀ e, i ≠ .rbins e)
    (hp : i ≠ .rbpop) (hc : i ≠ .rbclr) :
    t.cfg = s.cfg ∧ t.rb = s.rb ∧ t.rd.out = s.rd.out ∧ ((∀ c, i ≠ .read c) → t.rd = s.rd) ∧
      (t.out.dataOut = s.out.dataOut ∨
        ∃ r, r.popped = none ∧ t.out.dataOut = s.out.dataOut ++ [r]) := by
  rcases exec_cases h with rfl | he
  · exact ⟨rfl, rfl, rfl, fun _ => rfl, .inl rfl⟩
  · cases i <;> simp only [InstrEffect] at he
    case decode | encode | rbsize =>
      subst he
      exact ⟨rfl, rfl, rfl, fun _ => rfl, .inr ⟨_, rfl, rfl⟩⟩
    case txpkt =>
      rcases he with ⟨-, rfl⟩ | ⟨-, rfl⟩ <;>
        exact ⟨rfl, rfl, rfl, fun _ => rfl, .inr ⟨_, rfl, rfl⟩⟩
    case txinit | daset | closeStream | openStream =>
      subst he
      exact ⟨rfl, rfl, rfl, fun _ => rfl, .inl rfl⟩
    case rxdgram b =>
      subst he
      obtain ⟨h1, h2, h3, h4⟩ := routeDatagram_frame Config.tileParse b s
      exact ⟨h1, h2, congrArg ReadSeq.out h3, fun _ => h3,
        .inr ⟨_, rfl, congrArg (· ++ _) h4⟩⟩
    case sidset slot v =>
      obtain ⟨-, rfl⟩ := he
      cases slot <;> exact ⟨rfl, rfl, rfl, fun _ => rfl, .inl rfl⟩
    case wffrag c f =>
      obtain ⟨-, rfl⟩ := he
      rcases wfApply_cases c.toNat f s with ⟨sub, -, e⟩ | ⟨-, e⟩ <;> rw [e] <;>
        exact ⟨rfl, rfl, rfl, fun _ => rfl, .inr ⟨_, rfl, rfl⟩⟩
    case rbins e => exact absurd rfl (hi e)
    case rbpop => exact absurd rfl hp
    case rbclr => exact absurd rfl hc
    case pushb =>
      obtain ⟨-, rfl⟩ := he
      exact ⟨rfl, rfl, rfl, fun _ => rfl, .inl rfl⟩
    case read c =>
      obtain ⟨-, -, rfl⟩ := he
      exact ⟨rfl, rfl, rfl, fun hr => absurd rfl (hr c), .inl rfl⟩
    case dawait =>
      rcases he with rfl | ⟨-, rfl⟩ <;> exact ⟨rfl, rfl, rfl, fun _ => rfl, .inl rfl⟩

/-- RBINS alone among the instructions inserts. -/
theorem moveIn_instr {i : Instr} (h : ∀ e, i ≠ .rbins e) (s t : State) :
    moveIn (.instr i) s t = [] := by
  cases i <;> first | rfl | exact absurd rfl (h _)

/-- What an instruction other than RBCLR does on the way of the elements. -/
theorem moveEffect_instr {i : Instr} {s t : State} (hw : Memory.wf s.rd.out = true)
    (hc : i ≠ .rbclr) (h : exec i s = .next t) : MoveEffect (.instr i) s t := by
  by_cases hi : ∃ e, i = .rbins e
  · obtain ⟨e, rfl⟩ := hi
    cases h
    refine ⟨rfl, hw, .inr (.inl ⟨e, rfl, rfl, ?_⟩), fun _ _ => ?_⟩ <;> simp [moveOut, insertElem]
  have hi' : ∀ e, i ≠ .rbins e := fun e he => hi ⟨e, he⟩
  by_cases hp : i = .rbpop
  · subst hp
    rcases exec_cases h with rfl | ⟨h0, rfl⟩ | ⟨h0, rfl⟩
    · exact ⟨rfl, hw, .inl ⟨rfl, rfl, by simp [moveOut]⟩, fun hn => absurd rfl hn⟩
    · exact ⟨rfl, hw, .inl ⟨rfl, rfl, by simp [moveOut, Result.popped]⟩, fun hn => absurd rfl hn⟩
    · exact ⟨rfl, hw, .inr (.inr ⟨Memory.read s.rb.mem s.rb.tail, if_neg h0, rfl,
        by simp [moveOut, Result.popped]⟩), fun hn => absurd rfl hn⟩
  obtain ⟨h1, h2, h3, h4, h5⟩ := exec_ring_same h hi' hp hc
  have ho : moveOut (.instr i) s t = [] := by
    rcases h5 with e | ⟨r, hr, e⟩ <;> simp [moveOut, e]
    exact hr
  refine ⟨h1, by rw [h3]; exact hw, .inl ⟨h2, moveIn_instr hi' s t, ho⟩, fun _ hr => ?_⟩
  rw [h4 fun c e => hr c (congrArg Move.instr e), ho, List.append_nil]

/-- What a micro-step of PUSHB does on the way of the elements: its insert step is one RBINS. -/
theorem moveEffect_pushb {s : State} (hw : Memory.wf s.rd.out = true) :
    MoveEffect (.micro .pushb) s (pbStep s) := by
  rcases pbStep_cases s with ⟨-, e⟩ | ⟨-, e⟩ | ⟨-, e⟩ | ⟨-, e⟩ <;> rw [e]
  · exact ⟨rfl, hw, .inl ⟨rfl, by simp [moveIn], rfl⟩, fun _ _ => by simp [moveOut]⟩
  · unfold pbCheck
    split <;>
      exact ⟨rfl, hw, .inl ⟨rfl, by simp [moveIn], rfl⟩, fun _ _ => by simp [moveOut]⟩
  · exact ⟨rfl, hw, .inr (.inl ⟨f32 (pbSample s), rfl, by simp [moveIn, pbInsert, pbSample], rfl⟩),
      fun _ _ => by simp [moveOut, pbInsert]⟩
  · unfold pbDone
    split <;>
      exact ⟨rfl, hw, .inl ⟨rfl, by simp [moveIn, signalSet], rfl⟩,
        fun _ _ => by simp [moveOut, signalSet]⟩

/-- What a micro-step of READ does on the way of the elements: its fill step is at most one RBPOP. -/
theorem moveEffect_read {s : State} (hw : Memory.wf s.rd.out = true) :
    MoveEffect (.micro .read) s (rdStep s) := by
  have same : ∀ t : State, t.cfg = s.cfg → t.rb = s.rb → t.rd.out = s.rd.out → t.rd.n = s.rd.n →
      MoveEffect (.micro .read) s t := fun t h1 h2 h3 h4 =>
    ⟨h1, by rw [h3]; exact hw, .inl ⟨h2, rfl, by simp [moveOut, h4]⟩,
      fun _ _ => by simp [moveOut, h3, h4]⟩
  rcases rdStep_cases s with ⟨-, e⟩ | ⟨-, e⟩ | ⟨-, e⟩ | ⟨-, e⟩ | ⟨-, e⟩ <;> rw [e]
  · exact same _ rfl rfl rfl rfl
  · unfold rdFill
    split
    · exact same _ rfl rfl rfl rfl
    · rcases ringPop_eq s.cfg.rbCap s.rb with ⟨-, hp⟩ | ⟨-, hp⟩ <;> rw [hp]
      · exact same _ rfl rfl rfl rfl
      · refine ⟨rfl, Memory.write_wf hw _ _, .inr (.inr ⟨_, hp, rfl, ?_⟩), fun _ _ => ?_⟩
        · simp [moveOut, Memory.read_write_same hw]
        · simp only [moveOut, if_pos, Memory.read_write_same hw]
          rw [Memory.readList_append, Nat.zero_add, Memory.readList_succ, Memory.readList_zero,
            Memory.read_write_same hw]
          congr 1
          apply Memory.readList_congr
          intro k _ hk
          exact Memory.read_write_other (by omega)
  · unfold rdCheck
    split
    · exact same _ rfl rfl rfl rfl
    · split <;> exact same _ rfl rfl rfl rfl
  · unfold rdWait
    split <;> exact same _ rfl rfl rfl rfl
  · unfold rdWoken
    split <;> exact same _ rfl rfl rfl rfl

/-- What every move but RBCLR does on the way of the elements. -/
theorem moveEffect {m : Move} {s t : State} (hw : Memory.wf s.rd.out = true)
    (hm : m ≠ .instr .rbclr) (h : m.carry s = .next t) : MoveEffect m s t := by
  cases m with
  | instr i => exact moveEffect_instr hw (fun e => hm (congrArg Move.instr e)) h
  | micro q =>
    cases q <;> cases h
    · exact moveEffect_pushb hw
    · exact moveEffect_read hw

end Sys2Proof.Machine
end

