-- ==== Sys2Proof/Tests/Slice0.lean ====
section
/-! SUPPORT. The model's own tests: well-formedness, decoding of words written out from rules R95 and R100,
one-step vectors of 95_test_vectors.md (VC, VT, VR, VW, VB, VF and S labels are that file's), and for every
statement with hypotheses a concrete case that meets them. -/

namespace Sys2Proof.Tests

open Sys2Proof Sys2Proof.Machine

/-! ## Small states -/

/-- TX_TMPL of vector VT2, an example value. -/
def tmpl : TxTemplate :=
  { pktType := 3, c := true, t := false, tsi := 0, tsf := 0, oui := 0x001C2D, infoClass := 0x534C,
    packetClass := 0x8005 }

/-- Reset with a ring of `n` elements and one waterfall context. -/
def start (n : Nat) : State := State.resetWith { rbCap := n, nWf := 1, txTmpl := tmpl }

/-- The state an outcome answers, `start 4` where it answers none. -/
def after (o : Host.Outcome State Fault Refusal) : State :=
  match o with
  | .next t => t
  | .fault _ => start 4
  | .refused _ => start 4

/-- The state a list of instructions leaves. -/
def ran (is : List Instr) (s : State) : State := after (execAll is s)

/-- Agent `a` is to issue the one command `c`. -/
def issuing (a : Agent) (c : Command) (s : State) : State :=
  { s with env := { s.env.setStream a [c] with turns := [.issue a] } }

/-- A unit outside the block is to log an error. -/
def logging (e : ExternalError) : State :=
  { start 4 with env := { Inputs.none with turns := [.external e] } }

/-- The sample of an integer. -/
def pcm (i : Int) : Sample := BitVec.ofInt 16 i

/-- A fragment from its fields. -/
def frag (total first width tc low bw abl : Nat) (bins : List Bin) : Fragment :=
  { total := BitVec.ofNat 16 total, first := BitVec.ofNat 16 first, width := BitVec.ofNat 16 width,
    timecode := BitVec.ofNat 32 tc, low := BitVec.ofNat 64 low, bw := BitVec.ofNat 64 bw,
    abl := BitVec.ofNat 32 abl, bins := bins }

/-! ## Well-formedness: an ill-formed term for each check, and its legal neighbour -/

theorem test_wf_decode : (Instr.decode (List.replicate 65536 0)).wf = false ∧
    (Instr.decode (List.replicate 65535 0)).wf = true := by
  simp only [Instr.wf, List.length_replicate]; decide

theorem test_wf_encode (h : Header) (sid : Word) (k : ClassIdArg) :
    (Instr.encode h sid k (List.replicate 65508 0)).wf = false ∧
    (Instr.encode h sid k (List.replicate 65507 0)).wf = true := by
  simp only [Instr.wf, List.length_replicate]; decide

theorem test_wf_txpkt : (Instr.txpkt (List.replicate 65508 0)).wf = false ∧
    (Instr.txpkt (List.replicate 65507 0)).wf = true := by
  simp only [Instr.wf, List.length_replicate]; decide

theorem test_wf_rxdgram : (Instr.rxdgram (List.replicate 65536 0)).wf = false ∧
    (Instr.rxdgram (List.replicate 65535 0)).wf = true := by
  simp only [Instr.wf, List.length_replicate]; decide

theorem test_wf_wffrag : (Instr.wffrag 254 Fragment.zero).wf = false ∧
    (Instr.wffrag 253 Fragment.zero).wf = true := by decide

theorem test_wf_pushb : (Instr.pushb (List.replicate 65536 0)).wf = false ∧
    (Instr.pushb (List.replicate 65535 0)).wf = true := by
  simp only [Instr.wf, List.length_replicate]; decide

theorem test_wf_read : (Instr.read 0).wf = false ∧ (Instr.read 1).wf = true ∧
    (Instr.read 0xFFFF).wf = true := by decide

/-! ## Decoding: one word, written out, for every row of rule R100 -/

theorem test_word_decode :
    decodeCommand ⟨0x01000002, [.byte 0x38, .byte 0x05]⟩ = .ok (.decode [0x38, 0x05]) := by decide

/-- The word of VC2 and its operand record. -/
theorem test_word_encode :
    decodeCommand ⟨0x02000000, [.header ⟨1, false, false, 0, 0, 0, 0⟩, .word 0x40000000,
      .classId ⟨0x123456, 0xABCD, 0xEF01⟩]⟩ =
    .ok (.encode ⟨1, false, false, 0, 0, 0, 0⟩ 0x40000000 ⟨0x123456, 0xABCD, 0xEF01⟩ []) := by decide

/-- The word of VT1. -/
theorem test_word_txpkt : decodeCommand ⟨0x03000001, [.byte 1]⟩ = .ok (.txpkt [1]) := by decide

/-- The word of VT4. -/
theorem test_word_txinit : decodeTableWord 32 0x04000000 = some .txinit := by decide

theorem test_word_rxdgram :
    decodeCommand ⟨0x08000003, [.byte 1, .byte 2, .byte 3]⟩ = .ok (.rxdgram [1, 2, 3]) := by decide

/-- The words of programs P1, P2 and P5: RXA, context 0, TX. -/
theorem test_word_sidset :
    decodeCommand ⟨0x09FE0000, [.word 0x04000008]⟩ = .ok (.sidset .rxa 0x04000008) ∧
    decodeCommand ⟨0x09000000, [.word 0x42000000]⟩ = .ok (.sidset (.wf 0) 0x42000000) ∧
    decodeCommand ⟨0x09FF0000, [.word 0x0400000A]⟩ = .ok (.sidset .tx 0x0400000A) := by decide

theorem test_word_wffrag :
    decodeCommand ⟨0x10050000, [.fragment (frag 4 0 1 9 7 3 77 [10])]⟩ =
      .ok (.wffrag 5 (frag 4 0 1 9 7 3 77 [10])) := by decide

/-- The word of VB1. -/
theorem test_word_rbins : decodeCommand ⟨0x20000000, [.word 0xA1]⟩ = .ok (.rbins 0xA1) := by decide

theorem test_word_rbpop : decodeTableWord 32 0x21000000 = some .rbpop := by decide

theorem test_word_rbsize : decodeTableWord 32 0x22000000 = some .rbsize := by decide

theorem test_word_rbclr : decodeTableWord 32 0x23000000 = some .rbclr := by decide

/-- The word of VF2. -/
theorem test_word_pushb :
    decodeCommand ⟨0x30000003, [.sample 0, .sample 0x4000, .sample 0x8000]⟩ =
      .ok (.pushb [0, 0x4000, 0x8000]) := by decide

theorem test_word_read : decodeTableWord 32 0x31000010 = some (.read 16) := by decide

theorem test_word_daset : decodeTableWord 32 0x32000000 = some .daset := by decide

theorem test_word_dawait : decodeTableWord 32 0x33000000 = some .dawait := by decide

theorem test_word_closeStream : decodeTableWord 32 0x34000000 = some .closeStream := by decide

theorem test_word_openStream : decodeTableWord 32 0x35000000 = some .openStream := by decide

/-- Section 2.6: reserved opcodes, by name. -/
theorem test_reserved_opcodes :
    decodeWord 0x00000000 = .error (.reservedOpcode 0x00) ∧
    decodeWord 0x05000000 = .error (.reservedOpcode 0x05) ∧
    decodeWord 0x24000000 = .error (.reservedOpcode 0x24) ∧
    decodeWord 0x36000000 = .error (.reservedOpcode 0x36) ∧
    decodeWord 0xFF000000 = .error (.reservedOpcode 0xFF) := by decide

/-- Section 2.6: fields a format requires to be 0, by name. -/
theorem test_format_fields :
    decodeWord 0x21000001 = .error (.formatField .rbpop) ∧
    decodeWord 0x20010000 = .error (.formatField .rbins) ∧
    decodeWord 0x09000001 = .error (.formatField .sidset) ∧
    decodeWord 0x01010000 = .error (.formatField .decode) := by decide

/-- A record that is not the one rule R96 gives the operation. -/
theorem test_operand_record :
    decodeCommand ⟨0x03000002, [.byte 1]⟩ = .error (.operandRecord .txpkt) ∧
    decodeCommand ⟨0x21000000, [.word 0]⟩ = .error (.operandRecord .rbpop) := by decide

/-! ## CODEC and the TX sequencer -/

/-- The header of VC1. -/
def header1 : Header :=
  { pktType := 3, c := true, t := false, tsi := 0, tsf := 0, count := 5, size := 10 }

/-- The 38 bytes of VC1. -/
def packet1 : List Byte :=
  [0x38, 0x05, 0x00, 0x0A, 0x04, 0x00, 0x00, 0x08, 0x00, 0x00, 0x1C, 0x2D, 0x53, 0x4C, 0x80, 0x05,
   0, 0, 0, 0, 0, 0, 0, 0, 0, 0, 0, 0, 0xDE, 0xAD, 0xBE, 0xEF, 1, 2, 3, 4, 5, 6]

/-- The payload of VC1. -/
def payload1 : List Byte := [0xDE, 0xAD, 0xBE, 0xEF, 1, 2, 3, 4, 5, 6]

/-- VC1, and the OUI mask of VC5. -/
theorem test_encode_bytes :
    (after (exec (.encode header1 0x04000008 ⟨0xAB001C2D, 0x534C, 0x8005⟩ payload1)
      (start 4))).out.dataOut = [.encode packet1] := by decide

/-- VC3: every field at its maximum. -/
theorem test_encode_maximum :
    encodePacket ⟨15, true, true, 15, 3, 15, 0⟩ 0xFFFFFFFF ⟨0xFFFFFF, 0xFFFF, 0xFFFF⟩ [0x55] =
      [0xFF, 0xFF, 0x00, 0x08, 0xFF, 0xFF, 0xFF, 0xFF, 0x00, 0xFF, 0xFF, 0xFF, 0xFF, 0xFF, 0xFF, 0xFF,
       0, 0, 0, 0, 0, 0, 0, 0, 0, 0, 0, 0, 0x55] := by decide

/-- VC6: ignored bits on decode. -/
theorem test_decode_fields :
    (after (exec (.decode [0x10, 0x00, 0x00, 0x08, 0x40, 0x00, 0x00, 0x00, 0xEE, 0x12, 0x34, 0x56,
      0xAB, 0xCD, 0xEF, 0x01, 0xB0, 0xB1, 0xB2, 0xB3, 0xB4, 0xB5, 0xB6, 0xB7, 0xB8, 0xB9, 0xBA, 0xBB,
      0x77, 0x88]) (start 4))).out.dataOut =
    [.decode (.ok ⟨1, false, false, 0, 0, 0, 8⟩ 0x40000000 ⟨0x123456, 0xABCD, 0xEF01⟩
      [0x77, 0x88])] := by decide

/-- The packet of VC8, cut to `n` bytes. -/
def cut8 (n : Nat) : List Byte :=
  ([0x38, 0x00, 0x00, 0x09] ++ List.replicate 24 0 ++ [1, 2, 3, 4, 5, 6, 7, 8]).take n

/-- VC8, VC9: the shortfall ladder and a size below 7. -/
theorem test_decode_failures :
    decodePacket (cut8 27) = .fail .short ∧ decodePacket (cut8 28) = .fail .truncated ∧
    decodePacket (cut8 32) = .fail .truncated ∧
    decodePacket (cut8 33) = .ok ⟨3, true, false, 0, 0, 0, 9⟩ 0 ⟨0, 0, 0⟩ [1, 2, 3, 4, 5] ∧
    decodePacket ([0x38, 0x00, 0x00, 0x06] ++ List.replicate 24 0) = .fail .sizeLt7 := by decide

/-- The configuration of VT2. -/
def sending (seq : BitVec 4) : State :=
  { start 4 with sid := { wf := [0], rxa := 0, tx := 0x04000008 }, txSeq := seq }

/-- VT2. -/
theorem test_txpkt_sends :
    (after (exec (.txpkt payload1) (sending 5))).out.txOut = [packet1] ∧
    (after (exec (.txpkt payload1) (sending 5))).txSeq = 6 := by decide

/-- VT1, and the wrap of VT3. -/
theorem test_txpkt_edges :
    (after (exec (.txpkt [1]) (start 4))).out = { Traces.start with dataOut := [.txpkt false] } ∧
    (after (exec (.txpkt [1]) (sending 15))).txSeq = 0 := by decide

/-- VT4. -/
theorem test_txinit : (after (exec .txinit (sending 9))).txSeq = 0 := by decide

/-! ## ROUTER -/

/-- The configuration of section 2.2. -/
def routing : State :=
  { start 4 with sid := { wf := [0x42000000], rxa := 0x04000008, tx := 0x0400000A } }

/-- A datagram of 28 bytes for a StreamID. -/
def dgramTo (sid : Word) : List Byte := [0x38, 0x05, 0x00, 0x07] ++ bytesBe32 sid ++ List.replicate 20 0

/-- VR1 and VR2. -/
theorem test_rxdgram_routes :
    (after (exec (.rxdgram packet1) routing)).out =
      { Traces.start with rxaOut := [payload1], dataOut := [.rxdgram .toRxAudio] } ∧
    (after (exec (.rxdgram (dgramTo 0x99)) routing)).out =
      { Traces.start with dataOut := [.rxdgram .droppedUnrouted] } := by decide

/-- VR4, VR5, VR6: malformed, a tile that does not parse, the TX slot. -/
theorem test_rxdgram_drops :
    (after (exec (.rxdgram (List.replicate 27 0)) routing)).out.err = [.malformedPacket .short] ∧
    (routeDatagram (fun _ => none) (dgramTo 0x42000000) routing).2.out.err =
      [.malformedPacket .tileParse] ∧
    (after (exec (.rxdgram (dgramTo 0x0400000A)) routing)).out.dataOut =
      [.rxdgram .droppedUnrouted] := by decide

/-- VR7: SIDSET of the value a slot holds resets its context, with no event. -/
theorem test_sidset_resets_context :
    after (exec (.sidset (.wf 0) 0x42000000)
      (setContext 0 { WfContext.reset with total := 4, tcv := true, filled := 4 } routing)) =
    routing := by decide

/-- Section 2.6: SIDSET idx 1 and idx 0xFD with N_WF = 1. -/
theorem test_sidset_illegal :
    (after (exec (.sidset (.wf 1) 5) routing)).out.err = [.illegalCommand 0x09010000] ∧
    (after (exec (.sidset (.wf 253) 5) routing)).out.err = [.illegalCommand 0x09FD0000] := by decide

/-! ## WFR -/

/-- VW1. -/
theorem test_wffrag_frame :
    (after (exec (.wffrag 0 (frag 4 0 4 9 14000000 999 77 [10, 20, 30, 40])) (start 4))).out.evt =
      [.binsConfigured 0 4, .dataRangeChanged 0 14000000 14003000,
       .rowReceived 0 [10, 20, 30, 40] 77] := by decide

/-- S8: the reported range of VW1, 14.000 to 14.003 MHz exactly. -/
theorem test_reported_range :
    Event.range? (.dataRangeChanged 0 14000000 14003000) = some (14, 14003 / 1000) := by
  simp [Event.range?, mhzOf]; norm_num

/-- VW5: the abandoned frame's bins stay, and the row comes after the last fragment. -/
theorem test_wffrag_abandoned :
    (ran [.wffrag 0 (frag 4 0 2 1 100 9 0 [1, 2]), .wffrag 0 (frag 4 2 2 2 200 9 0 [7, 8]),
      .wffrag 0 (frag 4 0 2 2 200 9 55 [5, 6])] (start 4)).out.evt =
      [.binsConfigured 0 4, .dataRangeChanged 0 100 130, .dataRangeChanged 0 200 230,
       .rowReceived 0 [5, 6, 7, 8] 55] := by decide

/-! ## RB, N = 4 -/

/-- VB1. -/
theorem test_rbpop_oldest :
    (ran [.rbins 0xA1, .rbins 0xA2, .rbins 0xA3, .rbsize, .rbpop, .rbsize] (start 4)).out.dataOut =
      [.rbsize 3, .rbpop (some 0xA1), .rbsize 2] := by decide

/-- VB3: the overwrite, then the second element. -/
theorem test_rbins_overwrites :
    (ran [.rbins 1, .rbins 2, .rbins 3, .rbins 4, .rbins 5] (start 4)).rb =
      { head := 1, tail := 1, size := 4, mem := [(0, 5), (1, 2), (2, 3), (3, 4)] } ∧
    (ran [.rbins 1, .rbins 2, .rbins 3, .rbins 4, .rbins 5, .rbpop] (start 4)).out.dataOut =
      [.rbpop (some 2)] := by decide

/-- VB4, and a pop of the empty ring. -/
theorem test_rbclr_empties :
    (ran [.rbins 1, .rbins 2, .rbclr, .rbpop] (start 4)).rb = Ring.reset ∧
    (ran [.rbins 1, .rbins 2, .rbclr, .rbpop] (start 4)).out.dataOut = [.rbpop none] := by decide

/-! ## FLOW -/

/-- VF1. -/
theorem test_f32 :
    [0, 1, -1, 2, 3, 256, 12345, -12345, 16384, -16384, 32767, -32767, -32768].map
      (fun i => f32 (pcm i)) =
    [0x00000000, 0x38000000, 0xB8000000, 0x38800000, 0x38C00000, 0x3C000000, 0x3EC0E400, 0xBEC0E400,
     0x3F000000, 0xBF000000, 0x3F7FFE00, 0xBF7FFE00, 0xBF800000] := by decide

/-- VF4: the margin on the smallest ring. -/
theorem test_pushb_margin :
    (advanceN .pushb 5 (ran [.pushb [1, 2]] (start 4))).out =
      { Traces.start with err := [.bufferOverflow 1], dataOut := [.pushb 1 1] } ∧
    (advanceN .pushb 5 (ran [.pushb [1, 2]] (start 4))).da = true := by decide

/-- VF5: an empty batch. -/
theorem test_pushb_empty :
    (advanceN .pushb 1 (ran [.pushb []] (start 4))).out.dataOut = [.pushb 0 0] ∧
    (advanceN .pushb 1 (ran [.pushb []] (start 4))).da = false := by decide

/-- VF6: a partial fill, little-endian, without waiting. -/
theorem test_read_partial :
    (advanceN .read 4 (ran [.rbins 0, .rbins 0x3F000000, .read 16] (start 4))).out.dataOut =
      [.read 2 false [0, 0, 0, 0, 0, 0, 0, 0x3F]] := by decide

/-- VF8: a held READ released by CLOSE. -/
theorem test_read_released :
    (advanceN .read 9 (ran [.read 4] (start 4))).rd.state = .wait ∧
    (advanceN .read 2 (ran [.closeStream] (advanceN .read 9 (ran [.read 4] (start 4))))).out.dataOut =
      [.read 0 true []] := by decide

/-- VF9. -/
theorem test_signal_is_not_counted :
    (ran [.daset] (start 4)).da = true ∧ (ran [.daset, .daset, .dawait] (start 4)).da = false ∧
    instrEnabled .dawait (ran [.daset, .daset, .dawait] (start 4)) = false := by decide

theorem test_close_open :
    (ran [.closeStream] (start 4)).closed = true ∧
    (ran [.closeStream, .openStream] (start 4)).closed = false := by decide

/-! ## The step -/

/-- A command as the host loads it, run as the first instruction after reset. -/
theorem test_step_fetches :
    (after (step ((start 4).withFetchWord 32 0x31000004))).rd =
      { state := .fill, m := 4, n := 0, out := [] } ∧
    (after (step ((start 4).withFetchWord 32 0x21000001))).out.err = [.illegalCommand 0x21000001] ∧
    (after (step (State.reset.withFetchWord 32 0x32000000))).da = true := by decide

/-- A record logged from outside, and a wrong operand record under an illegal word (rule R268). -/
theorem test_step_other :
    (after (step (logging .transportFailure))).out =
      { Traces.start with err := [.transportFailure] } ∧
    (after (step (issuing .host ⟨0x09010000, []⟩ (start 4)))).out.err =
      [.illegalCommand 0x09010000] := by decide

/-- The three commands of one row of section 2.6: a READ of no element, a second READ, a second PUSHB. -/
theorem test_sequencers_refuse :
    (ran [.read 0] (start 4)).out.err = [.illegalCommand 0x31000000] ∧
    (ran [.read 1, .read 4] (start 4)).out.err = [.illegalCommand 0x31000004] ∧
    (ran [.pushb [1], .pushb [7]] (start 4)).out.err = [.illegalCommand 0x30000001] := by decide

/-! ## Witnesses: a concrete case that meets the hypotheses of each statement that has any, one for each
clause, at the boundary where a clause has a range -/

/-- A well-formed instruction of every row, at the largest value a check admits where there is one. -/
theorem witness_DecodeEncodeCommand :
    [Instr.decode [1], .encode Header.zero 1 ⟨0, 0, 0⟩ [1], .txpkt [1], .txinit, .rxdgram [1],
      .sidset (.wf 253) 1, .sidset .rxa 1, .sidset .tx 1, .wffrag 253 Fragment.zero, .rbins 1, .rbpop,
      .rbsize, .rbclr, .pushb [1], .read 0xFFFF, .read 1, .daset, .dawait, .closeStream,
      .openStream].all Instr.wf = true := by decide

theorem witness_EncodeDecodeCommand :
    decodeCommand ⟨0x31000004, []⟩ = .ok (.read 4) := by decide

/-- A READ of 4 elements from a ring that holds none, after `n` micro-steps. -/
def reading (n : Nat) : State := advanceN .read n (ran [.read 4] (start 4))

/-- A DAWAIT that is held and one that is not; CONS held by its READ, and let go by DA; another agent while CONS is held;
a micro-step's turn. -/
theorem witness_StepRunsDecoded :
    (issuing .cons ⟨0x33000000, []⟩ (start 4)).env.turns = [.issue .cons] ∧
    (issuing .cons ⟨0x33000000, []⟩ (start 4)).env.stream .cons = [⟨0x33000000, []⟩] ∧
    decodeCommand ⟨0x33000000, []⟩ = .ok .dawait ∧
    ((issuing .cons ⟨0x33000000, []⟩ (start 4)).da = false ∧
      (issuing .cons ⟨0x33000000, []⟩ (start 4)).closed = false) ∧
    (issuing .cons ⟨0x33000000, []⟩ (ran [.daset] (start 4))).da = true ∧
    ((issuing .cons ⟨0x21000000, []⟩ (reading 2)).env.turns = [.issue .cons] ∧
      (reading 2).rd.state = .wait ∧ (reading 2).da = false ∧ (reading 2).closed = false) ∧
    (ran [.daset] (reading 2)).da = true ∧
    (Agent.host ≠ .cons ∧ Instr.closeStream ≠ .dawait ∧
      decodeCommand ⟨0x34000000, []⟩ = .ok .closeStream) ∧
    { start 4 with env := { Inputs.none with turns := [.advance .pushb] } }.env.turns =
      [.advance .pushb] := by decide

theorem witness_StepRefusesIllegalWord :
    (issuing .net ⟨0, []⟩ (start 4)).env.turns = [.issue .net] ∧
    (issuing .net ⟨0, []⟩ (start 4)).env.stream .net = [⟨0, []⟩] ∧ Agent.net ≠ .cons ∧
    ∀ op, decodeWord 0 ≠ .ok op := by
  refine ⟨by decide, by decide, by decide, fun op => ?_⟩
  cases op <;> decide

/-- No turn; an agent with nothing to issue; a SIDSET of SID_RXA and one of an index past N_WF, both without their data
word; and each record logged from outside. -/
theorem witness_StepOtherwise :
    State.reset.env.turns = [] ∧
    ({ start 4 with env := { Inputs.none with turns := [.issue .net] } }.env.turns = [.issue .net] ∧
      Inputs.none.stream .net = []) ∧
    (issuing .host ⟨0x09FE0000, []⟩ (start 4)).env.turns = [.issue .host] ∧
    (issuing .host ⟨0x09FE0000, []⟩ (start 4)).env.stream .host = [⟨0x09FE0000, []⟩] ∧
    Agent.host ≠ .cons ∧
    decodeWord 0x09FE0000 = .ok .sidset ∧ (∀ i, decodeCommand ⟨0x09FE0000, []⟩ ≠ .ok i) ∧
    fieldsLegal .sidset (idxField 0x09FE0000) (immField 0x09FE0000)
      (issuing .host ⟨0x09FE0000, []⟩ (start 4)) = true ∧
    decodeWord 0x09010000 = .ok .sidset ∧ (∀ i, decodeCommand ⟨0x09010000, []⟩ ≠ .ok i) ∧
    fieldsLegal .sidset (idxField 0x09010000) (immField 0x09010000)
      (issuing .host ⟨0x09010000, []⟩ (start 4)) = false ∧
    ∀ e : ExternalError, (logging e).env.turns = [.external e] := by
  have h : decodeCommand ⟨0x09FE0000, []⟩ = .error (.operandRecord .sidset) := by decide
  have h' : decodeCommand ⟨0x09010000, []⟩ = .error (.operandRecord .sidset) := by decide
  refine ⟨rfl, by decide, by decide, by decide, by decide, by decide, fun i => ?_, by decide,
    by decide, fun i => ?_, by decide, fun e => rfl⟩
  · rw [h]; exact fun e => nomatch e
  · rw [h']; exact fun e => nomatch e

/-- The legality conditions of rule R101 at their boundaries: SIDSET's and WFFRAG's last legal index and the first past
it, 0xFD to 0xFF, a payload of 65507 and of 65508 bytes, READ of 0 and of 1, each sequencer idle and at work. -/
theorem witness_StepOtherwise_legal :
    [(Opcode.sidset, 0, 0), (.sidset, 0xFE, 0), (.sidset, 0xFF, 0), (.wffrag, 0, 0),
      (.encode, 0, 65507), (.txpkt, 0, 65507), (.read, 0, 1), (.pushb, 0, 0), (.decode, 0, 65535),
      (.rxdgram, 0, 65535)].all (fun r => fieldsLegal r.1 r.2.1 r.2.2 (start 4)) = true ∧
    [(Opcode.sidset, 1, 0), (.sidset, 0xFD, 0), (.wffrag, 1, 0), (.wffrag, 0xFE, 0),
      (.encode, 0, 65508), (.txpkt, 0, 65508), (.read, 0, 0)].any
        (fun r => fieldsLegal r.1 r.2.1 r.2.2 (start 4)) = false ∧
    fieldsLegal .read 0 1 (ran [.read 1] (start 4)) = false ∧
    fieldsLegal .pushb 0 0 (ran [.pushb [1]] (start 4)) = false := by decide

/-- Each clause: the first index past N_WF, the first payload too long, no element, a sequencer at work. -/
theorem witness_RefusedCommands :
    (start 4).cfg.nWf ≤ (1 : Fin 254).val ∧ (start 4).cfg.nWf ≤ (1 : BitVec 8).toNat ∧
    65507 < (List.replicate 65508 (0 : Byte)).length ∧
    (ran [.read 1] (start 4)).rd.state ≠ .idle ∧ (ran [.pushb [1]] (start 4)).pb.state ≠ .idle := by
  refine ⟨by decide, by decide, ?_, by decide, by decide⟩
  rw [List.length_replicate]; decide

theorem witness_ResetRegisters :
    { start 4 with env := { Inputs.none with turns := [.reset] } }.env.turns = [.reset] := by decide

theorem witness_AfterReset :
    decodePacket (dgramTo 0x99) = .ok ⟨3, true, false, 0, 0, 5, 7⟩ 0x99 ⟨0, 0, 0⟩ [] ∧
    ([0xAA] : List Byte).length ≤ 65507 ∧ (1 : BitVec 16) ≠ 0 ∧ 4 ≤ (start 4).cfg.rbCap ∧
    (0 : BitVec 8).toNat < (start 4).cfg.nWf ∧ ValidFragment (frag 4 0 2 9 100 9 1 [1, 2]) :=
  ⟨by decide, by decide, by decide, by decide, by decide,
    ⟨by decide, by decide, by decide, by decide⟩⟩

/-- The clauses of DECODE's outcome where they meet: 27 and 28 bytes, a size of 6 and 7, a shortfall of 4 and
of 3 bytes. -/
theorem witness_DecodeOutcome :
    (cut8 27).length < 28 ∧ (cut8 28).length = 28 ∧
    beValue ([0x38, 0x00, 0x00, 0x06] ++ List.replicate 24 0) 0 % 2 ^ 16 = 6 ∧
    beValue (dgramTo 1) 0 % 2 ^ 16 = 7 ∧
    (4 * (beValue (cut8 32) 0 % 2 ^ 16) : Int) - (cut8 32).length = 4 ∧
    (4 * (beValue (cut8 33) 0 % 2 ^ 16) : Int) - (cut8 33).length = 3 ∧
    (cut8 33).length ≤ 65535 := by decide

theorem witness_EncodeBytes :
    (List.replicate 65507 (0 : Byte)).length ≤ 65507 ∧
    65507 < (List.replicate 65508 (0 : Byte)).length ∧
    (List.replicate 65508 (0 : Byte)).length ≤ 65535 := by
  simp only [List.length_replicate]; decide

theorem witness_PacketRoundTrip :
    payload1.length ≤ 65507 ∧ header1.size.toNat = (payload1.length + 3) / 4 + 7 ∧
    Header.zero.size.toNat ≠ (payload1.length + 3) / 4 + 7 ∧
    2 ^ 24 ≤ (⟨0xAB001C2D, 0x534C, 0x8005⟩ : ClassIdArg).oui.toNat := by decide

theorem witness_TxpktSends :
    payload1.length ≤ 65507 ∧ (sending 5).sid.tx ≠ 0 ∧ (start 4).sid.tx = 0 := by decide

theorem witness_TxpktNoStream : payload1.length ≤ 65507 ∧ (start 4).sid.tx = 0 := by decide

theorem witness_TxSequenceWrap :
    (List.replicate 16 payload1).length = 16 ∧
    (∀ p ∈ List.replicate 16 payload1, p.length ≤ 65507) ∧ (sending 14).sid.tx ≠ 0 := by decide

theorem witness_RxdgramMalformed : decodePacket (List.replicate 28 0) = .fail .sizeLt7 := by decide

/-- StreamID 0, a waterfall stream, RX audio, unrouted. -/
theorem witness_RxdgramRoutes :
    decodePacket (dgramTo 0) = .ok ⟨3, true, false, 0, 0, 5, 7⟩ 0 ⟨0, 0, 0⟩ [] ∧
    decodePacket (dgramTo 0x42000000) =
      .ok ⟨3, true, false, 0, 0, 5, 7⟩ 0x42000000 ⟨0, 0, 0⟩ [] ∧
    (0 < routing.cfg.nWf ∧ routing.cfg.nWf ≤ 254 ∧ routing.sid.wf[0]? = some 0x42000000) ∧
    decodePacket (dgramTo 0x04000008) =
      .ok ⟨3, true, false, 0, 0, 5, 7⟩ 0x04000008 ⟨0, 0, 0⟩ [] ∧
    (0x04000008 ∉ routing.sid.wf ∧ routing.sid.rxa = 0x04000008) ∧
    (0x0400000A ∉ routing.sid.wf ∧ routing.sid.rxa ≠ 0x0400000A) := by decide

/-- The OPEN function answers none or a fragment for the payload: one of the two clauses of the waterfall route
applies. -/
theorem witness_RxdgramRoutes_tile :
    Config.tileParse [] = none ∨ ∃ f, Config.tileParse [] = some f := by
  cases h : Config.tileParse [] with
  | none => exact .inl rfl
  | some f => exact .inr ⟨f, rfl⟩

/-- Under an example parser a datagram of the waterfall stream makes context 0 take a fragment; an unrouted one does
so under no parser. -/
theorem witness_RxdgramFrame :
    reassembles (fun _ => some (frag 4 0 2 9 100 9 1 [1, 2])) (dgramTo 0x42000000) routing 0
      (frag 4 0 2 9 100 9 1 [1, 2]) ∧
    ∀ parse i f, ¬ reassembles parse (dgramTo 0x99) routing i f := by
  refine ⟨⟨⟨3, true, false, 0, 0, 5, 7⟩, 0x42000000, ⟨0, 0, 0⟩, [], by decide, by decide, by decide,
    rfl, ⟨by decide, by decide, by decide, by decide⟩⟩, ?_⟩
  rintro parse i f ⟨h, sid, k, p, hd, -, hs, -⟩
  have e : decodePacket (dgramTo 0x99) =
      .ok ⟨3, true, false, 0, 0, 5, 7⟩ 0x99 ⟨0, 0, 0⟩ [] := by decide
  rw [e] at hd
  cases hd
  have e' : findSlot 0x99 0 routing.sid.wf = none := by decide
  rw [e'] at hs
  cases hs

/-- The last waterfall slot a table of 254 contexts has. -/
theorem witness_SidsetResult :
    (253 : Fin 254).val < (State.resetWith { rbCap := 4, nWf := 254, txTmpl := tmpl }).cfg.nWf := by
  decide

/-- VW9 and VW10: a fragment for each test, at its boundary, and the last valid bound. -/
theorem witness_WffragValidity :
    (0 : BitVec 8).toNat < (start 4).cfg.nWf ∧ (frag 0 0 0 0 0 0 0 []).total.toNat = 0 ∧
    (frag 4 0 2 0 0 0 0 [1]).bins.length ≠ (frag 4 0 2 0 0 0 0 [1]).width.toNat ∧
    (frag 4 3 2 0 0 0 0 [1, 2]).first.toNat + (frag 4 3 2 0 0 0 0 [1, 2]).width.toNat =
      (frag 4 3 2 0 0 0 0 [1, 2]).total.toNat + 1 ∧
    upperBound (frag 2 0 1 0 18446744073709551615 0 0 [1]) = 2 ^ 64 ∧
    ValidFragment (frag 1 0 1 1 18446744073709551615 5 0 [1]) ∧
    ValidFragment (frag 65535 65535 0 0 0 0 0 []) :=
  ⟨by decide, by decide, by decide, by decide, by decide,
    ⟨by decide, by decide, by decide, by decide⟩, ⟨by decide, by decide, by decide, by decide⟩⟩

/-- A context with the first two of four bins of frame 9. -/
def halfway : State := ran [.wffrag 0 (frag 4 0 2 9 100 9 1 [1, 2])] (start 4)

/-- Each case of the steps: a new total, the same total and frame, another frame. -/
theorem witness_WffragSteps :
    (0 : BitVec 8).toNat < halfway.cfg.nWf ∧ ValidFragment (frag 4 2 2 9 100 9 1 [3, 4]) ∧
    Memory.wf (halfway.context 0).buf = true ∧
    (frag 4 2 2 9 100 9 1 [3, 4]).total = (halfway.context 0).total ∧
    ¬ startsFrame (frag 4 2 2 9 100 9 1 [3, 4]) (halfway.context 0) ∧
    startsFrame (frag 4 2 2 10 100 9 1 [3, 4]) (halfway.context 0) ∧
    (frag 6 2 2 9 100 9 1 [3, 4]).total ≠ (halfway.context 0).total := by
  refine ⟨by decide, ⟨by decide, by decide, by decide, by decide⟩, by decide, by decide, ?_, ?_,
    by decide⟩
  · rintro (h | h) <;> revert h <;> decide
  · exact .inr (by decide)

theorem witness_ReportedRange :
    (0 : BitVec 8).toNat < (start 4).cfg.nWf ∧
    ValidFragment (frag 4 0 4 9 14000000 999 77 [10, 20, 30, 40]) ∧
    startsFrame (frag 4 0 4 9 14000000 999 77 [10, 20, 30, 40]) ((start 4).context 0) :=
  ⟨by decide, ⟨by decide, by decide, by decide, by decide⟩, .inl (by decide)⟩

theorem witness_EventOrder :
    ∃ t, exec (.wffrag 0 (frag 4 0 4 9 100 9 1 [1, 2, 3, 4])) (start 4) = .next t := ⟨_, rfl⟩

/-- VW2 on a smaller frame, from reset; and the context already on that frame with nothing counted (a zero-width
fragment configured it). -/
theorem witness_WaterfallTwoFragments :
    (0 : BitVec 8).toNat < (start 4).cfg.nWf ∧ 0 < (start 4).wf.length ∧
    Memory.wf ((start 4).context 0).buf = true ∧
    ValidFragment (frag 4 0 3 9 100 9 1 [1, 2, 3]) ∧ ValidFragment (frag 4 3 1 9 100 9 1 [4]) ∧
    tiles 4 0 [frag 4 0 3 9 100 9 1 [1, 2, 3], frag 4 3 1 9 100 9 1 [4]] ∧
    (frag 4 0 3 9 100 9 1 [1, 2, 3]).total ≠ ((start 4).context 0).total ∧
    startsFrame (frag 4 0 3 9 100 9 1 [1, 2, 3]) ((start 4).context 0) ∧
    ((ran [.wffrag 0 (frag 4 0 0 9 100 9 1 [])] (start 4)).context 0).filled = 0 ∧
    ((ran [.wffrag 0 (frag 4 0 0 9 100 9 1 [])] (start 4)).context 0).tc = 9 ∧
    ((ran [.wffrag 0 (frag 4 0 0 9 100 9 1 [])] (start 4)).context 0).total = 4 :=
  ⟨by decide, by decide, by decide, ⟨by decide, by decide, by decide, by decide⟩,
    ⟨by decide, by decide, by decide, by decide⟩,
    ⟨by decide, by decide, by decide, by decide, rfl⟩, by decide,
    .inl (by decide), by decide, by decide, by decide⟩

/-- The same two fragments in the other order. -/
theorem witness_WaterfallAnyOrder :
    tiles 4 0 [frag 4 0 3 9 100 9 1 [1, 2, 3], frag 4 3 1 9 100 9 1 [4]] ∧
    [frag 4 3 1 9 100 9 1 [4], frag 4 0 3 9 100 9 1 [1, 2, 3]].Perm
      [frag 4 0 3 9 100 9 1 [1, 2, 3], frag 4 3 1 9 100 9 1 [4]] ∧
    ((start 4).context 0).tcv = false ∧ (4 : BitVec 16) ≠ 0 :=
  ⟨witness_WaterfallTwoFragments.2.2.2.2.2.1, List.Perm.swap _ _ _, by decide, by decide⟩

/-- A context with a complete frame of four bins. -/
def complete : State := ran [.wffrag 0 (frag 4 0 4 9 100 9 1 [1, 2, 3, 4])] (start 4)

theorem witness_WaterfallAfterCompletion :
    (0 : BitVec 8).toNat < complete.cfg.nWf ∧ 0 < complete.wf.length ∧
    ValidFragment (frag 4 0 0 9 100 9 1 []) ∧
    (complete.context 0).total.toNat ≤ (complete.context 0).filled ∧
    (frag 4 0 0 9 100 9 1 []).total = (complete.context 0).total ∧
    ¬ startsFrame (frag 4 0 0 9 100 9 1 []) (complete.context 0) ∧
    startsFrame (frag 4 0 0 8 100 9 1 []) (complete.context 0) := by
  refine ⟨by decide, by decide, ⟨by decide, by decide, by decide, by decide⟩, by decide, by decide,
    ?_, .inr (by decide)⟩
  rintro (h | h) <;> revert h <;> decide

/-- VW13, its first two fragments. -/
theorem witness_WaterfallInterleaved :
    (∀ f ∈ [frag 4 0 2 1 0 0 0 [1, 2], frag 4 0 2 2 0 0 0 [1, 2]],
      ValidFragment f ∧ f.width ≠ f.total) ∧
    startsFrame (frag 4 0 2 1 0 0 0 [1, 2]) ((start 4).context 0) ∧
    (frag 4 0 2 1 0 0 0 [1, 2]).timecode ≠ (frag 4 0 2 2 0 0 0 [1, 2]).timecode := by
  refine ⟨?_, .inl (by decide), by decide⟩
  intro f hf
  rcases List.mem_cons.1 hf with rfl | hf
  · exact ⟨⟨by decide, by decide, by decide, by decide⟩, by decide⟩
  · rcases List.mem_cons.1 hf with rfl | hf
    · exact ⟨⟨by decide, by decide, by decide, by decide⟩, by decide⟩
    · cases hf

/-- The ring invariant of an empty and of a full ring of four. -/
theorem witness_ring :
    RingInv (start 4).cfg.rbCap (start 4).rb ∧
    RingInv 4 (ran [.rbins 1, .rbins 2, .rbins 3, .rbins 4] (start 4)).rb ∧
    (ran [.rbins 1, .rbins 2, .rbins 3, .rbins 4] (start 4)).rb.size = 4 :=
  ⟨⟨by decide, by decide, by decide, by decide, by decide, by decide⟩,
    ⟨by decide, by decide, by decide, by decide, by decide, by decide⟩, by decide⟩

theorem witness_RbinsResult : RingInv (start 4).cfg.rbCap (start 4).rb := witness_ring.1

theorem witness_RbpopResult :
    (start 4).rb.size = 0 ∧ (ran [.rbins 1] (start 4)).rb.size ≠ 0 ∧
    RingInv 4 (ran [.rbins 1, .rbins 2, .rbins 3, .rbins 4] (start 4)).rb :=
  ⟨by decide, by decide, witness_ring.2.1⟩

theorem witness_RbsizeResult : RingInv (start 4).cfg.rbCap (start 4).rb := witness_ring.1

theorem witness_RbclrResult : 0 < (start 4).cfg.rbCap ∧ 4 ≤ (start 4).cfg.rbCap := by decide

/-- Four inserts into the empty ring of four; and an interleaving that never finds it full. -/
theorem witness_FifoLaw :
    RingInv (start 4).cfg.rbCap (start 4).rb ∧ (start 4).rb.size = 0 ∧
    ([1, 2, 3, 4] : List Word).length ≤ (start 4).cfg.rbCap ∧
    ∀ pre e post u, [some (1 : Word), none] = pre ++ some e :: post →
      execAll (pre.map ringOp) (start 4) = .next u → u.rb.size ≠ (start 4).cfg.rbCap := by
  refine ⟨witness_ring.1, by decide, by decide, ?_⟩
  intro pre e post u h hu
  rcases pre with _ | ⟨a, _ | ⟨b, pre⟩⟩
  · cases hu; decide
  · simp at h
  · simp at h

/-- A batch and a read from an empty ring, their micro-steps in turn; the elements inserted and taken out. -/
def between : List Move :=
  [.instr (.read 2), .instr (.pushb [1, 2]), .micro .pushb, .micro .pushb, .micro .read, .micro .pushb,
    .instr (.rbins 9), .instr .rbpop, .micro .pushb]

/-- A ring that holds an element, a batch at its check, a read at its fill. -/
def mingled : State := ran [.rbins 7, .pushb [1], .read 2] (start 8)

theorem witness_FifoLaw_flow :
    (noOverwrite between (start 8) ∧ .instr .rbclr ∉ between ∧
      (flow between (start 8)).map (fun r => (r.1, r.2.1)) =
        some ([0x38000000, 9, 0x38800000], [0x38000000, 9])) ∧
    RingInv mingled.cfg.rbCap mingled.rb ∧ Memory.wf mingled.rd.out = true ∧
    noOverwrite [.micro .pushb, .micro .read, .micro .pushb, .micro .read] mingled ∧
    (flow [.micro .pushb, .micro .read, .micro .pushb, .micro .read] mingled).map
      (fun r => (r.1, r.2.1, Memory.readList r.2.2.rd.out 0 r.2.2.rd.n)) =
        some ([0x38000000], [7, 0x38000000], [7, 0x38000000]) := by
  refine ⟨⟨⟨by decide, by decide, by decide, by decide, by decide, by decide, by decide, by decide,
    by decide, trivial⟩, by decide, by decide⟩,
    ⟨by decide, by decide, by decide, by decide, by decide, by decide⟩, by decide,
    ⟨by decide, by decide, by decide, by decide, trivial⟩, by decide⟩

theorem witness_OverwriteLaw :
    RingInv (start 4).cfg.rbCap (start 4).rb ∧ 4 ≤ (start 4).cfg.rbCap ∧ (start 4).rb.size = 0 ∧
    ([1, 2, 3, 4, 5] : List Word).length = (start 4).cfg.rbCap + 1 ∧ (start 4).rb.head = 0 :=
  ⟨witness_ring.1, by decide, by decide, by decide, by decide⟩

/-- A PUSHB at its check, on an empty ring and past the margin; a ring that is full and one that is not. -/
theorem witness_StatusOutputs :
    (ran [.pushb [1]] (start 4)).pb.state = .check ∧
    statusNearFull (ran [.pushb [1]] (start 4)) = false ∧
    (ran [.rbins 1, .pushb [1]] (start 4)).pb.state = .check ∧
    statusNearFull (ran [.rbins 1, .pushb [1]] (start 4)) = true ∧
    RingInv 4 (ran [.rbins 1, .rbins 2, .rbins 3, .rbins 4] (start 4)).rb ∧
    statusFull (ran [.rbins 1, .rbins 2, .rbins 3, .rbins 4] (start 4)) = true ∧
    RingInv (start 4).cfg.rbCap (start 4).rb ∧ 4 ≤ (start 4).cfg.rbCap ∧
    statusFull (start 4) = false :=
  ⟨by decide, by decide, by decide, by decide, witness_ring.2.1, by decide, witness_ring.1, by decide,
    by decide⟩

theorem witness_PushbStarts :
    (start 4).pb.state = .idle ∧ (ran [.pushb [1]] (start 4)).pb.state ≠ .idle := by decide

/-- Each micro-step, the check on both sides of the margin. -/
theorem witness_PushbMicroSteps :
    ((ran [.pushb [1]] (start 4)).pb.state = .check ∧
      ((ran [.pushb [1]] (start 4)).rb.size : Int) = ((start 4).cfg.rbCap : Int) - 4) ∧
    ((ran [.rbins 1, .pushb [1]] (start 4)).pb.state = .check ∧
      ((ran [.rbins 1, .pushb [1]] (start 4)).rb.size : Int) > ((start 4).cfg.rbCap : Int) - 4) ∧
    (advanceN .pushb 1 (ran [.pushb [1]] (start 4))).pb.state = .insert ∧
    (advanceN .pushb 2 (ran [.pushb [1]] (start 4))).pb.state = .done ∧
    (advanceN .pushb 3 (ran [.pushb [1]] (start 4))).pb.state = .idle ∧
    (start 4).pb.ins = (start 4).pb.j := by decide

/-- A batch that fits and one that does not. -/
theorem witness_PushbWholeBatch :
    RingInv (start 4).cfg.rbCap (start 4).rb ∧ 4 ≤ (start 4).cfg.rbCap ∧
    (start 4).pb.state = .idle ∧ 1 = min ([1] : List Sample).length (4 - 3 - (start 4).rb.size) ∧
    1 = min ([1, 2] : List Sample).length (4 - 3 - (start 4).rb.size) :=
  ⟨witness_ring.1, by decide, by decide, by decide, by decide⟩

theorem witness_PushbOverflowDrop :
    (ran [.rbins 1] (start 4)).pb.state = .idle ∧ ([1] : List Sample) ≠ [] ∧
    ((ran [.rbins 1] (start 4)).rb.size : Int) > ((start 4).cfg.rbCap : Int) - 4 := by decide

theorem witness_ProducerNeverOverwrites :
    MarginInv (start 4) ∧ MarginInv (advanceN .pushb 1 (ran [.pushb [1]] (start 4))) ∧
    (∀ e, Instr.rbpop ≠ .rbins e) ∧ ∃ t, exec .rbpop (start 4) = .next t :=
  ⟨⟨by decide, by decide⟩, ⟨by decide, by decide⟩, fun e => nofun, ⟨_, rfl⟩⟩

theorem witness_ReadStarts :
    (start 4).rd.state = .idle ∧ 1 ≤ (1 : BitVec 16).toNat ∧ (0 : BitVec 16).toNat = 0 ∧
    (ran [.read 1] (start 4)).rd.state ≠ .idle := by decide

/-- A READ of 1 element from a ring that holds 1, after `n` micro-steps. -/
def filling (n : Nat) : State := advanceN .read n (ran [.rbins 7, .read 1] (start 4))

theorem witness_ReadMicroSteps :
    ((reading 0).rd.state = .fill ∧ (reading 0).rb.size = 0) ∧
    ((filling 0).rd.state = .fill ∧ (filling 0).rd.n ≠ (filling 0).rd.m ∧
      (filling 0).rb.size ≠ 0) ∧
    ((filling 1).rd.state = .fill ∧ (filling 1).rd.n = (filling 1).rd.m) ∧
    ((filling 2).rd.state = .check ∧ 0 < (filling 2).rd.n) ∧ (filling 3).rd.state = .idle ∧
    ((reading 1).rd.state = .check ∧ (reading 1).rd.n = 0 ∧ (reading 1).closed = false) ∧
    ((reading 2).rd.state = .wait ∧ (reading 2).da = false ∧ (reading 2).closed = false) ∧
    ((ran [.daset] (reading 2)).rd.state = .wait ∧ (ran [.daset] (reading 2)).da = true) ∧
    (advanceTurn .read (ran [.daset] (reading 2))).rd.state = .woken ∧
    (advanceTurn .read (ran [.daset] (reading 2))).closed = false ∧
    ((ran [.closeStream] (reading 1)).rd.state = .check ∧
      (ran [.closeStream] (reading 1)).closed = true) := by decide

/-- A READ of one element of two, and one of more than the ring holds. -/
theorem witness_ReadNonBlocking :
    RingInv 4 (ran [.rbins 1, .rbins 2] (start 4)).rb ∧
    Memory.wf (ran [.rbins 1, .rbins 2] (start 4)).rd.out = true ∧
    (ran [.rbins 1, .rbins 2] (start 4)).rd.state = .idle ∧ 1 ≤ (1 : BitVec 16).toNat ∧
    1 ≤ (ran [.rbins 1, .rbins 2] (start 4)).rb.size ∧
    1 = min (1 : BitVec 16).toNat (ran [.rbins 1, .rbins 2] (start 4)).rb.size ∧
    2 = min (9 : BitVec 16).toNat (ran [.rbins 1, .rbins 2] (start 4)).rb.size :=
  ⟨⟨by decide, by decide, by decide, by decide, by decide, by decide⟩, by decide, by decide, by decide,
    by decide, by decide, by decide⟩

/-- A READ about to deliver one element, and one held. -/
theorem witness_ReadAtLeastOne :
    ReadInv (filling 2).rd ∧ 1 ≤ (filling 2).rd.n ∧ ReadInv (reading 2).rd :=
  ⟨⟨by decide, by decide, by decide, by decide, by decide, by decide⟩, by decide,
    ⟨by decide, by decide, by decide, by decide, by decide, by decide⟩⟩

theorem witness_ReadHold :
    (reading 2).rd.state = .wait ∧ (reading 2).da = false ∧ (reading 2).closed = false ∧
    { reading 2 with env := { Inputs.none with turns := [.advance .read] } }.env.turns =
      [.advance .read] ∧
    { reading 2 with env := { Inputs.none with turns := [.issue .cons] } }.env.turns =
      [.issue .cons] ∧
    ((advanceN .pushb 2 (ran [.pushb [1]] (reading 2))).rd.state = .wait ∧
      (advanceN .pushb 2 (ran [.pushb [1]] (reading 2))).pb.state = .done ∧
      (advanceN .pushb 2 (ran [.pushb [1]] (reading 2))).da = false ∧
      1 ≤ (advanceN .pushb 2 (ran [.pushb [1]] (reading 2))).pb.ins) := by decide

/-- VF7. -/
theorem witness_StaleNotification :
    (ran [.daset] (reading 2)).rd.state = .wait ∧ (ran [.daset] (reading 2)).rd.n = 0 ∧
    1 ≤ (ran [.daset] (reading 2)).rd.m ∧ (ran [.daset] (reading 2)).rb.size = 0 ∧
    (ran [.daset] (reading 2)).da = true ∧ (ran [.daset] (reading 2)).closed = false := by decide

theorem witness_DasetResult : (ran [.daset] (start 4)).da = true := by decide

theorem witness_DawaitResult :
    (ran [.daset] (start 4)).da = true ∧ (ran [.closeStream] (start 4)).closed = true ∧
    (start 4).da = false ∧ (start 4).closed = false ∧
    (issuing .cons ⟨0x33000000, []⟩ (start 4)).env.turns = [.issue .cons] ∧
    (issuing .cons ⟨0x33000000, []⟩ (start 4)).env.stream .cons = [⟨0x33000000, []⟩] := by decide

/-- One DASET; a run without one; a PUSHB whose last micro-step signals. -/
theorem witness_SignalLaw :
    (start 4).closed = false ∧ (start 4).da = false ∧ .daset ∉ [Instr.rbins 1, .read 1] ∧
    (∃ t, execAll [.rbins 1, .read 1] (start 4) = .next t) ∧
    (advanceTurn .pushb (advanceN .pushb 2 (ran [.pushb [1]] (start 4)))).da = true ∧
    (ran [.daset] (reading 2)).da = true ∧
    (advanceTurn .read (ran [.daset] (reading 2))).da = false :=
  ⟨by decide, by decide, by decide, ⟨_, rfl⟩, by decide, by decide, by decide⟩

theorem witness_CloseReleasesReader :
    (reading 2).rd.state = .wait ∧ (reading 1).rd.state = .check ∧ (reading 1).rd.n = 0 ∧
    (ran [.closeStream] (start 4)).closed = true := by decide

theorem witness_OpenResult : (start 4).closed = false := by decide

theorem witness_InvAtReset :
    Params.ok { rbCap := 4, nWf := 254, txTmpl := tmpl } = true ∧
    Params.ok { rbCap := 2 ^ 31 - 1, nWf := 1, txTmpl := tmpl } = true := by decide

/-- The invariant of a state in the middle of everything: a PUSHB at its insert, a READ held, a frame half
received, commands to come. -/
theorem witness_StepKeepsInv :
    BlockInv { ran [.pushb [1]] halfway with env := { Inputs.none with turns := [.advance .pushb] } } ∧
    ∃ t, step { ran [.pushb [1]] halfway with
      env := { Inputs.none with turns := [.advance .pushb] } } = .next t := by
  refine ⟨⟨by decide, ⟨by decide, by decide, by decide, by decide, by decide, by decide⟩,
    ⟨by decide, by decide, by decide, by decide, by decide, by decide⟩,
    ⟨by decide, by decide, by decide, by decide, by decide⟩, by decide, by decide, ?_⟩, ⟨_, rfl⟩⟩
  intro c hc
  rcases List.mem_cons.1 hc with rfl | hc
  · exact ⟨by decide, by decide, by decide, by decide, by decide⟩
  · cases hc

/-- Each of the three records raised. -/
theorem witness_ErrorsArePrecise :
    (after (exec (.rxdgram (List.replicate 28 0)) (start 4))).out.err ≠ (start 4).out.err ∧
    (after (exec (.read 0) (start 4))).out.err ≠ (start 4).out.err ∧
    (advanceTurn .pushb (ran [.rbins 1, .pushb [1]] (start 4))).out.err ≠
      (ran [.rbins 1, .pushb [1]] (start 4)).out.err := by decide

/-- An operation that changes a group, for the groups of rule R50. -/
theorem witness_WrittenBy :
    (ran [.rbins 1] (start 4)).rb ≠ (start 4).rb ∧ (ran [.daset] (start 4)).da ≠ (start 4).da ∧
    (ran [.closeStream] (start 4)).closed ≠ (start 4).closed ∧
    (ran [.read 1] (start 4)).rd ≠ (start 4).rd ∧ (ran [.pushb [1]] (start 4)).pb ≠ (start 4).pb ∧
    (ran [.sidset .tx 1] (start 4)).sid ≠ (start 4).sid ∧ halfway.wf ≠ (start 4).wf ∧
    (ran [.txinit] (sending 5)).txSeq ≠ (sending 5).txSeq ∧
    (advanceN .pushb 2 (ran [.pushb [1]] (start 4))).rb ≠
      (advanceN .pushb 1 (ran [.pushb [1]] (start 4))).rb ∧
    (filling 1).rb ≠ (filling 0).rb ∧ (filling 1).rd.out ≠ (filling 0).rd.out := by decide

theorem witness_StepKeepsConfigAndHistory :
    ∃ t, step (issuing .host ⟨0x22000000, []⟩ (start 4)) = .next t := ⟨_, rfl⟩

/-- A step that answers a next state, and one that stops. -/
theorem witness_TracesNeverRead :
    (∃ t, step (issuing .cons ⟨0x21000000, []⟩ (start 4)) = .next t) ∧
    step (issuing .host ⟨0x09FE0000, []⟩ (start 4)) = .fault .operandRecord :=
  ⟨⟨_, rfl⟩, rfl⟩

end Sys2Proof.Tests
end

section
/-! Facts about the decoder, the ring, the micro-steps and the turns that the proofs below share. -/

namespace Sys2Proof.Machine

open Sys2Proof

/-! ## The record a command carries -/

/-- A record of no item assembles to the row's own instruction. -/
theorem noOperand_some {i j : Instr} {items : List DataItem} (h : noOperand i items = some j) :
    j = i := by
  unfold noOperand at h
  split at h <;> cases h
  rfl

/-- What a row assembles is an instruction of that row. -/
theorem assemble_opcode {op : Opcode} {idx : BitVec 8} {imm : BitVec 16} {items : List DataItem}
    {i : Instr} (h : assemble op idx imm items = some i) : i.opcode = op := by
  cases op <;> simp only [assemble] at h
  case decode | txpkt | rxdgram | pushb =>
    obtain ⟨_, -, rfl⟩ := Option.map_eq_some_iff.1 h
    rfl
  case encode =>
    split at h
    · obtain ⟨_, -, rfl⟩ := Option.map_eq_some_iff.1 h
      rfl
    · cases h
  case sidset | wffrag | rbins =>
    split at h <;> cases h
    rfl
  all_goals
    rw [noOperand_some h]
    rfl

/-- A PUSHB that decodes carries at most MAX_BATCH samples: its `imm` has 16 bits (rule R96). -/
theorem decodeCommand_pushb_length {c : Command} {vs : List Sample}
    (h : decodeCommand c = .ok (.pushb vs)) : vs.length ≤ Config.maxBatch := by
  obtain ⟨op, -, ha⟩ := decodeCommand_ok h
  obtain rfl : Opcode.pushb = op := assemble_opcode ha
  obtain ⟨ws, hw, he⟩ := Option.map_eq_some_iff.1 ha
  cases he
  have hlen := (samplesOperand_some hw).2
  have himm := (immField c.word).isLt
  show vs.length ≤ 65535
  omega

/-! ## The ring -/

/-- RBINS moves RB_TAIL of a full ring alone (rule R201). -/
theorem ringInsert_tail {cap : Nat} {e : Word} {r : Ring} (h : (ringInsert cap e r).tail ≠ r.tail) :
    r.size = cap := by
  by_contra hne
  exact h (if_neg hne)

/-- RBINS writes the element RB_HEAD names alone (rule R200). -/
theorem ringInsert_read_other (cap : Nat) (e : Word) (r : Ring) {a : Nat} (h : a ≠ r.head) :
    Memory.read (ringInsert cap e r).mem a = Memory.read r.mem a :=
  Memory.read_write_other h.symm

/-- RBCLR writes the elements of the ring alone (rule R206). -/
theorem ringClear_read {cap : Nat} {r : Ring} {a : Nat}
    (h : Memory.read (ringClear cap r).mem a ≠ Memory.read r.mem a) : a < cap := by
  by_contra hge
  exact h ((Memory.read_zeroBelow cap r.mem a).trans (if_neg hge))

/-- The next position of a ring of two elements or more is another one. -/
theorem succ_mod_ne {cap a : Nat} (hcap : 2 ≤ cap) (ha : a < cap) : (a + 1) % cap ≠ a := by
  have h := mod_ne_of_lt (a := a) Nat.zero_lt_one hcap
  rw [Nat.add_zero, Nat.mod_eq_of_lt ha] at h
  exact h.symm

/-- RBINS keeps RB_SIZE exactly when the ring is full (rules R200, R201). -/
theorem ringInsert_size_eq_iff (cap : Nat) (e : Word) (r : Ring) :
    (ringInsert cap e r).size = r.size ↔ r.size = cap := by
  simp only [ringInsert]
  split <;> omega

/-- RBINS moves RB_TAIL exactly when the ring is full (rule R201). -/
theorem ringInsert_tail_ne_iff {cap : Nat} (e : Word) {r : Ring} (hcap : 2 ≤ cap)
    (htail : r.tail < cap) : (ringInsert cap e r).tail ≠ r.tail ↔ r.size = cap := by
  refine ⟨ringInsert_tail, fun hfull => ?_⟩
  simp only [ringInsert, if_pos hfull]
  exact succ_mod_ne hcap htail

/-- In a full ring RB_HEAD names the oldest element (rule R25). -/
theorem RingInv.head_eq_tail {cap : Nat} {r : Ring} (hr : RingInv cap r) (hfull : r.size = cap) :
    r.head = r.tail := by
  rw [hr.head_eq, hfull, Nat.add_mod_right, Nat.mod_eq_of_lt hr.tail_lt]

/-- RBPOP as a branch on RB_SIZE (rules R202, R203). -/
theorem execRbpop_eq : execRbpop = fun s =>
    if s.rb.size = 0 then .next (deliver (.rbpop none) s)
    else .next (deliver (.rbpop (some (Memory.read s.rb.mem s.rb.tail)))
      { s with rb := { s.rb with tail := (s.rb.tail + 1) % s.cfg.rbCap, size := s.rb.size - 1 } }) := by
  funext s
  unfold execRbpop
  rcases ringPop_eq s.cfg.rbCap s.rb with ⟨h, e⟩ | ⟨h, e⟩ <;> simp [e, h]

/-! ## The micro-steps, state by state -/

theorem pbStep_idle {s : State} (h : s.pb.state = .idle) : pbStep s = s := by simp [pbStep, h]
theorem pbStep_check {s : State} (h : s.pb.state = .check) : pbStep s = pbCheck s := by
  simp [pbStep, h]
theorem pbStep_insert {s : State} (h : s.pb.state = .insert) : pbStep s = pbInsert s := by
  simp [pbStep, h]
theorem pbStep_done {s : State} (h : s.pb.state = .done) : pbStep s = pbDone s := by
  simp [pbStep, h]

theorem rdStep_idle {s : State} (h : s.rd.state = .idle) : rdStep s = s := by simp [rdStep, h]
theorem rdStep_fill {s : State} (h : s.rd.state = .fill) : rdStep s = rdFill s := by
  simp [rdStep, h]
theorem rdStep_check {s : State} (h : s.rd.state = .check) : rdStep s = rdCheck s := by
  simp [rdStep, h]
theorem rdStep_wait {s : State} (h : s.rd.state = .wait) : rdStep s = rdWait s := by
  simp [rdStep, h]
theorem rdStep_woken {s : State} (h : s.rd.state = .woken) : rdStep s = rdWoken s := by
  simp [rdStep, h]

/-- READ's fill step as a branch on RD_N and RB_SIZE (rule R230). -/
theorem rdFill_eq : rdFill = fun s =>
    if s.rd.n = s.rd.m ∨ s.rb.size = 0 then { s with rd := { s.rd with state := .check } }
    else
      { s with
        rb := { s.rb with tail := (s.rb.tail + 1) % s.cfg.rbCap, size := s.rb.size - 1 }
        rd := { s.rd with
          out := Memory.write s.rd.out s.rd.n (Memory.read s.rb.mem s.rb.tail), n := s.rd.n + 1 } } := by
  funext s
  unfold rdFill
  rcases ringPop_eq s.cfg.rbCap s.rb with ⟨h, e⟩ | ⟨h, e⟩ <;> simp [e, h]

/-! ## Turns to issue -/

/-- The stream of one agent after that of another, or its own, is replaced. -/
theorem stream_setStream (e : Inputs) (a b : Agent) (cs : List Command) :
    (e.setStream a cs).stream b = if b = a then cs else e.stream b := by
  by_cases h : b = a
  · rw [if_pos h, h, stream_setStream_same]
  · rw [if_neg h, stream_setStream_other e cs (Ne.symm h)]

/-- Every instruction but DAWAIT is enabled in every state (rule R285). -/
theorem instrEnabled_of_ne_dawait {i : Instr} (h : i ≠ .dawait) (s : State) :
    instrEnabled i s = true := by
  cases i
  case dawait => exact absurd rfl h
  all_goals rfl

theorem waitEnabled_iff (s : State) : waitEnabled s = true ↔ s.da = true ∨ s.closed = true :=
  Bool.or_eq_true_iff

/-- A step is enabled unless it is a DAWAIT's while DA = 0 and CLOSED = 0 (rules R241, R285). -/
theorem instrEnabled_iff (i : Instr) (s : State) :
    instrEnabled i s = true ↔ i ≠ .dawait ∨ s.da = true ∨ s.closed = true := by
  by_cases h : i = .dawait
  · subst h
    simp only [ne_eq, not_true_eq_false, false_or]
    exact waitEnabled_iff s
  · simp [h, instrEnabled_of_ne_dawait h s]

/-- The turn of a held agent changes nothing (rule R233). -/
theorem issueTurn_of_held {a : Agent} {s : State} (h : agentHeld a s = true) :
    issueTurn a s = .next s := if_pos h

/-- The turn of an agent that is not held issues the first command of its stream. -/
theorem issueTurn_of_free {a : Agent} {c : Command} {cs : List Command} {s : State}
    (hfree : agentHeld a s = false) (hs : s.env.stream a = c :: cs) :
    issueTurn a s = issueCommand a c cs s := by
  simp [issueTurn, hfree, hs]

/-- A command that decodes to an enabled instruction is taken and carried out. -/
theorem issueCommand_of_enabled {a : Agent} {c : Command} {cs : List Command} {i : Instr} {s : State}
    (hdec : decodeCommand c = .ok i) (hen : instrEnabled i s = true) :
    issueCommand a c cs s = exec i (withStream a cs s) := by
  simp [issueCommand, hdec, hen]

/-- A command that decodes to a held DAWAIT stays in its stream (log 6). -/
theorem issueCommand_of_held {a : Agent} {c : Command} {cs : List Command} {i : Instr} {s : State}
    (hdec : decodeCommand c = .ok i) (hen : instrEnabled i s = false) :
    issueCommand a c cs s = .next s := by
  simp [issueCommand, hdec, hen]

end Sys2Proof.Machine
end

section
/-! The invariant of the block: at reset, and kept by every instruction, micro-step and turn. -/

namespace Sys2Proof.Machine

open Sys2Proof

/-! ## The waterfall contexts -/

/-- A context in its reset state meets the invariant. -/
theorem contextReset_inv : ContextInv WfContext.reset :=
  { unconfigured := fun _ => rfl, configured := fun h => absurd rfl h,
    phase := ⟨fun _ => rfl, fun _ => rfl⟩, buf_wf := rfl, buf_below := rfl }

/-- Step 1 leaves the total of the fragment (rule R172). -/
theorem wfConfigure_total (i : Nat) (f : Fragment) (c : WfContext) :
    (wfConfigure i f c).1.total = f.total := by
  unfold wfConfigure
  split
  · exact Eq.symm ‹_›
  · rfl

/-- Step 2 keeps the total (rule R173). -/
theorem wfNewFrame_total (i : Nat) (f : Fragment) (c : WfContext) :
    (wfNewFrame i f c).1.total = c.total := by
  unfold wfNewFrame
  split <;> rfl

/-- Step 2 leaves a valid timecode (rule R173). -/
theorem wfNewFrame_tcv (i : Nat) (f : Fragment) (c : WfContext) :
    (wfNewFrame i f c).1.tcv = true := by
  unfold wfNewFrame
  split
  · exact And.left ‹_›
  · rfl

/-- Step 4 writes the phase alone (rule R178). -/
theorem wfComplete_eq (i : Nat) (f : Fragment) (c : WfContext) :
    (wfComplete i f c).1 = { c with phase := (wfComplete i f c).1.phase } := by
  unfold wfComplete
  split <;> rfl

/-- Step 4 leaves Idle exactly a complete frame (rule R178). -/
theorem wfComplete_phase (i : Nat) (f : Fragment) {c : WfContext} (h : c.phase = .accumulating) :
    (wfComplete i f c).1.phase = .idle ↔ c.filled = c.total.toNat := by
  unfold wfComplete
  split <;> simp [*]

/-- What a fragment leaves in a context but the buffer: its total, a valid timecode, and Idle exactly when
the count equals the total. -/
theorem wfAccept_configured (i : Nat) (f : Fragment) (c : WfContext) :
    (wfAccept i f c).1.total = f.total ∧ (wfAccept i f c).1.tcv = true ∧
      ((wfAccept i f c).1.phase = .idle ↔
        (wfAccept i f c).1.filled = (wfAccept i f c).1.total.toNat) := by
  let c3 := wfCopy f (wfNewFrame i f (wfConfigure i f c).1).1
  have e : (wfAccept i f c).1 = (wfComplete i f c3).1 := rfl
  have htotal : c3.total = f.total :=
    (wfNewFrame_total i f (wfConfigure i f c).1).trans (wfConfigure_total i f c)
  have htcv : c3.tcv = true := wfNewFrame_tcv i f (wfConfigure i f c).1
  have hphase := wfComplete_phase i f (c := c3) rfl
  rw [e, wfComplete_eq i f c3]
  exact ⟨htotal, htcv, hphase⟩

/-- A valid fragment keeps the invariants of its context (rules R34, R35). -/
theorem wfAccept_inv (i : Nat) {f : Fragment} {c : WfContext} (hf : ValidFragment f)
    (hc : ContextInv c) : ContextInv (wfAccept i f c).1 := by
  obtain ⟨htotal, htcv, hphase⟩ := wfAccept_configured i f c
  refine { unconfigured := fun h => absurd (htotal ▸ h) hf.total_ne, configured := fun _ => htcv,
           phase := hphase, buf_wf := ?_, buf_below := ?_ }
  · rw [wfAccept_buf]
    apply Memory.writeList_wf
    split
    · exact hc.buf_wf
    · exact Memory.zeroBelow_wf hc.buf_wf _
  · rw [wfAccept_buf]
    apply Memory.writeList_below
    · have hrange := hf.range
      have htot := f.total.isLt
      rw [hf.bins_len]
      show _ ≤ 65535
      omega
    · split
      · exact hc.buf_below
      · exact Memory.zeroBelow_below hc.buf_below

/-! ## What keeps the invariant of the block, group by group -/

/-- The invariant reads the registers of the ring, of the two sequencers, of the waterfall slots and
contexts, and the configuration, and nothing else. -/
theorem BlockInv.of_eq {s t : State} (h : BlockInv s) (hcfg : t.cfg = s.cfg := by rfl)
    (hrb : t.rb = s.rb := by rfl) (hrd : t.rd = s.rd := by rfl) (hpb : t.pb = s.pb := by rfl)
    (hsid : t.sid.wf = s.sid.wf := by rfl) (hwf : t.wf = s.wf := by rfl) : BlockInv t :=
  { params := hcfg ▸ h.params, ring := hcfg ▸ hrb ▸ h.ring, read := hrd ▸ h.read,
    push := hpb ▸ h.push, table := hcfg ▸ hsid ▸ h.table, contexts := hcfg ▸ hwf ▸ h.contexts,
    context := hwf ▸ h.context }

theorem BlockInv.with_ring {s : State} {r : Ring} (h : BlockInv s) (hr : RingInv s.cfg.rbCap r) :
    BlockInv { s with rb := r } := { h with ring := hr }

theorem BlockInv.with_read {s : State} {r : ReadSeq} (h : BlockInv s) (hr : ReadInv r) :
    BlockInv { s with rd := r } := { h with read := hr }

theorem BlockInv.with_push {s : State} {p : PushSeq} (h : BlockInv s) (hp : PushInv p) :
    BlockInv { s with pb := p } := { h with push := hp }

/-- Every context reads as one that meets the invariant, one past the list too (log 20). -/
theorem BlockInv.context_inv {s : State} (h : BlockInv s) (i : Nat) : ContextInv (s.context i) := by
  by_cases hi : i < s.wf.length
  · have e : s.context i = s.wf[i] := by simp [State.context, hi]
    exact e ▸ h.context _ (List.getElem_mem hi)
  · have e : s.context i = WfContext.reset := by
      simp [State.context, List.getElem?_eq_none (Nat.not_lt.1 hi)]
    exact e ▸ contextReset_inv

theorem BlockInv.setContext {s : State} {c : WfContext} (h : BlockInv s) (hc : ContextInv c)
    (i : Nat) : BlockInv (setContext i c s) :=
  { h with
    contexts := List.length_set.trans h.contexts
    context := fun c' hc' => (List.mem_or_eq_of_mem_set hc').elim (h.context c') (· ▸ hc) }

/-- A fragment keeps the invariant of the block. -/
theorem wfApply_keeps_inv {s : State} (h : BlockInv s) (i : Nat) (f : Fragment) :
    BlockInv (wfApply i f s).2 := by
  rcases wfApply_cases i f s with ⟨sub, -, e⟩ | ⟨hf, e⟩ <;> rw [e]
  · exact h.of_eq
  · have hc := wfAccept_inv i ((fragmentError_none_iff f).1 hf) (h.context_inv i)
    exact (h.setContext hc i).of_eq

/-- A datagram keeps the invariant of the block, under every `tile_parse`. -/
theorem routeDatagram_keeps_inv {s : State} (h : BlockInv s) (parse : List Byte → Option Fragment)
    (b : List Byte) : BlockInv (routeDatagram parse b s).2 := by
  rcases routeDatagram_cases parse b s with e | ⟨sub, e⟩ | ⟨p, e⟩ | ⟨i, f, -, e⟩ <;> rw [e]
  · exact h
  · exact h.of_eq
  · exact h.of_eq
  · exact wfApply_keeps_inv h i f

/-- SIDSET keeps the invariant of the block: the slot's context goes to its reset state (rule R157). -/
theorem setSlot_keeps_inv {s : State} (h : BlockInv s) (slot : Slot) (v : Word) :
    BlockInv (setSlot slot v s) := by
  cases slot with
  | wf i =>
    have h' : BlockInv { s with sid := { s.sid with wf := s.sid.wf.set i.val v } } :=
      { h with table := List.length_set.trans h.table }
    exact h'.setContext contextReset_inv i.val
  | rxa | tx => exact h.of_eq

/-! ## The instructions -/

/-- A PUSHB of at most MAX_BATCH samples starts in a legal state of its sequencer (rule R222). -/
theorem pbStart_inv {vs : List Sample} (hlen : vs.length ≤ Config.maxBatch) (s : State) :
    PushInv (pbStart vs s).pb := by
  refine { ins_eq := rfl, j_le := Nat.zero_le _, k_le := hlen, left := ?_, samples_len := rfl }
  simp only [pbStart]
  intro hst
  split at hst
  · rcases hst with hst | hst <;> cases hst
  · omega

/-- A READ of at least one element starts in a legal state of its sequencer (rule R229). -/
theorem rdStart_inv {m : BitVec 16} (hm : m ≠ 0) {s : State} (h : ReadInv s.rd) :
    ReadInv (rdStart m s).rd := by
  have hlt := m.isLt
  have hpos : 1 ≤ m.toNat := by
    have := (BitVec.toNat_ne (x := m) (y := 0)).1 hm
    simp only [BitVec.ofNat_eq_ofNat, BitVec.toNat_ofNat] at this
    omega
  refine { n_le := Nat.zero_le _, m_le := ?_, asked := fun _ => hpos, waiting := fun _ => rfl,
           out_wf := h.out_wf, out_below := h.out_below }
  show m.toNat ≤ 65535
  omega

/-- Every instruction keeps the invariant of the block, a PUSHB of at most MAX_BATCH samples. -/
theorem exec_keeps_inv {i : Instr} {s t : State} (h : BlockInv s)
    (hlen : ∀ vs, i = .pushb vs → vs.length ≤ Config.maxBatch) (he : exec i s = .next t) :
    BlockInv t := by
  rcases exec_cases he with rfl | heff
  · exact h.of_eq
  cases i <;> simp only [InstrEffect] at heff
  case decode | encode | rbsize | txinit | daset | closeStream | openStream =>
    exact heff ▸ h.of_eq
  case txpkt => rcases heff with ⟨-, rfl⟩ | ⟨-, rfl⟩ <;> exact h.of_eq
  case dawait => rcases heff with rfl | ⟨-, rfl⟩ <;> exact h.of_eq
  case rxdgram b =>
    exact heff ▸ (routeDatagram_keeps_inv h Config.tileParse b).of_eq
  case sidset slot v => exact heff.2 ▸ setSlot_keeps_inv h slot v
  case wffrag c f =>
    exact heff.2 ▸ (wfApply_keeps_inv h c.toNat f).of_eq
  case rbins e => exact heff ▸ h.with_ring (ringInsert_inv e h.ring)
  case rbclr => exact heff ▸ h.with_ring (ringClear_inv h.ring)
  case rbpop =>
    rcases heff with ⟨-, rfl⟩ | ⟨hsize, rfl⟩
    · exact h.of_eq
    · exact (h.with_ring (ringPop_inv h.ring (if_neg hsize))).of_eq
  case pushb vs => exact heff.2 ▸ h.with_push (pbStart_inv (hlen vs rfl) s)
  case read m =>
    obtain ⟨hm, -, rfl⟩ := heff
    exact h.with_read (rdStart_inv hm h.read)

/-! ## The micro-steps -/

/-- Every micro-step of PUSHB keeps the invariant of the block. -/
theorem pbStep_keeps_inv {s : State} (h : BlockInv s) : BlockInv (pbStep s) := by
  have hp := h.push
  rcases pbStep_cases s with ⟨-, e⟩ | ⟨hst, e⟩ | ⟨hst, e⟩ | ⟨-, e⟩ <;> rw [e]
  · exact h
  · have hleft : s.pb.j < s.pb.k := hp.left (.inl hst)
    unfold pbCheck
    split
    · have h' : BlockInv { s with pb := { s.pb with state := .done } } :=
        h.with_push { hp with left := fun _ => hleft }
      exact h'.of_eq
    · exact h.with_push { hp with left := fun _ => hleft }
  · have hleft : s.pb.j < s.pb.k := hp.left (.inr hst)
    have hring : BlockInv (insertElem (f32 (pbSample s)) s) :=
      h.with_ring (ringInsert_inv _ h.ring)
    refine hring.with_push { ins_eq := congrArg (· + 1) hp.ins_eq, j_le := hleft, k_le := hp.k_le,
                             left := ?_, samples_len := hp.samples_len }
    dsimp only
    intro hst'
    split at hst'
    · rcases hst' with hst' | hst' <;> cases hst'
    · omega
  · have h' : BlockInv { s with pb := { s.pb with state := .idle } } :=
      h.with_push { hp with left := by simp }
    unfold pbDone
    split <;> exact h'.of_eq

/-- The end of a READ leaves its sequencer in a legal state. -/
theorem rdFinish_keeps_inv {s : State} (h : BlockInv s) (n : Nat) (closed : Bool) :
    BlockInv (rdFinish n closed s) := by
  have h' : BlockInv { s with rd := { s.rd with state := .idle } } :=
    h.with_read { h.read with asked := fun hst => absurd rfl hst, waiting := by simp }
  exact h'.of_eq

/-- Every micro-step of READ keeps the invariant of the block. -/
theorem rdStep_keeps_inv {s : State} (h : BlockInv s) : BlockInv (rdStep s) := by
  have hr := h.read
  rcases rdStep_cases s with ⟨-, e⟩ | ⟨hst, e⟩ | ⟨hst, e⟩ | ⟨hst, e⟩ | ⟨hst, e⟩ <;> rw [e]
  · exact h
  all_goals have hasked : 1 ≤ s.rd.m := hr.asked (by simp [hst])
  · have hcheck : BlockInv { s with rd := { s.rd with state := .check } } :=
      h.with_read { hr with asked := fun _ => hasked, waiting := by simp }
    unfold rdFill
    split
    · exact hcheck
    · rename_i hne
      rcases ringPop_eq s.cfg.rbCap s.rb with ⟨-, hp⟩ | ⟨-, hp⟩ <;> rw [hp]
      · exact hcheck
      · have hlt : s.rd.n < s.rd.m := Nat.lt_of_le_of_ne hr.n_le hne
        exact (h.with_ring (ringPop_inv h.ring hp)).with_read
          { n_le := hlt, m_le := hr.m_le, asked := hr.asked, waiting := by simp [hst],
            out_wf := Memory.write_wf hr.out_wf _ _,
            out_below := Memory.write_below (Nat.lt_of_lt_of_le hlt hr.m_le) hr.out_below }
  · unfold rdCheck
    split
    · exact rdFinish_keeps_inv h _ _
    · have hn : s.rd.n = 0 := Nat.eq_zero_of_not_pos ‹_›
      split
      · exact rdFinish_keeps_inv h _ _
      · exact h.with_read { hr with asked := fun _ => hasked, waiting := fun _ => hn }
  · have hn : s.rd.n = 0 := hr.waiting (.inl hst)
    unfold rdWait
    split
    · have h' : BlockInv { s with rd := { s.rd with state := .woken } } :=
        h.with_read { hr with asked := fun _ => hasked, waiting := fun _ => hn }
      exact h'.of_eq
    · exact h
  · unfold rdWoken
    split
    · exact rdFinish_keeps_inv h _ _
    · exact h.with_read { hr with asked := fun _ => hasked, waiting := by simp }

/-! ## Reset -/

/-- A READ sequencer after reset is in a legal state. -/
theorem readReset_inv : ReadInv ReadSeq.reset :=
  { n_le := Nat.le_refl _, m_le := Nat.zero_le _, asked := fun h => absurd rfl h,
    waiting := fun _ => rfl, out_wf := rfl, out_below := rfl }

/-- A PUSHB sequencer after reset is in a legal state. -/
theorem pushReset_inv : PushInv PushSeq.reset :=
  { ins_eq := rfl, j_le := Nat.le_refl _, k_le := Nat.zero_le _,
    left := by simp [PushSeq.reset], samples_len := rfl }

/-- The invariant holds after reset under every legal configuration. -/
theorem resetWith_inv {p : Params} (h : p.ok = true) : BlockInv (State.resetWith p) := by
  have hcap : 0 < p.rbCap := by
    simp only [Params.ok, Bool.and_eq_true, decide_eq_true_eq] at h
    omega
  exact
    { params := h, ring := ringReset_inv hcap, read := readReset_inv, push := pushReset_inv
      table := List.length_replicate, contexts := List.length_replicate
      context := fun c hc => List.eq_of_mem_replicate hc ▸ contextReset_inv }

/-- HOST's reset restores the invariant, whatever the registers held. -/
theorem applyReset_keeps_inv {s : State} (h : BlockInv s) : BlockInv (applyReset s) :=
  (resetWith_inv h.params).of_eq

/-! ## The turns -/

/-- An agent's turn to issue keeps the invariant of the block. -/
theorem issueTurn_keeps_inv {a : Agent} {s t : State} (h : BlockInv s)
    (ht : issueTurn a s = .next t) : BlockInv t := by
  have hstream : ∀ cs, BlockInv (withStream a cs s) := fun _ => h.of_eq
  rcases issueTurn_cases ht with rfl | ⟨c, cs, i, -, hdec, -, he⟩ | ⟨c, cs, -, rfl⟩
  · exact h
  · refine exec_keeps_inv (hstream cs) (fun vs hi => ?_) he
    subst hi
    exact decodeCommand_pushb_length hdec
  · exact (hstream cs).of_eq

/-- Every turn keeps the invariant of the block. -/
theorem takeTurn_keeps_inv {u : Turn} {s t : State} (h : BlockInv s)
    (ht : takeTurn u s = .next t) : BlockInv t := by
  rcases takeTurn_cases ht with ⟨a, -, hi⟩ | ⟨q, -, rfl⟩ | ⟨-, rfl⟩ | ⟨e, -, rfl⟩
  · exact issueTurn_keeps_inv h hi
  · cases q
    · exact pbStep_keeps_inv h
    · exact rdStep_keeps_inv h
  · exact applyReset_keeps_inv h
  · exact h.of_eq

/-- Settles O56: the step is one turn, and every turn keeps the invariant. -/
theorem stepKeepsInv : Obligations.StepKeepsInv := by
  intro s t h hs
  rcases step_cases hs with ⟨-, rfl⟩ | ⟨u, us, -, ht⟩
  · exact h
  · have hturns : BlockInv (withTurns us s) := h.of_eq
    exact takeTurn_keeps_inv hturns ht

/-- Settles O55, the base case of O56; the default parameters are a legal configuration. -/
theorem invAtReset : Obligations.InvAtReset :=
  ⟨fun _ hp => resetWith_inv hp, resetWith_inv rfl⟩

end Sys2Proof.Machine
end

section
/-! Who writes what (rule R50): what each instruction and each micro-step can change. -/

namespace Sys2Proof.Machine

open Sys2Proof

/-! ## What can be written -/

/-- What an instruction may have changed from `s` to `t`, register by register. A register for which a
proof says nothing is the same in `t`. -/
structure InstrWrites (i : Instr) (s t : State) : Prop where
  cfg : t.cfg = s.cfg := by rfl
  env : t.env = s.env := by rfl
  head : t.rb.head ≠ s.rb.head → (∃ e, i = .rbins e) ∨ i = .rbclr := by exact absurd rfl
  tail : t.rb.tail ≠ s.rb.tail →
    ((∃ e, i = .rbins e) ∧ s.rb.size = s.cfg.rbCap) ∨ i = .rbpop ∨ i = .rbclr := by
      exact absurd rfl
  size : t.rb.size ≠ s.rb.size → (∃ e, i = .rbins e) ∨ i = .rbpop ∨ i = .rbclr := by
    exact absurd rfl
  mem : t.rb.mem ≠ s.rb.mem →
    (∃ e, i = .rbins e ∧ t.rb.mem = Memory.write s.rb.mem s.rb.head e) ∨ i = .rbclr := by
      exact absurd rfl
  elem : ∀ a, Memory.read t.rb.mem a ≠ Memory.read s.rb.mem a →
    ((∃ e, i = .rbins e) ∧ a = s.rb.head) ∨ (i = .rbclr ∧ a < s.cfg.rbCap) := by
      exact fun _ => absurd rfl
  da : t.da ≠ s.da → i = .daset ∨ i = .dawait := by exact absurd rfl
  closed : t.closed ≠ s.closed → i = .closeStream ∨ i = .openStream := by exact absurd rfl
  rd : t.rd ≠ s.rd → ∃ m, i = .read m := by exact absurd rfl
  rd_out : t.rd.out = s.rd.out := by rfl
  pb : t.pb ≠ s.pb → ∃ vs, i = .pushb vs := by exact absurd rfl
  rxa : t.sid.rxa ≠ s.sid.rxa → ∃ v, i = .sidset .rxa v := by exact absurd rfl
  tx : t.sid.tx ≠ s.sid.tx → ∃ v, i = .sidset .tx v := by exact absurd rfl
  slot : ∀ j : Nat, t.sid.wf[j]? ≠ s.sid.wf[j]? → ∃ k v, i = .sidset (.wf k) v ∧ k.val = j := by
    exact fun _ => absurd rfl
  context : ∀ j : Nat, t.wf[j]? ≠ s.wf[j]? →
    (∃ c f, i = .wffrag c f ∧ c.toNat = j) ∨ (∃ k v, i = .sidset (.wf k) v ∧ k.val = j) ∨
    ∃ b f, i = .rxdgram b ∧ reassembles Config.tileParse b s j f := by exact fun _ => absurd rfl
  txSeq : t.txSeq ≠ s.txSeq → i = .txinit ∨ ∃ p, i = .txpkt p := by exact absurd rfl

/-- What a micro-step of PUSHB may have changed from `s` to `t`. -/
structure PushWrites (s t : State) : Prop where
  frame : t = { s with
    rb := t.rb
    da := t.da
    pb := { t.pb with k := s.pb.k, samples := s.pb.samples }
    out := { s.out with err := t.out.err, dataOut := t.out.dataOut } } := by rfl
  rb : t.rb ≠ s.rb → s.pb.state = .insert ∧
    t.rb = ringInsert s.cfg.rbCap (f32 (s.pb.samples.getD s.pb.j 0)) s.rb := by exact absurd rfl
  tail : t.rb.tail ≠ s.rb.tail → s.rb.size = s.cfg.rbCap := by exact absurd rfl
  elem : ∀ a, a ≠ s.rb.head → Memory.read t.rb.mem a = Memory.read s.rb.mem a := by
    exact fun _ _ => rfl
  da : t.da ≠ s.da → s.pb.state = .done := by exact absurd rfl
  count : t.pb.j ≠ s.pb.j ∨ t.pb.ins ≠ s.pb.ins → s.pb.state = .insert := by
    exact fun h => h.elim (absurd rfl) (absurd rfl)
  err : t.out.err ≠ s.out.err → s.pb.state = .check := by exact absurd rfl
  dataOut : t.out.dataOut ≠ s.out.dataOut → s.pb.state = .done := by exact absurd rfl

/-- What a micro-step of READ may have changed from `s` to `t`. -/
structure ReadWrites (s t : State) : Prop where
  frame : t = { s with
    rb := { s.rb with tail := t.rb.tail, size := t.rb.size }
    da := t.da
    rd := { t.rd with m := s.rd.m }
    out := { s.out with dataOut := t.out.dataOut } } := by rfl
  rb : t.rb ≠ s.rb → s.rd.state = .fill := by exact absurd rfl
  da : t.da ≠ s.da → s.rd.state = .wait := by exact absurd rfl
  n : t.rd.n ≠ s.rd.n → s.rd.state = .fill := by exact absurd rfl
  out : t.rd.out ≠ s.rd.out → s.rd.state = .fill ∧
    t.rd.out = Memory.write s.rd.out s.rd.n (Memory.read s.rb.mem s.rb.tail) := by
      exact absurd rfl
  elem : ∀ a, a ≠ s.rd.n → Memory.read t.rd.out a = Memory.read s.rd.out a := by
    exact fun _ _ => rfl
  dataOut : t.out.dataOut ≠ s.out.dataOut → s.rd.state = .check ∨ s.rd.state = .woken := by
    exact absurd rfl

/-! ## The rules of the operations -/

/-- A write of one entry of a list changes no other. -/
theorem eq_of_getElem?_set_ne {α : Type} {l : List α} {i j : Nat} {x : α}
    (h : (l.set i x)[j]? ≠ l[j]?) : i = j := by
  by_contra hne
  exact h (List.getElem?_set_ne hne)

/-- SIDSET writes its slot, and the context of a waterfall slot (rules R156, R157). -/
theorem sidset_writes (slot : Slot) (v : Word) (s : State) :
    InstrWrites (.sidset slot v) s (setSlot slot v s) := by
  cases slot with
  | rxa => exact { rxa := fun _ => ⟨v, rfl⟩ }
  | tx => exact { tx := fun _ => ⟨v, rfl⟩ }
  | wf k =>
    exact
      { slot := fun j h => ⟨k, v, rfl, eq_of_getElem?_set_ne h⟩
        context := fun j h => .inr (.inl ⟨k, v, rfl, eq_of_getElem?_set_ne h⟩) }

/-- WFFRAG writes the context it names (rule R170). -/
theorem wffrag_writes (c : BitVec 8) (f : Fragment) (s : State) (r : Result) :
    InstrWrites (.wffrag c f) s (deliver r (wfApply c.toNat f s).2) := by
  rcases wfApply_cases c.toNat f s with ⟨sub, -, e⟩ | ⟨-, e⟩ <;> rw [e]
  · exact {}
  · exact { context := fun j h => .inl ⟨c, f, rfl, eq_of_getElem?_set_ne h⟩ }

/-- RXDGRAM writes the context whose reassembler takes the fragment (rules R150, R153). -/
theorem rxdgram_writes (b : List Byte) (s : State) (r : Result) :
    InstrWrites (.rxdgram b) s (deliver r (routeDatagram Config.tileParse b s).2) := by
  by_cases h : ∃ i f, reassembles Config.tileParse b s i f
  · obtain ⟨i, f, hr⟩ := h
    rw [routeDatagram_reassembles hr]
    refine { context := fun j hj => .inr (.inr ⟨b, f, rfl, ?_⟩) }
    obtain rfl : i = j := eq_of_getElem?_set_ne hj
    exact hr
  · have hnone : ∀ i f, ¬ reassembles Config.tileParse b s i f := fun i f hr => h ⟨i, f, hr⟩
    rcases routeDatagram_other hnone with e | ⟨sub, e⟩ | ⟨p, e⟩ <;> rw [e] <;> exact {}

/-- Each instruction writes the registers that rule R50 names it for. -/
theorem exec_writes {i : Instr} {s t : State} (h : exec i s = .next t) : InstrWrites i s t := by
  rcases exec_cases h with rfl | heff
  · exact {}
  cases i <;> simp only [InstrEffect] at heff
  case decode | encode | rbsize =>
    subst heff
    exact {}
  case txpkt p =>
    rcases heff with ⟨-, rfl⟩ | ⟨-, rfl⟩
    · exact {}
    · exact { txSeq := fun _ => .inr ⟨p, rfl⟩ }
  case txinit =>
    subst heff
    exact { txSeq := fun _ => .inl rfl }
  case rxdgram b => exact heff ▸ rxdgram_writes b s _
  case sidset slot v => exact heff.2 ▸ sidset_writes slot v s
  case wffrag c f => exact heff.2 ▸ wffrag_writes c f s _
  case rbins e =>
    subst heff
    refine { head := fun _ => .inl ⟨e, rfl⟩, tail := fun h => .inl ⟨⟨e, rfl⟩, ringInsert_tail h⟩,
             size := fun _ => .inl ⟨e, rfl⟩, mem := fun _ => .inl ⟨e, rfl, rfl⟩,
             elem := fun a h => .inl ⟨⟨e, rfl⟩, ?_⟩ }
    by_contra ha
    exact h (ringInsert_read_other _ e s.rb ha)
  case rbpop =>
    rcases heff with ⟨-, rfl⟩ | ⟨-, rfl⟩
    · exact {}
    · exact { tail := fun _ => .inr (.inl rfl), size := fun _ => .inr (.inl rfl) }
  case rbclr =>
    subst heff
    exact { head := fun _ => .inr rfl, tail := fun _ => .inr (.inr rfl),
            size := fun _ => .inr (.inr rfl), mem := fun _ => .inr rfl,
            elem := fun _ h => .inr ⟨rfl, ringClear_read h⟩ }
  case pushb vs =>
    obtain ⟨-, rfl⟩ := heff
    exact { pb := fun _ => ⟨vs, rfl⟩ }
  case read m =>
    obtain ⟨-, -, rfl⟩ := heff
    exact { rd := fun _ => ⟨m, rfl⟩ }
  case daset =>
    subst heff
    exact { da := fun _ => .inl rfl }
  case dawait =>
    rcases heff with rfl | ⟨-, rfl⟩
    · exact { da := fun _ => .inr rfl }
    · exact {}
  case closeStream =>
    subst heff
    exact { closed := fun _ => .inl rfl }
  case openStream =>
    subst heff
    exact { closed := fun _ => .inr rfl }

/-! ## The micro-steps -/

/-- The micro-steps of PUSHB write the ring by their RBINS alone (rules R222 to R226). -/
theorem pbStep_writes (s : State) : PushWrites s (pbStep s) := by
  rcases pbStep_cases s with ⟨-, e⟩ | ⟨hst, e⟩ | ⟨hst, e⟩ | ⟨hst, e⟩ <;> rw [e]
  · exact {}
  · unfold pbCheck
    split
    · exact { err := fun _ => hst }
    · exact {}
  · exact { rb := fun _ => ⟨hst, rfl⟩, tail := ringInsert_tail,
            elem := fun _ => ringInsert_read_other _ _ s.rb, count := fun _ => hst }
  · unfold pbDone
    split
    · exact { da := fun _ => hst, dataOut := fun _ => hst }
    · exact { dataOut := fun _ => hst }

/-- The micro-steps of READ keep RB_HEAD and RB_MEM and write RD_OUT at the element RD_N names alone
(rules R229 to R234). -/
theorem rdStep_writes (s : State) : ReadWrites s (rdStep s) := by
  rcases rdStep_cases s with ⟨-, e⟩ | ⟨hst, e⟩ | ⟨hst, e⟩ | ⟨hst, e⟩ | ⟨hst, e⟩ <;> rw [e]
  · exact {}
  · unfold rdFill
    split
    · exact {}
    · rcases ringPop_eq s.cfg.rbCap s.rb with ⟨-, hp⟩ | ⟨-, hp⟩ <;> rw [hp]
      · exact {}
      · exact { rb := fun _ => hst, n := fun _ => hst, out := fun _ => ⟨hst, rfl⟩,
                elem := fun _ ha => Memory.read_write_other ha.symm }
  · unfold rdCheck
    split
    · exact { dataOut := fun _ => .inl hst }
    · split
      · exact { dataOut := fun _ => .inl hst }
      · exact {}
  · unfold rdWait
    split
    · exact { da := fun _ => hst }
    · exact {}
  · unfold rdWoken
    split
    · exact { dataOut := fun _ => .inr hst }
    · exact {}

/-- Settles O58, from what each instruction and each micro-step may change. -/
theorem writtenBy : Obligations.WrittenBy := by
  refine ⟨fun i s t h => ?_, ?_, ?_⟩
  · have w := exec_writes h
    exact ⟨w.cfg, w.env, w.head, w.tail, w.size, w.mem, w.elem, w.da, w.closed, w.rd, w.rd_out, w.pb,
      w.rxa, w.tx, w.slot, w.context, w.txSeq⟩
  · rintro s _ rfl
    have w := pbStep_writes s
    exact ⟨w.frame, w.rb, w.tail, w.elem, w.da, w.count, w.err, w.dataOut⟩
  · rintro s _ rfl
    have w := rdStep_writes s
    exact ⟨w.frame, w.rb, w.da, w.n, w.out, w.elem, w.dataOut⟩

end Sys2Proof.Machine
end

section
/-! The traces are outputs: what a step appends to them, and everything else it does, is the same whatever they
held (rules R21, R267, R284). -/

namespace Sys2Proof.Machine

open Sys2Proof

/-! ## Traces put in the place of others -/

/-- The traces `o` with those of `d` appended, trace by trace. -/
def Traces.append (o d : Traces) : Traces :=
  { evt := o.evt ++ d.evt, err := o.err ++ d.err, txOut := o.txOut ++ d.txOut,
    rxaOut := o.rxaOut ++ d.rxaOut, dataOut := o.dataOut ++ d.dataOut }

theorem Traces.append_start (o : Traces) : o.append Traces.start = o := by
  simp [Traces.append, Traces.start]

/-- The state with the traces `o` in the place of its own. -/
def State.withTraces (o : Traces) (s : State) : State := { s with out := o }

/-- The outcome with the traces `o` in the next state, if there is one. -/
def outcomeWithTraces (o : Traces) :
    Host.Outcome State Fault Refusal → Host.Outcome State Fault Refusal
  | .next t => .next (t.withTraces o)
  | .fault r => .fault r
  | .refused r => .refused r

/-! ## Updates of the state -/

/-- On `s`, `f` appends to the traces, and does the same whatever the traces hold. -/
def Appends (f : State → State) (s : State) : Prop :=
  ∃ d : Traces, ∀ o, f (s.withTraces o) = (f s).withTraces (o.append d)

section Updates
variable {f : State → State} {s : State}

/-- An update that neither reads nor writes the traces. -/
theorem Appends.of_keeps (h : ∀ o, f (s.withTraces o) = (f s).withTraces o) : Appends f s :=
  ⟨Traces.start, fun o => by rw [h, Traces.append_start]⟩

/-- An update followed by a write of the traces that puts its records, which do not depend on them, behind
what stands there. -/
theorem Appends.write {w : State → Traces → Traces} (hf : Appends f s)
    (hw : ∀ o, w (s.withTraces o) = w s) (ha : ∀ o d : Traces, w s (o.append d) = o.append (w s d)) :
    Appends (fun s => (f s).withTraces (w s (f s).out)) s := by
  obtain ⟨d, hd⟩ := hf
  refine ⟨w s d, fun o => ?_⟩
  dsimp only
  rw [hw, hd, ← ha]
  rfl

theorem Appends.deliver {g : State → Result} (hf : Appends f s)
    (hg : ∀ o, g (s.withTraces o) = g s) : Appends (fun s => deliver (g s) (f s)) s :=
  hf.write (w := fun s t => { t with dataOut := t.dataOut ++ [g s] }) (fun o => by rw [hg])
    fun o d => by simp [Traces.append]

theorem Appends.emit {g : State → List Event} (hf : Appends f s)
    (hg : ∀ o, g (s.withTraces o) = g s) : Appends (fun s => emit (g s) (f s)) s :=
  hf.write (w := fun s t => { t with evt := t.evt ++ g s }) (fun o => by rw [hg])
    fun o d => by simp [Traces.append]

theorem Appends.raise {g : State → ErrRecord} (hf : Appends f s)
    (hg : ∀ o, g (s.withTraces o) = g s) : Appends (fun s => raise (g s) (f s)) s :=
  hf.write (w := fun s t => { t with err := t.err ++ [g s] }) (fun o => by rw [hg])
    fun o d => by simp [Traces.append]

theorem Appends.sendTx {g : State → List Byte} (hf : Appends f s)
    (hg : ∀ o, g (s.withTraces o) = g s) : Appends (fun s => sendTx (g s) (f s)) s :=
  hf.write (w := fun s t => { t with txOut := t.txOut ++ [g s] }) (fun o => by rw [hg])
    fun o d => by simp [Traces.append]

theorem Appends.sendRxa {g : State → List Byte} (hf : Appends f s)
    (hg : ∀ o, g (s.withTraces o) = g s) : Appends (fun s => sendRxa (g s) (f s)) s :=
  hf.write (w := fun s t => { t with rxaOut := t.rxaOut ++ [g s] }) (fun o => by rw [hg])
    fun o d => by simp [Traces.append]

/-- An update that does what `g` does, whatever the traces hold. -/
theorem Appends.congr {g : State → State} (hg : Appends g s)
    (h : ∀ o, f (s.withTraces o) = g (s.withTraces o)) : Appends f s := by
  obtain ⟨d, hd⟩ := hg
  have hs : f s = g s := h s.out
  exact ⟨d, fun o => by rw [h, hd, hs]⟩

/-- A branch on a condition that does not read the traces. -/
theorem Appends.ite {c : State → Prop} [DecidablePred c] {g : State → State}
    (hc : ∀ o, c (s.withTraces o) ↔ c s) (hf : Appends f s) (hg : Appends g s) :
    Appends (fun s => if c s then f s else g s) s := by
  by_cases h : c s
  · exact hf.congr fun o => if_pos ((hc o).2 h)
  · exact hg.congr fun o => if_neg (mt (hc o).1 h)

theorem raise_appends (e : ErrRecord) (s : State) : Appends (raise e) s :=
  (Appends.of_keeps (f := id) fun _ => rfl).raise fun _ => rfl

theorem sendRxa_appends (p : List Byte) (s : State) : Appends (sendRxa p) s :=
  (Appends.of_keeps (f := id) fun _ => rfl).sendRxa fun _ => rfl

end Updates

/-! ## Steps, which may stop -/

/-- On `s`, the step `f` appends to the traces, and does the same, stopping included, whatever the traces
hold. -/
def StepAppends (f : State → Host.Outcome State Fault Refusal) (s : State) : Prop :=
  ∃ d : Traces, ∀ o, f (s.withTraces o) = outcomeWithTraces (o.append d) (f s)

section Steps
variable {f : State → State} {F G : State → Host.Outcome State Fault Refusal} {s : State}

theorem Appends.next (hf : Appends f s) : StepAppends (fun s => .next (f s)) s := by
  obtain ⟨d, hd⟩ := hf
  exact ⟨d, fun o => congrArg Host.Outcome.next (hd o)⟩

/-- A step that does what `G` does, whatever the traces hold. -/
theorem StepAppends.congr (hG : StepAppends G s)
    (h : ∀ o, F (s.withTraces o) = G (s.withTraces o)) : StepAppends F s := by
  obtain ⟨d, hd⟩ := hG
  have hs : F s = G s := h s.out
  exact ⟨d, fun o => by rw [h, hd, hs]⟩

theorem StepAppends.ite {c : State → Prop} [DecidablePred c]
    (hc : ∀ o, c (s.withTraces o) ↔ c s) (hF : StepAppends F s) (hG : StepAppends G s) :
    StepAppends (fun s => if c s then F s else G s) s := by
  by_cases h : c s
  · exact hF.congr fun o => if_pos ((hc o).2 h)
  · exact hG.congr fun o => if_neg (mt (hc o).1 h)

/-- A step that neither reads nor writes the traces. -/
theorem stepAppends_of_keeps (h : ∀ o, f (s.withTraces o) = (f s).withTraces o) :
    StepAppends (fun s => .next (f s)) s := (Appends.of_keeps h).next

/-- A step that writes no trace and delivers a result that does not depend on them. -/
theorem stepAppends_deliver {g : State → Result}
    (hf : ∀ o, f (s.withTraces o) = (f s).withTraces o) (hg : ∀ o, g (s.withTraces o) = g s) :
    StepAppends (fun s => .next (deliver (g s) (f s))) s := ((Appends.of_keeps hf).deliver hg).next

/-- A refused command appends its record (rule R101). -/
theorem refuseCommand_appends (w : Word) : StepAppends (fun s => .next (refuseCommand w s)) s :=
  (raise_appends _ _).next

end Steps

/-! ## The instructions -/

/-- Whether a fragment is accepted does not depend on the traces. -/
theorem wfApply_accepted_withTraces (i : Nat) (f : Fragment) (s : State) (o : Traces) :
    (wfApply i f (s.withTraces o)).1 = (wfApply i f s).1 := by
  unfold wfApply
  cases fragmentError f <;> rfl

theorem wfApply_appends (i : Nat) (f : Fragment) (s : State) :
    Appends (fun s => (wfApply i f s).2) s := by
  unfold wfApply
  cases fragmentError f with
  | some sub => exact raise_appends _ s
  | none => exact (Appends.of_keeps fun _ => rfl).emit fun _ => rfl

/-- The route of a datagram and what is done with it, whatever the traces hold. -/
theorem routeDatagram_appends (parse : List Byte → Option Fragment) (b : List Byte) (s : State) :
    ∃ (r : Route) (f : State → State), Appends f s ∧
      ∀ o, routeDatagram parse b (s.withTraces o) = (r, f (s.withTraces o)) := by
  unfold routeDatagram
  cases decodePacket b with
  | fail sub => exact ⟨.droppedMalformed, _, raise_appends (.malformedPacket sub) s, fun _ => rfl⟩
  | ok h sid k p =>
    simp only [routePacket]
    by_cases h0 : sid = 0
    · exact ⟨_, id, .of_keeps fun _ => rfl, fun _ => if_pos h0⟩
    simp only [if_neg h0]
    cases hs : findSlot sid 0 s.sid.wf with
    | some i =>
      have hs' : ∀ o, findSlot sid 0 (s.withTraces o).sid.wf = some i := fun _ => hs
      simp only [hs', routeWaterfall]
      cases parse p with
      | none =>
        exact ⟨.droppedMalformed, _, raise_appends (.malformedPacket .tileParse) s, fun _ => rfl⟩
      | some f => exact ⟨_, _, wfApply_appends i f s, fun _ => rfl⟩
    | none =>
      have hs' : ∀ o, findSlot sid 0 (s.withTraces o).sid.wf = none := fun _ => hs
      simp only [hs']
      by_cases hr : s.sid.rxa = sid
      · exact ⟨.toRxAudio, _, sendRxa_appends p s, fun _ => if_pos hr⟩
      · exact ⟨_, id, .of_keeps fun _ => rfl, fun _ => if_neg hr⟩

theorem execRxdgram_appends (b : List Byte) (s : State) : StepAppends (execRxdgram b) s := by
  obtain ⟨r, f, hf, h⟩ := routeDatagram_appends Config.tileParse b s
  have hd : Appends (fun s => deliver (.rxdgram r) (f s)) s := hf.deliver fun _ => rfl
  exact hd.next.congr fun o => by rw [execRxdgram, h]

theorem execWffrag_appends (c : BitVec 8) (f : Fragment) (s : State) :
    StepAppends (execWffrag c f) s :=
  .ite (fun _ => Iff.rfl)
    ((wfApply_appends c.toNat f s).deliver fun o =>
      congrArg Result.wffrag (wfApply_accepted_withTraces c.toNat f s o)).next
    (refuseCommand_appends _)

theorem execTxpkt_appends (p : List Byte) (s : State) : StepAppends (execTxpkt p) s :=
  .ite (fun _ => Iff.rfl)
    (.ite (fun _ => Iff.rfl) (stepAppends_deliver (fun _ => rfl) fun _ => rfl)
      (((Appends.of_keeps fun _ => rfl).sendTx fun _ => rfl).deliver fun _ => rfl).next)
    (refuseCommand_appends _)

theorem execSidset_appends (slot : Slot) (v : Word) (s : State) :
    StepAppends (execSidset slot v) s := by
  refine .ite (fun _ => ?_) (stepAppends_of_keeps fun _ => ?_) (refuseCommand_appends _)
  · cases slot <;> exact Iff.rfl
  · cases slot <;> rfl

theorem execRbpop_appends (s : State) : StepAppends execRbpop s := by
  rw [execRbpop_eq]
  refine .ite (fun _ => Iff.rfl) ?_ ?_ <;> exact stepAppends_deliver (fun _ => rfl) fun _ => rfl

/-- Every instruction appends to the traces and does not read them. -/
theorem exec_appends (i : Instr) (s : State) : StepAppends (exec i) s := by
  cases i
  case decode | rbsize => exact stepAppends_deliver (fun _ => rfl) fun _ => rfl
  case txinit | rbins | rbclr | daset | closeStream | openStream =>
    exact stepAppends_of_keeps fun _ => rfl
  case encode =>
    exact .ite (fun _ => Iff.rfl) (stepAppends_deliver (fun _ => rfl) fun _ => rfl)
      (refuseCommand_appends _)
  case pushb | read =>
    exact .ite (fun _ => Iff.rfl) (stepAppends_of_keeps fun _ => rfl) (refuseCommand_appends _)
  case sidset slot v => exact execSidset_appends slot v s
  case dawait =>
    exact .ite (fun _ => Iff.rfl) (stepAppends_of_keeps fun _ => rfl)
      (stepAppends_of_keeps fun _ => rfl)
  case txpkt p => exact execTxpkt_appends p s
  case rxdgram b => exact execRxdgram_appends b s
  case wffrag c f => exact execWffrag_appends c f s
  case rbpop => exact execRbpop_appends s

/-! ## The micro-steps -/

theorem pbCheck_appends (s : State) : Appends pbCheck s :=
  .ite (fun _ => Iff.rfl) ((Appends.of_keeps fun _ => rfl).raise fun _ => rfl)
    (.of_keeps fun _ => rfl)

theorem pbDone_appends (s : State) : Appends pbDone s := by
  refine Appends.deliver (.of_keeps fun o => ?_) fun _ => rfl
  by_cases h : 1 ≤ s.pb.ins <;> simp [State.withTraces, signalSet, h]

theorem pbStep_appends (s : State) : Appends pbStep s := by
  cases h : s.pb.state
  case idle => exact Appends.congr (g := id) (.of_keeps fun _ => rfl) fun _ => pbStep_idle h
  case check => exact (pbCheck_appends s).congr fun _ => pbStep_check h
  case insert =>
    exact Appends.congr (g := pbInsert) (.of_keeps fun _ => rfl) fun _ => pbStep_insert h
  case done => exact (pbDone_appends s).congr fun _ => pbStep_done h

/-- The end of a READ delivers what RD_OUT holds. -/
theorem rdFinish_appends {n : State → Nat} {s : State} (hn : ∀ o, n (s.withTraces o) = n s)
    (closed : Bool) : Appends (fun s => rdFinish (n s) closed s) s :=
  Appends.deliver (.of_keeps fun _ => rfl) fun o => by rw [hn]; rfl

theorem rdStep_appends (s : State) : Appends rdStep s := by
  cases h : s.rd.state
  case idle => exact Appends.congr (g := id) (.of_keeps fun _ => rfl) fun _ => rdStep_idle h
  case fill =>
    refine Appends.congr (g := rdFill) ?_ fun _ => rdStep_fill h
    rw [rdFill_eq]
    exact .ite (fun _ => Iff.rfl) (.of_keeps fun _ => rfl) (.of_keeps fun _ => rfl)
  case check =>
    refine Appends.congr (g := rdCheck) ?_ fun _ => rdStep_check h
    exact .ite (fun _ => Iff.rfl) (rdFinish_appends (fun _ => rfl) false)
      (.ite (fun _ => Iff.rfl) (rdFinish_appends (fun _ => rfl) true) (.of_keeps fun _ => rfl))
  case wait =>
    refine Appends.congr (g := rdWait) ?_ fun _ => rdStep_wait h
    exact .ite (fun _ => Iff.rfl) (.of_keeps fun _ => rfl) (.of_keeps fun _ => rfl)
  case woken =>
    refine Appends.congr (g := rdWoken) ?_ fun _ => rdStep_woken h
    exact .ite (fun _ => Iff.rfl) (rdFinish_appends (fun _ => rfl) true) (.of_keeps fun _ => rfl)

/-! ## The turns and the step -/

/-- The legality of a command does not read the traces. -/
theorem fieldsLegal_withTraces (op : Opcode) (idx : BitVec 8) (imm : BitVec 16) (s : State)
    (o : Traces) : fieldsLegal op idx imm (s.withTraces o) = fieldsLegal op idx imm s := by
  cases op <;> rfl

/-- A command whose items are not its record is refused, or stops the machine, whatever the traces hold. -/
theorem badRecord_appends (op : Opcode) (w : Word) (s : State) : StepAppends (badRecord op w) s :=
  .ite (fun o => by rw [fieldsLegal_withTraces]) ⟨Traces.start, fun _ => rfl⟩
    (refuseCommand_appends w)

/-- Taking a command off a stream before the step does not touch the traces. -/
theorem StepAppends.withStream {F : State → Host.Outcome State Fault Refusal} {s : State}
    (a : Agent) (cs : List Command) (h : ∀ s, StepAppends F s) :
    StepAppends (fun s => F (withStream a cs s)) s :=
  h (Machine.withStream a cs s)

theorem issueCommand_appends (a : Agent) (c : Command) (cs : List Command) (s : State) :
    StepAppends (issueCommand a c cs) s := by
  unfold issueCommand
  cases decodeCommand c with
  | ok i =>
    refine .ite (fun _ => by cases i <;> exact Iff.rfl) ?_ (stepAppends_of_keeps fun _ => rfl)
    exact .withStream a cs (exec_appends i)
  | error e =>
    cases e with
    | reservedOpcode | formatField => exact .withStream a cs fun _ => refuseCommand_appends c.word
    | operandRecord op => exact .withStream a cs (badRecord_appends op c.word)

theorem issueTurn_appends (a : Agent) (s : State) : StepAppends (issueTurn a) s := by
  refine .ite (fun _ => Iff.rfl) (stepAppends_of_keeps fun _ => rfl) ?_
  cases h : s.env.stream a with
  | nil =>
    refine StepAppends.congr (G := .next) (stepAppends_of_keeps fun _ => rfl) fun o => ?_
    simp [State.withTraces, h]
  | cons c cs =>
    refine (issueCommand_appends a c cs s).congr fun o => ?_
    simp [State.withTraces, h]

theorem takeTurn_appends (u : Turn) (s : State) : StepAppends (takeTurn u) s := by
  cases u with
  | issue a => exact issueTurn_appends a s
  | advance q =>
    cases q
    · exact (pbStep_appends s).next
    · exact (rdStep_appends s).next
  | reset => exact stepAppends_of_keeps fun _ => rfl
  | external e => exact (raise_appends e.record s).next

/-- Every step appends to the traces and does not read them. -/
theorem step_appends (s : State) : StepAppends step s := by
  cases h : s.env.turns with
  | nil =>
    refine StepAppends.congr (G := .next) (stepAppends_of_keeps fun _ => rfl) fun o => ?_
    simp [step, State.withTraces, h]
  | cons u us =>
    obtain ⟨d, hd⟩ := takeTurn_appends u (withTurns us s)
    have hturn := fun o => step_turn (s := s.withTraces o) h
    exact ⟨d, fun o => by rw [hturn, step_turn h]; exact hd o⟩

/-- Settles O60, from `step_appends` with the traces that are there and with any others. -/
theorem tracesNeverRead : Obligations.TracesNeverRead := by
  intro s o
  obtain ⟨d, hd⟩ := step_appends s
  refine ⟨fun t ht => ⟨d.evt, d.err, d.txOut, d.rxaOut, d.dataOut, ?_, ?_⟩, fun r hr => ?_⟩
  · have hself : step s = outcomeWithTraces (s.out.append d) (step s) := hd s.out
    rw [ht] at hself
    injection hself with hself
    exact congrArg State.out hself
  · exact (hd o).trans (congrArg (outcomeWithTraces (o.append d)) ht)
  · exact (hd o).trans (congrArg (outcomeWithTraces (o.append d)) hr)

/-! ## The configuration -/

/-- A micro-step writes no parameter. -/
theorem advanceTurn_cfg (q : Sequencer) (s : State) : (advanceTurn q s).cfg = s.cfg := by
  cases q with
  | pushb => exact (congrArg State.cfg (pbStep_writes s).frame :)
  | read => exact (congrArg State.cfg (rdStep_writes s).frame :)

/-- A turn writes no parameter (rule R21). -/
theorem takeTurn_cfg {u : Turn} {s t : State} (h : takeTurn u s = .next t) : t.cfg = s.cfg := by
  rcases takeTurn_cases h with ⟨a, -, hi⟩ | ⟨q, -, rfl⟩ | ⟨-, rfl⟩ | ⟨e, -, rfl⟩
  · rcases issueTurn_cases hi with rfl | ⟨c, cs, i, -, -, -, he⟩ | ⟨c, cs, -, rfl⟩
    · rfl
    · exact (exec_writes he).cfg
    · rfl
  · exact advanceTurn_cfg q s
  · rfl
  · rfl

theorem step_cfg {s t : State} (h : step s = .next t) : t.cfg = s.cfg := by
  rcases step_cases h with ⟨-, rfl⟩ | ⟨u, us, -, ht⟩
  · rfl
  · exact (takeTurn_cfg ht : t.cfg = (withTurns us s).cfg)

/-- Settles O59: no turn writes a parameter, and the traces after a step are those before it with what it
appends. -/
theorem stepKeepsConfigAndHistory : Obligations.StepKeepsConfigAndHistory := by
  intro s t h
  obtain ⟨ev, er, tx, rx, da, hout, -⟩ := (tracesNeverRead s s.out).1 t h
  rw [hout]
  exact ⟨step_cfg h, ⟨ev, rfl⟩, ⟨er, rfl⟩, ⟨tx, rfl⟩, ⟨rx, rfl⟩, ⟨da, rfl⟩⟩

end Sys2Proof.Machine
end

section
/-! The status outputs of rule R27, and what each is the condition of. -/

namespace Sys2Proof.Machine

open Sys2Proof

theorem statusEmpty_iff (s : State) : statusEmpty s = true ↔ s.rb.size = 0 := decide_eq_true_iff

theorem statusFull_iff (s : State) : statusFull s = true ↔ s.rb.size = s.cfg.rbCap :=
  decide_eq_true_iff

theorem statusNearFull_iff (s : State) :
    statusNearFull s = true ↔ (s.rb.size : Int) > (s.cfg.rbCap : Int) - 4 := by
  have h : statusNearFull s = true ↔ s.cfg.rbCap < s.rb.size + 4 := decide_eq_true_iff
  rw [h]
  omega

/-- RBPOP answers no element exactly when the ring is empty (rules R202, R203). -/
theorem execRbpop_none_iff (s : State) :
    exec .rbpop s = .next (deliver (.rbpop none) s) ↔ s.rb.size = 0 := by
  show execRbpop s = _ ↔ _
  rw [execRbpop_eq]
  by_cases h : s.rb.size = 0
  · simp [h]
  · simp only [iff_false, h]
    intro he
    injection he with he
    have hout := congrArg (fun t : State => t.out.dataOut) he
    simp at hout

/-- The producer's check drops the batch exactly when the ring is nearly full (rule R223). -/
theorem pbCheck_done_iff (s : State) :
    (pbCheck s).pb.state = .done ↔ statusNearFull s = true := by
  unfold pbCheck statusNearFull
  split <;> simp [*]

/-- Settles O37, output by output. -/
theorem statusOutputs : Obligations.StatusOutputs := by
  intro s
  refine ⟨statusEmpty_iff s, statusFull_iff s, statusNearFull_iff s,
    (statusEmpty_iff s).trans (execRbpop_none_iff s).symm, fun e => ⟨insertElem e s, rfl, ?_, ?_⟩,
    fun hst => ?_⟩
  · exact (statusFull_iff s).trans (ringInsert_size_eq_iff s.cfg.rbCap e s.rb).symm
  · intro hr hcap
    refine ⟨?_, fun hfull => ?_, fun hnot => ?_⟩
    · exact (statusFull_iff s).trans (ringInsert_tail_ne_iff e (by omega) hr.tail_lt).symm
    · have hsize := (statusFull_iff s).1 hfull
      have hhead := hr.head_eq_tail hsize
      refine ⟨hhead, ?_, ringInsert_content_full e hr hsize⟩
      rw [← hhead]
      exact Memory.read_write_same hr.mem_wf s.rb.head e
    · have hsize : s.rb.size ≠ s.cfg.rbCap := of_decide_eq_false hnot
      exact ringInsert_content e hr (Nat.lt_of_le_of_ne hr.size_le hsize)
  · show _ ↔ (pbStep s).pb.state = .done
    rw [pbStep_check hst]
    exact (pbCheck_done_iff s).symm

end Sys2Proof.Machine
end

section
/-! The step: the decoded instruction of an agent, or a micro-step of a sequencer; who is held. -/

namespace Sys2Proof.Machine

open Sys2Proof

/-- Settles O5: each clause is the turn's own lemma, in the state with the turn taken. -/
theorem stepRunsDecoded : Obligations.StepRunsDecoded := by
  refine ⟨fun _ => ⟨rfl, rfl, rfl, rfl⟩,
    fun e a b cs => ⟨setStream_turns e a cs, stream_setStream e a b cs⟩,
    fun i s h => instrEnabled_of_ne_dawait h s, ?_, ?_, fun s q ts ht => step_turn ht⟩
  · intro s a c cs ts i ht hs hdec
    have hs' : (withTurns ts s).env.stream a = c :: cs := (stream_withTurns s.env a ts).trans hs
    have hstep : step s = issueTurn a (withTurns ts s) := step_turn ht
    constructor
    · intro hfree hen
      have hfree' : agentHeld a (withTurns ts s) = false := (agentHeld_eq_false a _).2 hfree
      have hen' : instrEnabled i (withTurns ts s) = true := (instrEnabled_iff i _).2 hen
      rw [hstep, issueTurn_of_free hfree' hs', issueCommand_of_enabled hdec hen']
      cases a <;> rfl
    · rintro rfl hda hcl
      rw [hstep]
      cases hheld : agentHeld a (withTurns ts s) with
      | true => exact issueTurn_of_held hheld
      | false =>
        have hen : instrEnabled .dawait (withTurns ts s) = false := by
          simp [instrEnabled, waitEnabled, hda, hcl]
        rw [issueTurn_of_free hheld hs', issueCommand_of_held hdec hen]
        rfl
  · intro s ts ht hst hda hcl
    have hheld : agentHeld .cons (withTurns ts s) = true := by
      simp [agentHeld, readHeld, waitEnabled, hst, hda, hcl]
    exact (step_turn ht).trans (issueTurn_of_held hheld)

end Sys2Proof.Machine
end

section
/-! The decoder and the encoder undo each other: the fields of the command word, the rows of the opcode table, the
operand record, and the two round trips. -/

namespace Sys2Proof.Laws

open Sys2Proof Sys2Proof.Machine

/-! ## The fields of the command word, rule R95 -/

/-- The number a command word is, from its fields. -/
theorem commandWord_toNat (op idx : BitVec 8) (imm : BitVec 16) :
    (commandWord op idx imm).toNat = op.toNat * 2 ^ 24 + idx.toNat * 2 ^ 16 + imm.toNat := by
  simp only [commandWord, BitVec.toNat_append]
  rw [← Nat.shiftLeft_add_eq_or_of_lt imm.isLt, ← Nat.shiftLeft_add_eq_or_of_lt idx.isLt,
    Nat.shiftLeft_eq, Nat.shiftLeft_eq]
  omega

/-- The three fields hold every bit of a command word. -/
theorem commandWord_fields (w : Word) : commandWord (opField w) (idxField w) (immField w) = w := by
  apply BitVec.eq_of_toNat_eq
  rw [commandWord_toNat]
  simp only [opField, idxField, immField, BitVec.extractLsb'_toNat, Nat.shiftRight_eq_div_pow]
  have hw := w.isLt
  omega

/-! ## The rows of the opcode table, rule R100 -/

@[simp] theorem ofCode?_code (op : Opcode) : Opcode.ofCode? op.code = some op := by
  cases op <;> rfl

/-- A row is selected by its own code alone. -/
theorem ofCode?_eq_some_iff {b : BitVec 8} {op : Opcode} :
    Opcode.ofCode? b = some op ↔ b = op.code := by
  refine ⟨fun h => ?_, fun h => h ▸ ofCode?_code op⟩
  unfold Opcode.ofCode? at h
  split at h <;> cases h <;> exact BitVec.eq_of_toNat_eq ‹_›

/-- The fields each format requires to be 0 (rule R95). -/
theorem admits_iff (f : Format) (idx : BitVec 8) (imm : BitVec 16) :
    f.admits idx imm = true ↔
      (f = .z → idx = 0 ∧ imm = 0) ∧ (f = .x → imm = 0) ∧ (f = .l → idx = 0) := by
  cases f <;> simp [Format.admits]

/-- A word selects a row exactly by the row's code and the fields its format admits. -/
theorem decodeWord_eq_ok_iff {w : Word} {op : Opcode} :
    decodeWord w = .ok op ↔
      opField w = op.code ∧ op.format.admits (idxField w) (immField w) = true := by
  rw [← ofCode?_eq_some_iff]
  unfold decodeWord
  cases Opcode.ofCode? (opField w) with
  | none => simp
  | some row =>
    by_cases ha : row.format.admits (idxField w) (immField w) = true
    · simp only [ha, if_true, Except.ok.injEq, Option.some.injEq]
      exact ⟨fun h => ⟨h, h ▸ ha⟩, fun h => h.1⟩
    · simp only [ha, if_false, reduceCtorEq, Option.some.injEq, false_iff, not_and]
      exact fun h => h ▸ ha

/-- The command word of every instruction has its fields and selects its row. -/
theorem wordRow (i : Instr) : WordRow.Statement i := by
  cases i
  case decode => exact WordRow.decode ..
  case encode => exact WordRow.encode ..
  case txpkt => exact WordRow.txpkt ..
  case txinit => exact WordRow.txinit
  case rxdgram => exact WordRow.rxdgram ..
  case sidset => exact WordRow.sidset ..
  case wffrag => exact WordRow.wffrag ..
  case rbins => exact WordRow.rbins ..
  case rbpop => exact WordRow.rbpop
  case rbsize => exact WordRow.rbsize
  case rbclr => exact WordRow.rbclr
  case pushb => exact WordRow.pushb ..
  case read => exact WordRow.read ..
  case daset => exact WordRow.daset
  case dawait => exact WordRow.dawait
  case closeStream => exact WordRow.closeStream
  case openStream => exact WordRow.openStream

/-- Settles O3: a word is its three fields, and a row constrains them by its code and its format. -/
theorem decodeWordTable : Obligations.DecodeWordTable := by
  intro w op
  rw [decodeWord_eq_ok_iff, admits_iff]
  constructor
  · rintro ⟨hop, hz, hx, hl⟩
    refine ⟨(idxField w).toNat, (immField w).toNat, (idxField w).isLt, (immField w).isLt, ?_,
      fun hf => ?_, fun hf => ?_, fun hf => ?_⟩
    · rw [← hop, ← commandWord_toNat, commandWord_fields]
    · simp [hz hf]
    · simp [hx hf]
    · simp [hl hf]
  · rintro ⟨idx, imm, hidx, himm, hw, hz, hx, hl⟩
    have hword : w = commandWord op.code (BitVec.ofNat 8 idx) (BitVec.ofNat 16 imm) := by
      apply BitVec.eq_of_toNat_eq
      rw [hw, commandWord_toNat, BitVec.toNat_ofNat, BitVec.toNat_ofNat, Nat.mod_eq_of_lt hidx,
        Nat.mod_eq_of_lt himm]
    rw [hword, opField_commandWord, idxField_commandWord, immField_commandWord]
    refine ⟨rfl, fun hf => ?_, fun hf => ?_, fun hf => ?_⟩
    · simp [hz hf]
    · simp [hx hf]
    · simp [hl hf]

/-! ## The operand record, rule R96 -/

@[simp] theorem allBytes_map (bs : List Byte) : allBytes (bs.map .byte) = some bs := by
  induction bs with
  | nil => rfl
  | cons b bs ih => simp [allBytes, ih]

@[simp] theorem allSamples_map (vs : List Sample) : allSamples (vs.map .sample) = some vs := by
  induction vs with
  | nil => rfl
  | cons v vs ih => simp [allSamples, ih]

/-- A record read as bytes is those bytes. -/
theorem eq_map_of_allBytes {items : List DataItem} {bs : List Byte} (h : allBytes items = some bs) :
    items = bs.map .byte := by
  induction items generalizing bs with
  | nil =>
    cases h
    rfl
  | cons x rest ih =>
    cases x with
    | byte b =>
      obtain ⟨tail, htail, rfl⟩ := Option.map_eq_some_iff.1 h
      rw [ih htail, List.map_cons]
    | sample | word | header | classId | fragment => cases h

/-- A record read as samples is those samples. -/
theorem eq_map_of_allSamples {items : List DataItem} {vs : List Sample}
    (h : allSamples items = some vs) : items = vs.map .sample := by
  induction items generalizing vs with
  | nil =>
    cases h
    rfl
  | cons x rest ih =>
    cases x with
    | sample v =>
      obtain ⟨tail, htail, rfl⟩ := Option.map_eq_some_iff.1 h
      rw [ih htail, List.map_cons]
    | byte | word | header | classId | fragment => cases h

/-- A length a 16-bit `imm` can hold is read back from it. -/
theorem toNat_ofNat_imm {n : Nat} (h : n ≤ 65535) : (BitVec.ofNat 16 n).toNat = n := by
  rw [BitVec.toNat_ofNat, Nat.mod_eq_of_lt (by omega)]

/-- As many bytes as `imm` says are its operand. -/
theorem bytesOperand_map {bs : List Byte} (h : bs.length ≤ 65535) :
    bytesOperand (BitVec.ofNat 16 bs.length) (bs.map .byte) = some bs := by
  simp [bytesOperand, toNat_ofNat_imm h]

/-- As many samples as `imm` says are its operand. -/
theorem samplesOperand_map {vs : List Sample} (h : vs.length ≤ 65535) :
    samplesOperand (BitVec.ofNat 16 vs.length) (vs.map .sample) = some vs := by
  simp [samplesOperand, toNat_ofNat_imm h]

/-- The bytes of an operand are its record, and `imm` is their number. -/
theorem bytesOperand_inv {imm : BitVec 16} {items : List DataItem} {bs : List Byte}
    (h : bytesOperand imm items = some bs) :
    BitVec.ofNat 16 bs.length = imm ∧ bs.map .byte = items := by
  obtain ⟨hitems, hlen⟩ := bytesOperand_some h
  exact ⟨by simp [hlen], (eq_map_of_allBytes hitems).symm⟩

/-- The samples of an operand are its record, and `imm` is their number. -/
theorem samplesOperand_inv {imm : BitVec 16} {items : List DataItem} {vs : List Sample}
    (h : samplesOperand imm items = some vs) :
    BitVec.ofNat 16 vs.length = imm ∧ vs.map .sample = items := by
  obtain ⟨hitems, hlen⟩ := samplesOperand_some h
  exact ⟨by simp [hlen], (eq_map_of_allSamples hitems).symm⟩

/-- Only an empty record is no operand. -/
theorem noOperand_eq_some_iff {i j : Instr} {items : List DataItem} :
    noOperand i items = some j ↔ items = [] ∧ i = j := by
  cases items <;> simp [noOperand]

/-- Each slot is named by its own `idx` (rule R156). -/
@[simp] theorem ofIdx_toIdx (slot : Slot) : Slot.ofIdx slot.toIdx = slot := by
  cases slot with
  | wf k =>
    have hk : (BitVec.ofNat 8 k.val).toNat = k.val := by
      rw [BitVec.toNat_ofNat, Nat.mod_eq_of_lt (by omega)]
    simp [Slot.ofIdx, Slot.toIdx, hk]
  | rxa => rfl
  | tx => rfl

/-- Each `idx` names one slot, whose `idx` it is (rule R156). -/
@[simp] theorem toIdx_ofIdx (idx : BitVec 8) : (Slot.ofIdx idx).toIdx = idx := by
  unfold Slot.ofIdx
  split
  · simp [Slot.toIdx]
  · split
    · exact Eq.symm ‹_›
    · simp only [Slot.toIdx]
      bv_omega

/-! ## The round trips -/

/-- The row, the fields and the record of a well-formed instruction assemble to it. -/
theorem assemble_of_wf {i : Instr} (h : i.wf = true) :
    assemble i.opcode i.idx i.imm i.items = some i := by
  cases i <;> simp only [Instr.wf, decide_eq_true_eq] at h
  case decode | txpkt | rxdgram | encode =>
    simp [assemble, Instr.opcode, Instr.imm, Instr.items, bytesOperand_map (h.trans (by decide))]
  case pushb => simp [assemble, Instr.opcode, Instr.imm, Instr.items, samplesOperand_map h]
  case sidset => simp [assemble, Instr.opcode, Instr.idx, Instr.items]
  all_goals rfl

/-- An instruction that a row assembles from fields its format admits has those fields and that record. -/
theorem fields_of_assemble {op : Opcode} {idx : BitVec 8} {imm : BitVec 16} {items : List DataItem}
    {i : Instr} (ha : op.format.admits idx imm = true) (h : assemble op idx imm items = some i) :
    i.idx = idx ∧ i.imm = imm ∧ i.items = items := by
  cases op <;> simp only [assemble] at h <;>
    simp only [Opcode.format, Format.admits, Bool.and_eq_true, beq_iff_eq] at ha
  case decode | txpkt | rxdgram =>
    obtain ⟨bs, hbs, rfl⟩ := Option.map_eq_some_iff.1 h
    exact ⟨ha.symm, bytesOperand_inv hbs⟩
  case encode =>
    split at h
    · obtain ⟨bs, hbs, rfl⟩ := Option.map_eq_some_iff.1 h
      obtain ⟨himm, hrest⟩ := bytesOperand_inv hbs
      exact ⟨ha.symm, himm, by simp [Instr.items, hrest]⟩
    · cases h
  case pushb =>
    obtain ⟨vs, hvs, rfl⟩ := Option.map_eq_some_iff.1 h
    exact ⟨ha.symm, samplesOperand_inv hvs⟩
  case sidset =>
    split at h <;> cases h
    exact ⟨toIdx_ofIdx idx, ha.symm, rfl⟩
  case wffrag =>
    split at h <;> cases h
    exact ⟨rfl, ha.symm, rfl⟩
  case rbins =>
    split at h <;> cases h
    exact ⟨ha.1.symm, ha.2.symm, rfl⟩
  case read =>
    obtain ⟨rfl, rfl⟩ := noOperand_eq_some_iff.1 h
    exact ⟨ha.symm, rfl, rfl⟩
  all_goals
    obtain ⟨rfl, rfl⟩ := noOperand_eq_some_iff.1 h
    exact ⟨ha.1.symm, ha.2.symm, rfl⟩

/-- Settles O1: the word selects the row (`wordRow`), and the row assembles the instruction from its record. -/
theorem decodeEncodeCommand : Obligations.DecodeEncodeCommand := by
  intro i h
  obtain ⟨-, hidx, himm, hrow⟩ := wordRow i
  simp only [decodeCommand, encodeCommand, hrow, hidx, himm, assemble_of_wf h]

/-- Settles O2: the row read from the word, its fields and its record are those of the instruction. -/
theorem encodeDecodeCommand : Obligations.EncodeDecodeCommand := by
  intro c i h
  obtain ⟨op, hword, hasm⟩ := decodeCommand_ok h
  obtain ⟨hop, hadm⟩ := decodeWord_eq_ok_iff.1 hword
  obtain ⟨hidx, himm, hitems⟩ := fields_of_assemble hadm hasm
  have hw : i.word = c.word := by
    rw [Instr.word, assemble_opcode hasm, hidx, himm, ← hop, commandWord_fields]
  rw [encodeCommand, hw, hitems]

/-- The command of a well-formed instruction decodes to it, however the command is written. -/
theorem decodeCommand_of_encode {c : Command} {i : Instr} (hwf : i.wf = true)
    (h : encodeCommand i = c) : decodeCommand c = .ok i := h ▸ decodeEncodeCommand i hwf

/-- A table word decodes to the well-formed instruction whose command it is, with a record of zeros. -/
theorem decodeTableWord_of_encode {nbits w : Nat} {i : Instr} (hwf : i.wf = true)
    (h : encodeCommand i = tableCommand nbits w) : decodeTableWord nbits w = some i := by
  rw [decodeTableWord, decodeCommand_of_encode hwf h]

/-- Settles O4: each word and record written out is the command of its instruction, which the round trip decodes. -/
theorem commandWordSamples : Obligations.CommandWordSamples :=
  ⟨decodeCommand_of_encode rfl rfl, decodeCommand_of_encode rfl rfl,
    decodeCommand_of_encode rfl rfl, decodeTableWord_of_encode rfl rfl,
    decodeCommand_of_encode rfl rfl, decodeCommand_of_encode rfl rfl,
    decodeCommand_of_encode rfl rfl, decodeCommand_of_encode rfl rfl,
    decodeTableWord_of_encode rfl rfl, decodeCommand_of_encode rfl rfl,
    decodeTableWord_of_encode rfl rfl, decodeTableWord_of_encode rfl rfl,
    decodeTableWord_of_encode rfl rfl, decodeCommand_of_encode rfl rfl,
    decodeTableWord_of_encode rfl rfl, decodeTableWord_of_encode rfl rfl,
    decodeTableWord_of_encode rfl rfl, decodeTableWord_of_encode rfl rfl,
    decodeTableWord_of_encode rfl rfl⟩

end Sys2Proof.Laws
end

section
/-! Commands that are refused and turns at which no instruction is carried out (rules R101, R265, R301). -/

namespace Sys2Proof.Machine

open Sys2Proof

/-! ## What rule R101 makes illegal -/

/-- The `idx` of SIDSET that name no slot (rules R101, R156). -/
theorem slotLegal_ofIdx_eq_false (idx : BitVec 8) (s : State) :
    slotLegal (Slot.ofIdx idx) s = false ↔ s.cfg.nWf ≤ idx.toNat ∧ idx ≠ 0xFE ∧ idx ≠ 0xFF := by
  unfold Slot.ofIdx
  split
  · have hrxa : idx ≠ 0xFE := by bv_omega
    have htx : idx ≠ 0xFF := by bv_omega
    simp only [slotLegal, decide_eq_false_iff_not, Nat.not_lt]
    exact ⟨fun h => ⟨h, hrxa, htx⟩, And.left⟩
  · split
    · simp [slotLegal, *]
    · have htx : idx = 0xFF := by bv_omega
      simp [slotLegal, htx]

theorem contextLegal_eq_false (ctx : BitVec 8) (s : State) :
    contextLegal ctx s = false ↔ s.cfg.nWf ≤ ctx.toNat := by simp [contextLegal]

theorem payloadLegal_eq_false (len : Nat) : payloadLegal len = false ↔ 65507 < len := by
  simp [payloadLegal]

theorem readLegal_eq_false (count : BitVec 16) (s : State) :
    readLegal count s = false ↔ count = 0 ∨ s.rd.state ≠ .idle := by
  rw [readLegal, Bool.and_eq_false_iff, decide_eq_false_iff_not, decide_eq_false_iff_not, not_not]

theorem pushbLegal_eq_false (s : State) : pushbLegal s = false ↔ s.pb.state ≠ .idle :=
  decide_eq_false_iff_not

/-- The command words that select a row and are illegal in a state (rule R101). -/
theorem fieldsLegal_eq_false (op : Opcode) (idx : BitVec 8) (imm : BitVec 16) (s : State) :
    fieldsLegal op idx imm s = false ↔
      (op = .sidset ∧ s.cfg.nWf ≤ idx.toNat ∧ idx ≠ 0xFE ∧ idx ≠ 0xFF) ∨
      (op = .wffrag ∧ s.cfg.nWf ≤ idx.toNat) ∨
      ((op = .encode ∨ op = .txpkt) ∧ 65507 < imm.toNat) ∨
      (op = .read ∧ (imm = 0 ∨ s.rd.state ≠ .idle)) ∨
      (op = .pushb ∧ s.pb.state ≠ .idle) := by
  cases op
  case sidset => simpa [fieldsLegal] using slotLegal_ofIdx_eq_false idx s
  case wffrag => simpa [fieldsLegal] using contextLegal_eq_false idx s
  case encode | txpkt => simpa [fieldsLegal] using payloadLegal_eq_false imm.toNat
  case read => simpa [fieldsLegal] using readLegal_eq_false imm s
  case pushb => simpa [fieldsLegal] using pushbLegal_eq_false s
  all_goals simp [fieldsLegal]

/-- Settles O9: each of the six meanings that test legality first refuses where its own test fails. -/
theorem refusedCommands : Obligations.RefusedCommands := by
  refine fun s => ⟨fun k v h => ?_, fun ctx f h => ?_, fun hdr sid k p h => ?_, fun p h => ?_,
    fun m h => ?_, fun vs h => ?_⟩
  · have hl : slotLegal (.wf k) s = false := decide_eq_false (Nat.not_lt.2 h)
    simp [exec, execSidset, hl, raise]
  · simp [exec, execWffrag, (contextLegal_eq_false ctx s).2 h, raise]
  · simp [exec, execEncode, (payloadLegal_eq_false p.length).2 h, raise]
  · simp [exec, execTxpkt, (payloadLegal_eq_false p.length).2 h, raise]
  · simp [exec, execRead, (readLegal_eq_false m s).2 h, raise]
  · simp [exec, execPushb, (pushbLegal_eq_false s).2 h, raise]

/-! ## Commands that carry out no instruction -/

/-- Taking a command of an agent's stream, with the turn taken before it. -/
theorem withStream_withTurns (a : Agent) (cs : List Command) (ts : List Turn) (s : State) :
    withStream a cs (withTurns ts s) = { s with env := { s.env.setStream a cs with turns := ts } } := by
  cases a <;> rfl

/-- The step of an agent that is not held issues the next command of its stream. -/
theorem step_of_free {s : State} {a : Agent} {c : Command} {cs : List Command} {ts : List Turn}
    (ht : s.env.turns = .issue a :: ts) (hs : s.env.stream a = c :: cs)
    (hfree : a ≠ .cons ∨ s.rd.state ≠ .wait ∨ s.da = true ∨ s.closed = true) :
    step s = issueCommand a c cs (withTurns ts s) :=
  (step_turn ht).trans
    (issueTurn_of_free ((agentHeld_eq_false a _).2 hfree) ((stream_withTurns s.env a ts).trans hs))

/-- The turn of an agent with nothing to issue changes nothing (log 4). -/
theorem issueTurn_of_empty {a : Agent} {s : State} (h : s.env.stream a = []) :
    issueTurn a s = .next s := by
  simp [issueTurn, h]

/-- A word selects no row by its opcode or by a field its format does not admit (rules R95, R101). -/
theorem decodeWord_eq_error {w : Word} {e : DecodeError} (h : decodeWord w = .error e) :
    e = .reservedOpcode (opField w) ∨ ∃ op, e = .formatField op := by
  unfold decodeWord at h
  split at h
  · cases h
    exact .inl rfl
  · split at h <;> cases h
    exact .inr ⟨_, rfl⟩

/-- A word that selects no row is refused (rule R101). -/
theorem issueCommand_of_no_row {a : Agent} {c : Command} {cs : List Command} {s : State}
    (h : ∀ op, decodeWord c.word ≠ .ok op) :
    issueCommand a c cs s = .next (raise (.illegalCommand c.word) (withStream a cs s)) := by
  cases hw : decodeWord c.word with
  | ok op => exact absurd hw (h op)
  | error e =>
    rcases decodeWord_eq_error hw with rfl | ⟨op, rfl⟩ <;> simp [issueCommand, decodeCommand, hw]

/-- A command that does not decode although its word selects a row has a wrong record. -/
theorem decodeCommand_of_row {c : Command} {op : Opcode} (hrow : decodeWord c.word = .ok op)
    (h : ∀ i, decodeCommand c ≠ .ok i) : decodeCommand c = .error (.operandRecord op) := by
  unfold decodeCommand at h ⊢
  simp only [hrow] at h ⊢
  cases hasm : assemble op (idxField c.word) (immField c.word) c.items with
  | none => rfl
  | some i => exact absurd (by rw [hasm]) (h i)

/-- A command with a wrong record: its legality is tested first (rule R268, log 7). -/
theorem issueCommand_of_badRecord {a : Agent} {c : Command} {cs : List Command} {op : Opcode}
    {s : State} (h : decodeCommand c = .error (.operandRecord op)) :
    issueCommand a c cs s = badRecord op c.word (withStream a cs s) := by
  simp [issueCommand, h]

/-- Settles O6, by the refusal of a word that selects no row. -/
theorem stepRefusesIllegalWord : Obligations.StepRefusesIllegalWord := by
  intro s a c cs ts ht hs hfree hrow
  rw [step_of_free ht hs hfree, issueCommand_of_no_row hrow, withStream_withTurns]
  rfl

/-- Settles O7: no turn, an empty stream, a wrong record, the words rule R101 makes illegal, a record from
outside. -/
theorem stepOtherwise : Obligations.StepOtherwise := by
  refine ⟨fun s h => ?_, fun s a ts ht hs => ?_, fun s a c cs ts op ht hs hfree hrow hdec => ?_,
    fieldsLegal_eq_false, fun s e ts ht => ⟨e.record, step_turn ht, ?_⟩⟩
  · simp [step, h]
  · rw [step_turn ht]
    exact issueTurn_of_empty ((stream_withTurns s.env a ts).trans hs)
  · rw [step_of_free ht hs hfree, issueCommand_of_badRecord (decodeCommand_of_row hrow hdec),
      withStream_withTurns]
    constructor <;> intro hlegal <;> simp [badRecord, hlegal, raise]
  · cases e <;> simp [ExternalError.record, ErrRecord.code]

end Sys2Proof.Machine
end

section
/-! The errors (rules R260 to R267): which records each instruction and micro-step raises, and what else it has
changed then. -/

namespace Sys2Proof.Machine

open Sys2Proof

/-! ## The instructions -/

/-- What an instruction that goes from `s` to `t` has done to ERR: nothing; or it was refused and nothing else
changed; or it dropped a malformed packet and delivered its failure result. -/
def ErrPrecise (i : Instr) (s t : State) : Prop :=
  t.out.err = s.out.err ∨
  t = raise (.illegalCommand i.word) s ∨
  ∃ (sub : MalformedSub) (r : Result), t = deliver r (raise (.malformedPacket sub) s) ∧
    (((∃ c f, i = .wffrag c f) ∧ r = .wffrag false) ∨
      ((∃ b, i = .rxdgram b) ∧
        (r = .rxdgram .droppedMalformed ∨ ∃ j, r = .rxdgram (.toWaterfall j))))

/-- WFFRAG raises MALFORMED_PACKET where it drops the fragment, and nothing else (rule R171). -/
theorem wffrag_errPrecise (c : BitVec 8) (f : Fragment) (s : State) :
    ErrPrecise (.wffrag c f) s
      (deliver (.wffrag (wfApply c.toNat f s).1) (wfApply c.toNat f s).2) := by
  rcases wfApply_cases c.toNat f s with ⟨sub, -, e⟩ | ⟨-, e⟩ <;> rw [e]
  · exact .inr (.inr ⟨sub, _, rfl, .inl ⟨⟨c, f, rfl⟩, rfl⟩⟩)
  · exact .inl rfl

/-- RXDGRAM raises MALFORMED_PACKET where the datagram, the tile or the fragment is dropped, and nothing else
(rules R151, R153, R171). -/
theorem rxdgram_errPrecise (parse : List Byte → Option Fragment) (b : List Byte) (s : State) :
    ErrPrecise (.rxdgram b) s
      (deliver (.rxdgram (routeDatagram parse b s).1) (routeDatagram parse b s).2) := by
  rcases routeDatagram_routes parse b s with ⟨sub, -, e⟩ | ⟨_, _, _, p, -, ⟨-, e⟩ |
    ⟨-, i, -, ⟨-, e⟩ | ⟨f, -, e⟩⟩ | ⟨-, -, ⟨-, e⟩ | ⟨-, e⟩⟩⟩ <;> rw [e]
  · exact .inr (.inr ⟨sub, _, rfl, .inr ⟨⟨b, rfl⟩, .inl rfl⟩⟩)
  · exact .inl rfl
  · exact .inr (.inr ⟨.tileParse, _, rfl, .inr ⟨⟨b, rfl⟩, .inl rfl⟩⟩)
  · rcases wfApply_cases i f s with ⟨sub, -, e'⟩ | ⟨-, e'⟩ <;> rw [e']
    · exact .inr (.inr ⟨sub, _, rfl, .inr ⟨⟨b, rfl⟩, .inr ⟨i, rfl⟩⟩⟩)
    · exact .inl rfl
  · exact .inl rfl
  · exact .inl rfl

/-- Each instruction raises at most one record, and what it has changed then is exact (rule R266). -/
theorem exec_errPrecise {i : Instr} {s t : State} (h : exec i s = .next t) : ErrPrecise i s t := by
  rcases exec_cases h with hrefused | heff
  · exact .inr (.inl hrefused)
  cases i <;> simp only [InstrEffect] at heff
  case wffrag c f => exact heff.2 ▸ wffrag_errPrecise c f s
  case rxdgram b => exact heff ▸ rxdgram_errPrecise Config.tileParse b s
  case decode | encode | txinit | rbins | rbsize | rbclr | daset | closeStream | openStream =>
    subst heff
    exact .inl rfl
  case sidset slot v =>
    obtain ⟨-, rfl⟩ := heff
    cases slot <;> exact .inl rfl
  case txpkt | rbpop => rcases heff with ⟨-, rfl⟩ | ⟨-, rfl⟩ <;> exact .inl rfl
  case pushb =>
    obtain ⟨-, rfl⟩ := heff
    exact .inl rfl
  case read =>
    obtain ⟨-, -, rfl⟩ := heff
    exact .inl rfl
  case dawait => rcases heff with rfl | ⟨-, rfl⟩ <;> exact .inl rfl

/-! ## The micro-steps -/

/-- PUSHB's check micro-step alone raises a record, and then writes PB_STATE besides (rules R223, R262). -/
theorem pbStep_err (s : State) :
    (pbStep s).out.err = s.out.err ∨
      (s.pb.state = .check ∧ pbStep s =
        raise (.bufferOverflow (s.pb.k - s.pb.j)) { s with pb := { s.pb with state := .done } }) := by
  by_cases hst : s.pb.state = .check
  · rw [pbStep_check hst]
    unfold pbCheck
    split
    · exact .inr ⟨hst, rfl⟩
    · exact .inl rfl
  · exact .inl (not_not.1 fun hne => hst ((pbStep_writes s).err hne))

/-- READ's micro-steps raise nothing: they write no trace but DATA_OUT (rules R229 to R234). -/
theorem rdStep_err (s : State) : (rdStep s).out.err = s.out.err := by
  rw [(rdStep_writes s).frame]

/-- Settles O57, from what each instruction and micro-step raises; the codes are those of rule R108. -/
theorem errorsArePrecise : Obligations.ErrorsArePrecise := by
  refine ⟨fun i s t h => exec_errPrecise h, ?_, rdStep_err, fun _ => ⟨rfl, rfl⟩, fun _ => ⟨rfl, rfl⟩,
    fun _ => ⟨rfl, rfl⟩, fun e => ?_⟩
  · rintro s _ rfl
    exact pbStep_err s
  · cases e <;> rfl

end Sys2Proof.Machine
end

section
/-! The codec and the TX sequencer (rules R120 to R128): words in bytes, the header word, the framer and the deframer,
their round trip, and runs of TXPKT. -/

namespace Sys2Proof.Machine

open Sys2Proof Sys2Proof.Laws

/-! ## Words in bytes, rule R10 -/

/-- The number two bit fields make side by side. -/
theorem toNat_append_eq_add {m n : Nat} (x : BitVec m) (y : BitVec n) :
    (x ++ y).toNat = x.toNat * 2 ^ n + y.toNat := by
  rw [BitVec.toNat_append, ← Nat.shiftLeft_add_eq_or_of_lt y.isLt, Nat.shiftLeft_eq]

theorem be32_toNat (b : List Byte) (k : Nat) : (be32 b k).toNat = beValue b k := by
  simp only [be32, beValue, toNat_append_eq_add]
  omega

/-- `be32` reads back the four bytes of a word, whatever follows them. -/
theorem be32_bytesBe32_append (w : Word) (rest : List Byte) :
    be32 (bytesBe32 w ++ rest) 0 = w := by
  apply BitVec.eq_of_toNat_eq
  rw [be32_toNat]
  simp only [beValue, bytesBe32, List.cons_append, List.getD_cons_zero, List.getD_cons_succ,
    BitVec.extractLsb'_toNat, Nat.shiftRight_eq_div_pow]
  have hw := w.isLt
  omega

/-- Past the four bytes of a word, `be32` reads what follows them. -/
theorem be32_skip_word (w : Word) (rest : List Byte) (k : Nat) :
    be32 (bytesBe32 w ++ rest) (k + 4) = be32 rest k := rfl

/-! ## The header word, rule R91 -/

theorem headerWord_toNat (h : Header) (n : BitVec 16) :
    (headerWord h n).toNat = headerValue h n.toNat := by
  simp only [headerWord, headerValue, flagBit, toNat_append_eq_add, BitVec.toNat_ofBool]
  omega

theorem headerOfWord_size_toNat (w : Word) : (headerOfWord w).size.toNat = w.toNat % 2 ^ 16 := by
  simp [headerOfWord, BitVec.extractLsb'_toNat]

/-- The fields of a header word hold every bit of it. -/
theorem headerValue_headerOfWord (w : Word) :
    headerValue (headerOfWord w) (headerOfWord w).size.toNat = w.toNat := by
  simp only [headerValue, headerOfWord, BitVec.extractLsb'_toNat, Nat.shiftRight_eq_div_pow,
    ← BitVec.testBit_toNat, Nat.toNat_testBit]
  have hw := w.isLt
  omega

/-- A flag is determined by its number. -/
theorem bool_toNat_inj {a b : Bool} : a.toNat = b.toNat ↔ a = b :=
  (Function.LeftInverse.injective Bool.ofNat_toNat).eq_iff

/-- A header is determined by the number of its word. -/
theorem eq_of_headerValue_eq {g h : Header}
    (e : headerValue g g.size.toNat = headerValue h h.size.toNat) : g = h := by
  obtain ⟨gType, gc, gt, gTsi, gTsf, gCount, gSize⟩ := g
  obtain ⟨hType, hc, ht, hTsi, hTsf, hCount, hSize⟩ := h
  have hcg := gc.toNat_le
  have hch := hc.toNat_le
  have htg := gt.toNat_le
  have hth := ht.toNat_le
  obtain ⟨rfl, rfl, rfl, rfl, rfl, rfl, rfl⟩ : gType = hType ∧ gc = hc ∧ gt = ht ∧ gTsi = hTsi ∧
      gTsf = hTsf ∧ gCount = hCount ∧ gSize = hSize := by
    simp only [← BitVec.toNat_inj, ← bool_toNat_inj]
    simp only [headerValue] at e
    omega
  rfl

theorem headerOfWord_headerWord (h : Header) (n : BitVec 16) :
    headerOfWord (headerWord h n) = { h with size := n } := by
  apply eq_of_headerValue_eq
  rw [headerValue_headerOfWord, headerWord_toNat]
  rfl

/-! ## The ClassID words, rules R92 and R93 -/

/-- The ClassID that DECODE reads from words 2 and 3 of a packet (rule R120). -/
def classIdOfWords (w2 w3 : Word) : ClassId :=
  { oui := w2.extractLsb' 0 24, infoClass := w3.extractLsb' 16 16,
    packetClass := w3.extractLsb' 0 16 }

/-- The ClassID of a packet that ENCODE makes: the operand's, its OUI masked to 24 bits (rule R123). -/
def maskedClassId (k : ClassIdArg) : ClassId :=
  { oui := k.oui.setWidth 24, infoClass := k.infoClass, packetClass := k.packetClass }

theorem classIdOfWords_oui_toNat (w2 w3 : Word) :
    (classIdOfWords w2 w3).oui.toNat = w2.toNat % 2 ^ 24 := by
  simp [classIdOfWords, BitVec.extractLsb'_toNat]

theorem classIdOfWords_classes_toNat (w2 w3 : Word) :
    (classIdOfWords w2 w3).infoClass.toNat * 2 ^ 16 + (classIdOfWords w2 w3).packetClass.toNat =
      w3.toNat := by
  simp only [classIdOfWords, BitVec.extractLsb'_toNat, Nat.shiftRight_eq_div_pow]
  have hw := w3.isLt
  omega

/-- The ClassID words of ENCODE hold the masked ClassID. -/
theorem classIdOfWords_encoded (k : ClassIdArg) :
    classIdOfWords ((k.oui.setWidth 24).setWidth 32) (k.infoClass ++ k.packetClass) =
      maskedClassId k := by
  simp only [classIdOfWords, maskedClassId, ClassId.mk.injEq]
  refine ⟨?_, BitVec.extractLsb'_append_eq_left, BitVec.extractLsb'_append_eq_right⟩
  rw [BitVec.extractLsb'_setWidth_of_le (by decide), BitVec.extractLsb'_eq_self]

/-- The mask keeps a 24-bit ClassID. -/
theorem maskedClassId_toArg (k : ClassId) : maskedClassId k.toArg = k := by
  simp [maskedClassId, ClassId.toArg]

/-- The mask changes an OUI wider than 24 bits. -/
theorem toArg_maskedClassId_ne {k : ClassIdArg} (h : 2 ^ 24 ≤ k.oui.toNat) :
    (maskedClassId k).toArg ≠ k := by
  intro e
  have hlt := (maskedClassId k).oui.isLt
  have houi : (maskedClassId k).toArg.oui.toNat = k.oui.toNat := by rw [e]
  simp only [ClassId.toArg, BitVec.toNat_setWidth] at houi
  omega

/-! ## The framer, rule R123 -/

/-- The size field of a legal payload fits its 16 bits (rules R101, R105 (a)). -/
theorem sizeField_toNat {n : Nat} (h : n ≤ 65507) :
    (BitVec.ofNat 16 (sizeWords n)).toNat = (n + 3) / 4 + 7 := by
  have hle : sizeWords n ≤ 65535 := by
    simp only [sizeWords, Config.hdrWords]
    omega
  exact toNat_ofNat_imm hle

section
variable (h : Header) (sid : Word) (k : ClassIdArg) (p : List Byte)

/-- The four words of ENCODE's packet that hold fields (rule R123). -/
theorem encodePacket_words :
    be32 (encodePacket h sid k p) 0 =
        headerWord h (BitVec.ofNat 16 (sizeWords p.length)) ∧
      be32 (encodePacket h sid k p) 4 = sid ∧
      be32 (encodePacket h sid k p) 8 = (k.oui.setWidth 24).setWidth 32 ∧
      be32 (encodePacket h sid k p) 12 = k.infoClass ++ k.packetClass := by
  simp only [encodePacket, List.append_assoc, be32_skip_word, be32_bytesBe32_append, and_self]

/-- The timestamp region of ENCODE's packet is twelve zero bytes. -/
theorem encodePacket_timestamp {i : Nat} (hlo : 16 ≤ i) (hhi : i < 28) :
    (encodePacket h sid k p).getD i 1 = 0 := by
  obtain ⟨j, rfl⟩ := Nat.exists_eq_add_of_le' hlo
  have hj : j < 12 := by omega
  show (List.replicate 12 (0 : Byte) ++ p).getD j 1 = 0
  rw [List.getD_append _ _ _ _ (by simpa using hj)]
  exact List.getD_replicate _ hj

@[simp] theorem encodePacket_length : (encodePacket h sid k p).length = 28 + p.length := by
  simp only [encodePacket, bytesBe32, List.length_append, List.length_cons, List.length_nil,
    List.length_replicate]

@[simp] theorem encodePacket_drop : (encodePacket h sid k p).drop 28 = p := rfl

/-- The counter of ENCODE's packet is the header's. -/
theorem packetCount_encodePacket : packetCount (encodePacket h sid k p) = h.count.toNat := by
  show ((headerWord h _).extractLsb' 16 8).toNat % 16 = _
  rw [BitVec.extractLsb'_toNat, headerWord_toNat, Nat.shiftRight_eq_div_pow, headerValue]
  omega

end

/-! ## The deframer, rules R120 to R122 -/

theorem decodePacket_short {b : List Byte} (h : b.length < 28) :
    decodePacket b = .fail .short := if_pos h

theorem decodePacket_sizeLt7 {b : List Byte} (h : 28 ≤ b.length)
    (hsize : (headerOfWord (be32 b 0)).size.toNat < 7) : decodePacket b = .fail .sizeLt7 :=
  (if_neg (Nat.not_lt.2 h)).trans (if_pos hsize)

theorem decodePacket_truncated {b : List Byte} (h : 28 ≤ b.length)
    (hsize : 7 ≤ (headerOfWord (be32 b 0)).size.toNat)
    (hlen : b.length + 4 ≤ 4 * (headerOfWord (be32 b 0)).size.toNat) :
    decodePacket b = .fail .truncated :=
  (if_neg (Nat.not_lt.2 h)).trans ((if_neg (Nat.not_lt.2 hsize)).trans (if_pos hlen))

theorem decodePacket_ok {b : List Byte} (h : 28 ≤ b.length)
    (hsize : 7 ≤ (headerOfWord (be32 b 0)).size.toNat)
    (hlen : 4 * (headerOfWord (be32 b 0)).size.toNat < b.length + 4) :
    decodePacket b = .ok (headerOfWord (be32 b 0)) (be32 b 4)
      (classIdOfWords (be32 b 8) (be32 b 12))
      ((b.take (min b.length (4 * (headerOfWord (be32 b 0)).size.toNat))).drop 28) :=
  (if_neg (Nat.not_lt.2 h)).trans ((if_neg (Nat.not_lt.2 hsize)).trans (if_neg (Nat.not_le.2 hlen)))

/-- DECODE of ENCODE's packet: the header with the computed size, the masked ClassID, StreamID and payload as given
(rule R124). -/
theorem decodePacket_encodePacket (h : Header) (sid : Word) (k : ClassIdArg) {p : List Byte}
    (hp : p.length ≤ 65507) :
    decodePacket (encodePacket h sid k p) =
      .ok { h with size := BitVec.ofNat 16 (sizeWords p.length) } sid (maskedClassId k) p := by
  obtain ⟨hw0, hw4, hw8, hw12⟩ := encodePacket_words h sid k p
  have hhdr : headerOfWord (be32 (encodePacket h sid k p) 0) =
      { h with size := BitVec.ofNat 16 (sizeWords p.length) } := by
    rw [hw0, headerOfWord_headerWord]
  have hsize := sizeField_toNat hp
  have hall : min (28 + p.length) (4 * (BitVec.ofNat 16 (sizeWords p.length)).toNat) =
      (encodePacket h sid k p).length := by
    rw [encodePacket_length]
    omega
  rw [decodePacket_ok, hhdr, hw4, hw8, hw12, classIdOfWords_encoded, encodePacket_length, hall,
    List.take_length, encodePacket_drop]
  all_goals
    simp only [hhdr, encodePacket_length, hsize]
    omega

/-! ## DECODE and ENCODE -/

/-- The number of a command word that carries a length `n` (rule R95, format L). -/
theorem word_toNat_of_length {i : Instr} {n : Nat} (hidx : i.idx = 0)
    (himm : i.imm = BitVec.ofNat 16 n) (hn : n ≤ 65535) :
    i.word.toNat = i.opcode.code.toNat * 2 ^ 24 + n := by
  rw [Instr.word, commandWord_toNat, hidx, himm, toNat_ofNat_imm hn]
  simp

theorem payloadLegal_of_le {n : Nat} (h : n ≤ 65507) : payloadLegal n = true := decide_eq_true h

/-- ENCODE of a legal payload delivers its packet and does nothing else. -/
theorem exec_encode (h : Header) (sid : Word) (k : ClassIdArg) {p : List Byte}
    (hp : p.length ≤ 65507) (s : State) :
    exec (.encode h sid k p) s = .next (deliver (.encode (encodePacket h sid k p)) s) :=
  if_pos (payloadLegal_of_le hp)

/-- DECODE of ENCODE's packet as a step. -/
theorem exec_decode_encodePacket (h : Header) (sid : Word) (k : ClassIdArg) {p : List Byte}
    (hp : p.length ≤ 65507) (s : State) :
    exec (.decode (encodePacket h sid k p)) s = .next (deliver (.decode
      (.ok { h with size := BitVec.ofNat 16 (sizeWords p.length) } sid (maskedClassId k) p)) s) := by
  rw [← decodePacket_encodePacket h sid k hp]
  rfl

/-- Settles O14: what DECODE reads from ENCODE's packet differs from what ENCODE was given by the computed size and by
the mask on the OUI alone. -/
theorem packetRoundTrip : Obligations.PacketRoundTrip := by
  refine ⟨fun h sid k p hp hsize => ⟨_, exec_encode h sid k.toArg hp, fun s => ?_⟩,
    fun h sid k p hp hne => ⟨_, _, _, exec_encode h sid k hp,
      exec_decode_encodePacket h sid k hp, ?_⟩⟩
  · have hfield : BitVec.ofNat 16 (sizeWords p.length) = h.size :=
      BitVec.eq_of_toNat_eq ((sizeField_toNat hp).trans hsize.symm)
    rw [exec_decode_encodePacket h sid k.toArg hp, hfield, maskedClassId_toArg]
  · rintro ⟨hh, hk⟩
    rcases hne with hsize | houi
    · exact hsize (by rw [← hh, sizeField_toNat hp])
    · exact toArg_maskedClassId_ne houi hk

/-- Settles O12: the branches of the deframer, their tests and fields read as numbers of the datagram. -/
theorem decodeOutcome : Obligations.DecodeOutcome := by
  refine ⟨rfl, rfl, rfl, fun b s => ⟨decodePacket b, rfl, decodePacket_short, ?_⟩⟩
  have hsize : (headerOfWord (be32 b 0)).size.toNat = beValue b 0 % 2 ^ 16 := by
    rw [headerOfWord_size_toNat, be32_toNat]
  rw [← hsize]
  refine ⟨decodePacket_sizeLt7, fun h28 h7 hlen => decodePacket_truncated h28 h7 (by omega),
    fun h28 h7 hlen => ⟨_, _, _, _, decodePacket_ok h28 h7 (by omega), ?_, be32_toNat b 4, ?_, ?_,
      rfl, ?_, ?_⟩⟩
  · rw [headerValue_headerOfWord, be32_toNat]
  · rw [classIdOfWords_oui_toNat, be32_toNat]
  · rw [classIdOfWords_classes_toNat, be32_toNat]
  · rw [List.length_drop, List.length_take]
    omega
  · intro hb
    rw [List.length_drop, List.length_take]
    omega

/-- Settles O13: the words of the framer read as numbers, with its length, its zeros and its payload. -/
theorem encodeBytes : Obligations.EncodeBytes := by
  intro h sid k p s
  obtain ⟨hw0, hw4, hw8, hw12⟩ := encodePacket_words h sid k p
  refine ⟨fun hp => ?_, ?_,
    fun hp => ⟨encodePacket h sid k p, exec_encode h sid k hp s, encodePacket_length h sid k p, ?_,
      ?_, ?_, ?_, fun i => encodePacket_timestamp h sid k p, encodePacket_drop h sid k p⟩⟩
  · rw [word_toNat_of_length rfl rfl hp]
    simp [Instr.opcode, Opcode.code]
  · obtain ⟨-, -, hrefused, -⟩ := refusedCommands s
    exact hrefused h sid k p
  · rw [← be32_toNat, hw0, headerWord_toNat, sizeField_toNat hp]
  · rw [← be32_toNat, hw4]
  · rw [← be32_toNat, hw8, BitVec.toNat_setWidth, BitVec.toNat_setWidth]
    omega
  · rw [← be32_toNat, hw12, toNat_append_eq_add]

/-! ## The TX sequencer -/

/-- Settles O15: the word of row TXINIT, and its meaning. -/
theorem txinitResult : Obligations.TxinitResult := ⟨rfl, fun _ => rfl⟩

/-- The state after TXPKT of `p` with a target stream (rule R126). -/
def txSent (p : List Byte) (s : State) : State :=
  deliver (.txpkt true)
    (sendTx (txPacket s.cfg.txTmpl s.txSeq s.sid.tx p) { s with txSeq := s.txSeq + 1 })

@[simp] theorem txSent_cfg (p : List Byte) (s : State) : (txSent p s).cfg = s.cfg := rfl
@[simp] theorem txSent_sid (p : List Byte) (s : State) : (txSent p s).sid = s.sid := rfl
@[simp] theorem txSent_txSeq (p : List Byte) (s : State) : (txSent p s).txSeq = s.txSeq + 1 := rfl
@[simp] theorem txSent_txOut (p : List Byte) (s : State) : (txSent p s).out.txOut =
    s.out.txOut ++ [txPacket s.cfg.txTmpl s.txSeq s.sid.tx p] := rfl

/-- TXPKT of a legal payload with a target stream sends it. -/
theorem exec_txpkt_of_stream {p : List Byte} {s : State} (hp : p.length ≤ 65507)
    (hs : s.sid.tx ≠ 0) : exec (.txpkt p) s = .next (txSent p s) :=
  (if_pos (payloadLegal_of_le hp)).trans (if_neg hs)

/-- Settles O16: the packet is ENCODE's because the framer ignores the size of the header it is given. -/
theorem txpktSends : Obligations.TxpktSends := by
  refine fun s p z hp hs => ⟨?_, _, exec_encode _ _ _ hp s, s.txSeq + 1, BitVec.toNat_add _ _,
    exec_txpkt_of_stream hp hs⟩
  rw [word_toNat_of_length rfl rfl (hp.trans (by decide))]
  simp [Instr.opcode, Opcode.code]

/-- Settles O17: with no target stream a legal TXPKT delivers sent = 0 and that is all. -/
theorem txpktNoStream : Obligations.TxpktNoStream :=
  fun _ _ hp hs => (if_pos (payloadLegal_of_le hp)).trans (if_pos hs)

/-! ## Runs of TXPKT -/

/-- The packets that consecutive TXPKT make of their payloads, the counter starting at `q` (rules R126, R128). -/
def txPackets (t : TxTemplate) (q : BitVec 4) (sid : Word) (ps : List (List Byte)) :
    List (List Byte) :=
  ps.mapIdx fun k p => txPacket t (q + BitVec.ofNat 4 k) sid p

/-- A counter `k + 1` steps on is one that is advanced once and then `k` steps on. -/
theorem add_ofNat_succ (q : BitVec 4) (k : Nat) :
    q + BitVec.ofNat 4 (k + 1) = q + 1 + BitVec.ofNat 4 k := by
  rw [Nat.add_comm, BitVec.ofNat_add, ← BitVec.add_assoc]
  rfl

/-- The first packet carries the counter, the others follow with the counter advanced. -/
theorem txPackets_cons (t : TxTemplate) (q : BitVec 4) (sid : Word) (p : List Byte)
    (ps : List (List Byte)) :
    txPackets t q sid (p :: ps) = txPacket t q sid p :: txPackets t (q + 1) sid ps := by
  simp only [txPackets, List.mapIdx_cons, ← add_ofNat_succ]
  rw [BitVec.add_zero]

@[simp] theorem length_txPackets (t : TxTemplate) (q : BitVec 4) (sid : Word)
    (ps : List (List Byte)) : (txPackets t q sid ps).length = ps.length := List.length_mapIdx

/-- The `k`-th packet of a run carries the starting counter plus `k` (rule R128). -/
theorem packetCount_txPackets (t : TxTemplate) (q : BitVec 4) (sid : Word) {ps : List (List Byte)}
    {k : Nat} (hk : k < (txPackets t q sid ps).length) :
    packetCount (txPackets t q sid ps)[k] = (q.toNat + k) % 16 := by
  simp only [txPackets, List.getElem_mapIdx, txPacket, packetCount_encodePacket, txHeader,
    BitVec.toNat_add, BitVec.toNat_ofNat]
  omega

/-- A run of TXPKT with a target stream: the counter advances once per packet, and TX_OUT gains the packets. -/
theorem execAll_txpkt (ps : List (List Byte)) (s : State) (hp : ∀ p ∈ ps, p.length ≤ 65507)
    (hs : s.sid.tx ≠ 0) :
    ∃ t, execAll (ps.map .txpkt) s = .next t ∧ t.txSeq = s.txSeq + BitVec.ofNat 4 ps.length ∧
      t.out.txOut = s.out.txOut ++ txPackets s.cfg.txTmpl s.txSeq s.sid.tx ps := by
  induction ps generalizing s with
  | nil => exact ⟨s, rfl, by simp, by simp [txPackets]⟩
  | cons p ps ih =>
    obtain ⟨hpLen, hpsLen⟩ := List.forall_mem_cons.1 hp
    obtain ⟨t, hrun, hseq, hout⟩ := ih (txSent p s) hpsLen hs
    refine ⟨t, (execAll_cons (exec_txpkt_of_stream hpLen hs)).trans hrun, ?_, ?_⟩
    · rw [hseq, txSent_txSeq, List.length_cons, add_ofNat_succ]
    · rw [hout, txPackets_cons]
      simp

/-- Counting `n` steps modulo `n` from `q` is a rotation of counting from 0. -/
theorem map_add_mod_range (n q : Nat) :
    (List.range n).map (fun k => (q + k) % n) = (List.range n).rotate q :=
  List.ext_getElem (by simp) fun k _ _ => by simp [List.getElem_rotate, Nat.add_comm]

/-- Settles O18: sixteen steps bring a 4-bit counter back, and the counts of the packets are a rotation of
0 .. 15. -/
theorem txSequenceWrap : Obligations.TxSequenceWrap := by
  intro s ps hlen hp hs
  obtain ⟨t, hrun, hseq, hout⟩ := execAll_txpkt ps s hp hs
  have hbs : (txPackets s.cfg.txTmpl s.txSeq s.sid.tx ps).length = 16 := by simp [hlen]
  refine ⟨t, _, hrun, ?_, hout, hbs, fun k hk => ?_, ?_⟩
  · rw [hseq, hlen]
    exact BitVec.add_zero _
  · have hlt := hbs.symm ▸ hk
    exact ⟨_, List.getElem?_eq_getElem hlt, packetCount_txPackets _ _ _ hlt⟩
  · have hcounts : (txPackets s.cfg.txTmpl s.txSeq s.sid.tx ps).map packetCount =
        (List.range 16).map fun k => (s.txSeq.toNat + k) % 16 :=
      List.ext_getElem (by simp [hlen]) fun k _ _ => by simp [packetCount_txPackets]
    rw [hcounts, map_add_mod_range]
    exact List.rotate_perm _ _

end Sys2Proof.Machine
end

section
/-! ROUTER (rules R150 to R158): the search for a slot, RXDGRAM route by route and its frame, and SIDSET. -/

namespace Sys2Proof.Machine

open Sys2Proof Sys2Proof.Laws

/-! ## The search for a slot, rule R152 -/

/-- The search gives the first slot that holds the StreamID. -/
theorem findSlot_eq_some_iff {sid : Word} {ws : List Word} {i : Nat} :
    findSlot sid 0 ws = some i ↔ ws[i]? = some sid ∧ ∀ j, j < i → ws[j]? ≠ some sid := by
  have found : ∀ {n}, findSlot sid 0 ws = some n →
      ws[n]? = some sid ∧ ∀ j, j < n → ws[j]? ≠ some sid := fun h => by
    obtain ⟨j, rfl, hj, hmin⟩ := findSlot_some h
    rw [Nat.zero_add]
    exact ⟨hj, hmin⟩
  refine ⟨found, fun ⟨hi, hmin⟩ => ?_⟩
  cases h : findSlot sid 0 ws with
  | none => exact absurd (List.mem_of_getElem? hi) (findSlot_none.1 h)
  | some n =>
    obtain ⟨hn, hminn⟩ := found h
    rcases Nat.lt_trichotomy n i with hlt | rfl | hlt
    · exact absurd hn (hmin n hlt)
    · rfl
    · exact absurd hi (hminn i hlt)

/-! ## RXDGRAM, route by route -/

section Routes

variable {parse : List Byte → Option Fragment} {b : List Byte} {s : State}

/-- A datagram that does not decode (rule R151). -/
theorem routeDatagram_of_fail {sub : MalformedSub} (hd : decodePacket b = .fail sub) :
    routeDatagram parse b s = (.droppedMalformed, raise (.malformedPacket sub) s) := by
  rw [routeDatagram, hd]

variable {h : Header} {sid : Word} {k : ClassId} {p : List Byte} {i : Nat}

/-- A datagram that decodes goes where its StreamID says. -/
theorem routeDatagram_of_ok (hd : decodePacket b = .ok h sid k p) :
    routeDatagram parse b s = routePacket parse sid p s := by
  rw [routeDatagram, hd]

/-- StreamID 0 matches no slot. -/
theorem routePacket_zero : routePacket parse 0 p s = (.droppedUnrouted, s) := if_pos rfl

/-- A StreamID that a waterfall slot holds. -/
theorem routePacket_of_slot (h0 : sid ≠ 0) (hs : findSlot sid 0 s.sid.wf = some i) :
    routePacket parse sid p s = routeWaterfall parse i p s := by
  rw [routePacket, if_neg h0, hs]

/-- A StreamID that no waterfall slot holds is looked up in SID_RXA alone. -/
theorem routePacket_of_no_slot (h0 : sid ≠ 0) (hs : sid ∉ s.sid.wf) :
    routePacket parse sid p s =
      if s.sid.rxa = sid then (.toRxAudio, sendRxa p s) else (.droppedUnrouted, s) := by
  rw [routePacket, if_neg h0, findSlot_none.2 hs]

/-- A payload that is no tile (rule R153). -/
theorem routeWaterfall_of_none (hp : parse p = none) :
    routeWaterfall parse i p s =
      (.droppedMalformed, raise (.malformedPacket .tileParse) s) := by
  rw [routeWaterfall, hp]

/-- A payload that is a tile goes through WFFRAG's meaning (rule R153). -/
theorem routeWaterfall_of_some {f : Fragment} (hp : parse p = some f) :
    routeWaterfall parse i p s = (.toWaterfall i, (wfApply i f s).2) := by
  rw [routeWaterfall, hp]

/-- RXDGRAM delivers the route it takes, in the state that route leaves. -/
theorem exec_rxdgram_of_route {r : Route} {t : State}
    (hr : routeDatagram Config.tileParse b s = (r, t)) :
    exec (.rxdgram b) s = .next (deliver (.rxdgram r) t) := by
  rw [exec, execRxdgram, hr]

end Routes

/-- Settles O19: the route of a datagram that does not decode, as a step. -/
theorem rxdgramMalformed : Obligations.RxdgramMalformed :=
  fun _ _ _ hd => exec_rxdgram_of_route (routeDatagram_of_fail hd)

/-- WFFRAG on a context there is. -/
theorem exec_wffrag_of_lt {c : BitVec 8} {s : State} (hc : c.toNat < s.cfg.nWf) (f : Fragment) :
    exec (.wffrag c f) s =
      .next (deliver (.wffrag (wfApply c.toNat f s).1) (wfApply c.toNat f s).2) :=
  if_pos (decide_eq_true hc)

/-- Settles O20: the route of each case of the lookup; the waterfall route and WFFRAG leave the same state because
both carry out `wfApply` on the slot's context. -/
theorem rxdgramRoutes : Obligations.RxdgramRoutes := by
  refine ⟨⟨rfl, fun _ => rfl, rfl, rfl, rfl⟩, fun s b h sid k p hd => ?_⟩
  have hroute := routeDatagram_of_ok (parse := Config.tileParse) (s := s) hd
  refine ⟨?_, fun i h0 hi hn hs hmin => ?_, fun h0 hs hr => ?_, fun h0 hs hr => ?_⟩
  · rintro rfl
    exact exec_rxdgram_of_route (hroute.trans routePacket_zero)
  · have hslot := hroute.trans (routePacket_of_slot h0 (findSlot_eq_some_iff.2 ⟨hs, hmin⟩))
    refine ⟨fun hp => exec_rxdgram_of_route (hslot.trans (routeWaterfall_of_none hp)),
      fun f hp => ⟨(wfApply i f s).2, (wfApply i f s).1, ?_,
        exec_rxdgram_of_route (hslot.trans (routeWaterfall_of_some hp))⟩⟩
    have hidx : (BitVec.ofNat 8 i).toNat = i := by
      rw [BitVec.toNat_ofNat]
      omega
    rw [exec_wffrag_of_lt (by rwa [hidx]), hidx]
  · exact exec_rxdgram_of_route (hroute.trans ((routePacket_of_no_slot h0 hs).trans (if_pos hr)))
  · exact exec_rxdgram_of_route (hroute.trans ((routePacket_of_no_slot h0 hs).trans (if_neg hr)))

/-! ## The frame of RXDGRAM -/

/-- A datagram that makes no reassembler take a fragment changes no context (rules R150, R171). -/
theorem routeDatagram_wf_of_other {parse : List Byte → Option Fragment} {b : List Byte} {s : State}
    (hnone : ∀ i f, ¬ reassembles parse b s i f) : (routeDatagram parse b s).2.wf = s.wf := by
  rcases routeDatagram_other hnone with e | ⟨_, e⟩ | ⟨_, e⟩ <;> rw [e] <;> rfl

/-- An RXDGRAM writes the contexts and appends to EVT, ERR and RXA_OUT; with a record on ERR it does nothing else
(rule R266). -/
theorem routeDatagram_writes (parse : List Byte → Option Fragment) (b : List Byte) (s : State) :
    ∃ (es : List Event) (er : List ErrRecord) (rx : List (List Byte)),
      (routeDatagram parse b s).2 = { s with
        wf := (routeDatagram parse b s).2.wf
        out := { s.out with
          evt := s.out.evt ++ es, err := s.out.err ++ er, rxaOut := s.out.rxaOut ++ rx } } ∧
      (er ≠ [] → (routeDatagram parse b s).2.wf = s.wf ∧ es = [] ∧ rx = []) := by
  by_cases h : ∃ i f, reassembles parse b s i f
  · obtain ⟨i, f, hr⟩ := h
    rw [routeDatagram_reassembles hr]
    exact ⟨(wfAccept i f (s.context i)).2, [], [], by simp [emit, setContext], fun hne => absurd rfl hne⟩
  · have hnone : ∀ i f, ¬ reassembles parse b s i f := fun i f hr => h ⟨i, f, hr⟩
    rcases routeDatagram_other hnone with e | ⟨sub, e⟩ | ⟨p, e⟩ <;> rw [e]
    · exact ⟨[], [], [], by simp, fun _ => ⟨rfl, rfl, rfl⟩⟩
    · exact ⟨[], [.malformedPacket sub], [], by simp [raise], fun _ => ⟨rfl, rfl, rfl⟩⟩
    · exact ⟨[], [], [p], by simp [sendRxa], fun hne => absurd rfl hne⟩

/-- Settles O21: a datagram that makes a reassembler take a fragment writes that context as the reassembler does;
any other writes none. -/
theorem rxdgramFrame : Obligations.RxdgramFrame := by
  refine ⟨fun _ _ => rfl, ?_⟩
  rintro parse s t b rfl
  refine ⟨routeDatagram_writes parse b s, fun i f hr => ?_, routeDatagram_wf_of_other⟩
  have hwf : (routeDatagram parse b s).2.wf = s.wf.set i (wfAccept i f (s.context i)).1 := by
    rw [routeDatagram_reassembles hr]
    rfl
  obtain ⟨-, -, -, -, -, -, -, -, hvalid⟩ := hr
  exact ⟨_, rfl, hwf, fun a ha => wfAccept_read_other hvalid ha⟩

/-! ## SIDSET -/

/-- The number of SIDSET's command word: its row's opcode and the slot's index (rules R95, R96). -/
theorem sidset_word_toNat (slot : Slot) (v : Word) :
    (Instr.sidset slot v).word.toNat = 0x09000000 + slot.toIdx.toNat * 2 ^ 16 := by
  rw [Instr.word, commandWord_toNat]
  simp [Instr.opcode, Opcode.code, Instr.idx, Instr.imm]

/-- SIDSET on a slot there is. -/
theorem exec_sidset_of_legal {slot : Slot} {s : State} (h : slotLegal slot s = true) (v : Word) :
    exec (.sidset slot v) s = .next (setSlot slot v s) :=
  if_pos h

/-- Settles O22: each slot's word, and what `setSlot` writes; the context of a waterfall slot is `WfContext.reset`. -/
theorem sidsetResult : Obligations.SidsetResult := by
  refine ⟨fun k v => ?_, fun s v => ⟨fun k hk => ?_,
    BitVec.eq_of_toNat_eq (sidset_word_toNat .rxa v), exec_sidset_of_legal rfl v,
    BitVec.eq_of_toNat_eq (sidset_word_toNat .tx v), exec_sidset_of_legal rfl v⟩⟩
  · have hidx : (Slot.wf k).toIdx.toNat = k.val := by
      rw [Slot.toIdx, BitVec.toNat_ofNat]
      omega
    rw [sidset_word_toNat, hidx]
  · have hlegal : slotLegal (.wf k) s = true := decide_eq_true hk
    exact ⟨WfContext.reset, exec_sidset_of_legal hlegal v, rfl, rfl, rfl, rfl, rfl, rfl, rfl,
      Memory.read_nil⟩

end Sys2Proof.Machine
end

section
/-! WFR (rules R170 to R184): the tests of a fragment, the steps on a valid one, and the events they emit. -/

namespace Sys2Proof.Machine

open Sys2Proof

/-! ## Step 0, the tests of rule R171 -/

section Tests

variable {f : Fragment}

theorem total_ne_zero_of_toNat (h : f.total.toNat ≠ 0) : f.total ≠ 0 := fun e => h (by rw [e]; rfl)

/-- The first test. -/
theorem fragmentError_zeroTotal (h : f.total.toNat = 0) :
    fragmentError f = some .fragZeroTotal :=
  if_pos (BitVec.eq_of_toNat_eq h)

/-- The second test, on a fragment that passes the first. -/
theorem fragmentError_binsLen (h0 : f.total.toNat ≠ 0) (hlen : f.bins.length ≠ f.width.toNat) :
    fragmentError f = some .fragBinsLen := by
  rw [fragmentError, if_neg (total_ne_zero_of_toNat h0), if_pos hlen]

/-- The third test, on a fragment that passes the first two. -/
theorem fragmentError_range (h0 : f.total.toNat ≠ 0) (hlen : f.bins.length = f.width.toNat)
    (hrange : f.total.toNat < f.first.toNat + f.width.toNat) :
    fragmentError f = some .fragRange := by
  rw [fragmentError, if_neg (total_ne_zero_of_toNat h0), if_neg (not_not.2 hlen), if_pos hrange]

/-- The fourth test, on a fragment that passes the first three. -/
theorem fragmentError_freqRange (h0 : f.total.toNat ≠ 0) (hlen : f.bins.length = f.width.toNat)
    (hrange : f.first.toNat + f.width.toNat ≤ f.total.toNat) (hbound : 2 ^ 64 ≤ upperBound f) :
    fragmentError f = some .freqRange := by
  rw [fragmentError, if_neg (total_ne_zero_of_toNat h0), if_neg (not_not.2 hlen),
    if_neg (Nat.not_lt.2 hrange), if_pos hbound]

end Tests

/-! ## WFFRAG as a step -/

section Wffrag

variable {ctx : BitVec 8} {f : Fragment} {s : State}

/-- WFFRAG of a malformed fragment (rule R171). -/
theorem exec_wffrag_of_error {sub : MalformedSub} (hc : ctx.toNat < s.cfg.nWf)
    (he : fragmentError f = some sub) :
    exec (.wffrag ctx f) s =
      .next (deliver (.wffrag false) (raise (.malformedPacket sub) s)) := by
  rw [exec_wffrag_of_lt hc, wfApply, he]

/-- The state after WFFRAG of a valid fragment; see `exec_wffrag_of_valid`. -/
def reassembled (ctx : BitVec 8) (f : Fragment) (s : State) : State :=
  deliver (.wffrag true) (emit (wfAccept ctx.toNat f (s.context ctx.toNat)).2
    (setContext ctx.toNat (wfAccept ctx.toNat f (s.context ctx.toNat)).1 s))

/-- WFFRAG of a valid fragment (rule R170). -/
theorem exec_wffrag_of_valid (hc : ctx.toNat < s.cfg.nWf) (hf : ValidFragment f) :
    exec (.wffrag ctx f) s = .next (reassembled ctx f s) := by
  rw [exec_wffrag_of_lt hc, wfApply, (fragmentError_none_iff f).2 hf]
  rfl

@[simp] theorem reassembled_cfg : (reassembled ctx f s).cfg = s.cfg := rfl
@[simp] theorem reassembled_wf_length : (reassembled ctx f s).wf.length = s.wf.length :=
  List.length_set
@[simp] theorem reassembled_evt : (reassembled ctx f s).out.evt =
    s.out.evt ++ (wfAccept ctx.toNat f (s.context ctx.toNat)).2 := rfl

theorem reassembled_context (h : ctx.toNat < s.wf.length) :
    (reassembled ctx f s).context ctx.toNat =
      (wfAccept ctx.toNat f (s.context ctx.toNat)).1 :=
  context_setContext_same s _ h

end Wffrag

/-- Settles O23: each test of rule R171 gives its subcode to a fragment that passes those before it, and a fragment
that passes all is accepted. -/
theorem wffragValidity : Obligations.WffragValidity := by
  refine ⟨rfl, rfl, rfl, rfl, fun ctx f s hc => ⟨fun sub h => exec_wffrag_of_error hc ?_,
    fun hf => ⟨_, exec_wffrag_of_valid hc hf, rfl, rfl⟩⟩⟩
  rcases h with ⟨h0, rfl⟩ | ⟨h0, hlen, rfl⟩ | ⟨h0, hlen, hrange, rfl⟩ |
    ⟨h0, hlen, hrange, hbound, rfl⟩
  · exact fragmentError_zeroTotal h0
  · exact fragmentError_binsLen h0 hlen
  · exact fragmentError_range h0 hlen hrange
  · exact fragmentError_freqRange h0 hlen hrange hbound

/-! ## The steps, one by one -/

section Steps

variable (i : Nat) {f : Fragment} {c : WfContext}

/-- A fragment continues a frame: it has the context's total and timecode, and the timecode is valid. -/
theorem not_startsFrame_iff : ¬ startsFrame f c ↔ c.tcv = true ∧ f.timecode = c.tc := by
  simp [startsFrame]

/-- Step 1 leaves a context of the fragment's total alone (rule R172). -/
theorem wfConfigure_of_eq (h : f.total = c.total) : wfConfigure i f c = (c, []) := if_pos h

/-- Step 1 on a context of another total (rule R172). -/
theorem wfConfigure_of_ne (h : f.total ≠ c.total) :
    wfConfigure i f c =
      ({ c with total := f.total, buf := Memory.zeroBelow c.buf f.total.toNat, filled := 0,
                phase := .idle }, [.binsConfigured i f.total]) :=
  if_neg h

/-- Step 2 leaves a context of the fragment's timecode alone (rule R173). -/
theorem wfNewFrame_of_continues (h : ¬ startsFrame f c) : wfNewFrame i f c = (c, []) :=
  if_pos (not_startsFrame_iff.1 h)

/-- Step 2 on a context without a timecode or with another one (rules R173, R175). -/
theorem wfNewFrame_of_starts (h : startsFrame f c) :
    wfNewFrame i f c =
      ({ c with tc := f.timecode, tcv := true, low := f.low,
                high := BitVec.ofNat 64 (upperBound f), filled := 0 },
      [.dataRangeChanged i f.low (BitVec.ofNat 64 (upperBound f))]) :=
  if_neg fun hc => not_startsFrame_iff.2 hc h

/-- Step 4 on a complete frame emits the row (rule R178). -/
theorem wfComplete_events_of_full (h : c.filled = c.total.toNat) : (wfComplete i f c).2 =
    [.rowReceived i (Memory.readList c.buf 0 c.total.toNat) f.abl] := by
  rw [wfComplete, if_pos h]

/-- Step 4 on any other emits nothing (rule R178). -/
theorem wfComplete_events_of_ne (h : c.filled ≠ c.total.toNat) : (wfComplete i f c).2 = [] := by
  rw [wfComplete, if_neg h]

/-- Step 1 does not touch what step 2 tests. -/
theorem startsFrame_wfConfigure : startsFrame f (wfConfigure i f c).1 ↔ startsFrame f c := by
  unfold wfConfigure
  split <;> rfl

/-- The events of step 2 do not depend on step 1. -/
theorem wfNewFrame_events_wfConfigure :
    (wfNewFrame i f (wfConfigure i f c).1).2 = (wfNewFrame i f c).2 := by
  by_cases h : startsFrame f c
  · rw [wfNewFrame_of_starts i h, wfNewFrame_of_starts i ((startsFrame_wfConfigure i).2 h)]
  · rw [wfNewFrame_of_continues i h,
      wfNewFrame_of_continues i fun h' => h ((startsFrame_wfConfigure i).1 h')]

/-- Step 1 emits at most BINS_CONFIGURED (rule R172). -/
theorem wfConfigure_events (f : Fragment) (c : WfContext) :
    (wfConfigure i f c).2 = [] ∨ (wfConfigure i f c).2 = [.binsConfigured i f.total] := by
  by_cases h : f.total = c.total
  · exact .inl (by rw [wfConfigure_of_eq i h])
  · exact .inr (by rw [wfConfigure_of_ne i h])

/-- Step 2 emits at most DATA_RANGE_CHANGED (rule R175). -/
theorem wfNewFrame_events (f : Fragment) (c : WfContext) : (wfNewFrame i f c).2 = [] ∨
    (wfNewFrame i f c).2 = [.dataRangeChanged i f.low (BitVec.ofNat 64 (upperBound f))] := by
  by_cases h : startsFrame f c
  · exact .inr (by rw [wfNewFrame_of_starts i h])
  · exact .inl (by rw [wfNewFrame_of_continues i h])

/-- Step 4 emits at most ROW_RECEIVED (rule R178). -/
theorem wfComplete_events (f : Fragment) (c : WfContext) : (wfComplete i f c).2 = [] ∨
    (wfComplete i f c).2 = [.rowReceived i (Memory.readList c.buf 0 c.total.toNat) f.abl] := by
  by_cases h : c.filled = c.total.toNat
  · exact .inr (wfComplete_events_of_full i h)
  · exact .inl (wfComplete_events_of_ne i h)

end Steps

/-! ## The steps together -/

section Accept

variable (i : Nat) (f : Fragment) (c : WfContext)

/-- The events of a valid fragment, step by step (rule R184); those of step 4 are read off the context it leaves. -/
theorem wfAccept_events : (wfAccept i f c).2 =
    (wfConfigure i f c).2 ++ (wfNewFrame i f c).2 ++ (wfComplete i f (wfAccept i f c).1).2 := by
  have hrow : ∀ d : WfContext, (wfComplete i f d).2 = (wfComplete i f (wfComplete i f d).1).2 := by
    intro d
    rw [wfComplete_eq]
    unfold wfComplete
    split <;> rfl
  unfold wfAccept
  simp only
  rw [wfNewFrame_events_wfConfigure, ← hrow]

theorem wfAccept_total : (wfAccept i f c).1.total = f.total := (wfAccept_configured i f c).1

theorem wfAccept_tcv : (wfAccept i f c).1.tcv = true := by
  obtain ⟨-, htcv, -⟩ := wfAccept_configured i f c
  exact htcv

/-- Step 4 leaves Idle exactly a complete frame (rules R34, R178). -/
theorem wfAccept_phase :
    (wfAccept i f c).1.phase = .idle ↔ (wfAccept i f c).1.filled = f.total.toNat := by
  obtain ⟨htotal, -, hphase⟩ := wfAccept_configured i f c
  rw [hphase, htotal]

/-- The context after steps 1 and 2, into which step 3 copies. -/
def wfOpened : WfContext := (wfNewFrame i f (wfConfigure i f c).1).1

/-- Steps 3 and 4 raise the count and leave the timecode and the bounds alone (rules R177, R178). -/
theorem wfAccept_registers :
    (wfAccept i f c).1.tc = (wfOpened i f c).tc ∧ (wfAccept i f c).1.low = (wfOpened i f c).low ∧
      (wfAccept i f c).1.high = (wfOpened i f c).high ∧
      (wfAccept i f c).1.filled = (wfOpened i f c).filled + f.width.toNat := by
  unfold wfAccept
  simp only
  rw [wfComplete_eq]
  exact ⟨rfl, rfl, rfl, rfl⟩

end Accept

section Outcome

variable (i : Nat) {f : Fragment} {c : WfContext}

/-- A fragment that restarts the count of a context: another total, or a new frame (rules R172, R173). -/
def restarts (f : Fragment) (c : WfContext) : Prop := f.total ≠ c.total ∨ startsFrame f c

/-- A fragment that does not restart the count is of the context's total and of its valid timecode. -/
theorem not_restarts_iff :
    ¬ restarts f c ↔ f.total = c.total ∧ c.tcv = true ∧ f.timecode = c.tc := by
  rw [restarts, not_or, not_not, not_startsFrame_iff]

/-- A fragment that starts a frame writes the registers of the frame after step 1 (rules R173, R175). -/
theorem wfOpened_of_starts (h : startsFrame f c) : wfOpened i f c =
    { (wfConfigure i f c).1 with
      tc := f.timecode, tcv := true, low := f.low, high := BitVec.ofNat 64 (upperBound f),
      filled := 0 } := by
  rw [wfOpened, wfNewFrame_of_starts i ((startsFrame_wfConfigure i).2 h)]

/-- For any other, step 1 alone counts. -/
theorem wfOpened_of_continues (h : ¬ startsFrame f c) :
    wfOpened i f c = (wfConfigure i f c).1 := by
  rw [wfOpened, wfNewFrame_of_continues i fun h' => h ((startsFrame_wfConfigure i).1 h')]

/-- The bounds and the timecode a fragment that starts a frame leaves (rules R173, R175). -/
theorem wfAccept_of_starts (h : startsFrame f c) :
    (wfAccept i f c).1.tc = f.timecode ∧ (wfAccept i f c).1.low = f.low ∧
      (wfAccept i f c).1.high = BitVec.ofNat 64 (upperBound f) := by
  obtain ⟨htc, hlow, hhigh, -⟩ := wfAccept_registers i f c
  rw [htc, hlow, hhigh, wfOpened_of_starts i h]
  exact ⟨rfl, rfl, rfl⟩

/-- A fragment of the frame the context is on leaves them as they were, a new total too (rule R173). -/
theorem wfAccept_of_continues (h : ¬ startsFrame f c) :
    (wfAccept i f c).1.tc = c.tc ∧ (wfAccept i f c).1.low = c.low ∧
      (wfAccept i f c).1.high = c.high := by
  obtain ⟨htc, hlow, hhigh, -⟩ := wfAccept_registers i f c
  rw [htc, hlow, hhigh, wfOpened_of_continues i h]
  unfold wfConfigure
  split <;> exact ⟨rfl, rfl, rfl⟩

/-- The timecode is the fragment's either way (rule R173). -/
theorem wfAccept_tc : (wfAccept i f c).1.tc = f.timecode := by
  by_cases h : startsFrame f c
  · exact (wfAccept_of_starts i h).1
  · exact (wfAccept_of_continues i h).1.trans (not_startsFrame_iff.1 h).2.symm

/-- A restart counts the bins of its fragment alone (rules R172, R173, R177). -/
theorem wfAccept_filled_of_restarts (h : restarts f c) :
    (wfAccept i f c).1.filled = f.width.toNat := by
  obtain ⟨-, -, -, hfilled⟩ := wfAccept_registers i f c
  have hzero : (wfOpened i f c).filled = 0 := by
    by_cases hs : startsFrame f c
    · rw [wfOpened_of_starts i hs]
    · rw [wfOpened_of_continues i hs, wfConfigure_of_ne i (h.resolve_right hs)]
  rw [hfilled, hzero, Nat.zero_add]

/-- Every other fragment raises the count (rule R177). -/
theorem wfAccept_filled_of_not_restarts (h : ¬ restarts f c) :
    (wfAccept i f c).1.filled = c.filled + f.width.toNat := by
  obtain ⟨htotal, hs⟩ := not_or.1 h
  obtain ⟨-, -, -, hfilled⟩ := wfAccept_registers i f c
  rw [hfilled, wfOpened_of_continues i hs, wfConfigure_of_eq i (not_not.1 htotal)]

/-- A fragment that restarts the count or finds it at 0 is counted alone. -/
theorem wfAccept_filled_of_fresh (h : restarts f c ∨ c.filled = 0) :
    (wfAccept i f c).1.filled = f.width.toNat := by
  by_cases hr : restarts f c
  · exact wfAccept_filled_of_restarts i hr
  · rw [wfAccept_filled_of_not_restarts i hr, h.resolve_left hr, Nat.zero_add]

/-- Step 4 leaves every other frame Accumulating (rules R34, R178). -/
theorem wfAccept_phase_of_ne (h : (wfAccept i f c).1.filled ≠ f.total.toNat) :
    (wfAccept i f c).1.phase = .accumulating := by
  cases hp : (wfAccept i f c).1.phase with
  | idle => exact absurd ((wfAccept_phase i f c).1 hp) h
  | accumulating => rfl

/-- The row of a complete frame (rule R178). -/
theorem wfAccept_row_of_full (h : (wfAccept i f c).1.filled = f.total.toNat) :
    (wfComplete i f (wfAccept i f c).1).2 =
      [.rowReceived i (Memory.readList (wfAccept i f c).1.buf 0 f.total.toNat) f.abl] := by
  rw [wfComplete_events_of_full i (by rw [h, wfAccept_total]), wfAccept_total]

/-- Any other frame gives no row (rule R178). -/
theorem wfAccept_row_of_ne (h : (wfAccept i f c).1.filled ≠ f.total.toNat) :
    (wfComplete i f (wfAccept i f c).1).2 = [] :=
  wfComplete_events_of_ne i (by rwa [wfAccept_total])

/-- The buffer a fragment is copied into: the context's, set to 0 below a new total (rule R172). -/
def wfBase (f : Fragment) (c : WfContext) : Memory 16 :=
  if f.total = c.total then c.buf else Memory.zeroBelow c.buf f.total.toNat

theorem wfBase_of_eq (h : f.total = c.total) : wfBase f c = c.buf := if_pos h

theorem wfBase_wf (h : Memory.wf c.buf = true) : Memory.wf (wfBase f c) = true := by
  unfold wfBase
  split
  · exact h
  · exact Memory.zeroBelow_wf h _

/-- What a fragment leaves in the buffer: its bins over the buffer it is copied into (rule R177). -/
theorem wfAccept_buf_eq_writeList (f : Fragment) (c : WfContext) : (wfAccept i f c).1.buf =
    Memory.writeList (wfBase f c) f.first.toNat f.bins :=
  wfAccept_buf i f c

/-- What a valid fragment leaves inside its slice (rule R177). -/
theorem wfAccept_read_slice (hf : ValidFragment f) (hwf : Memory.wf c.buf = true) {a : Nat}
    (hlo : f.first.toNat ≤ a) (hhi : a < f.first.toNat + f.width.toNat) :
    Memory.read (wfAccept i f c).1.buf a = f.bins.getD (a - f.first.toNat) 0 := by
  rw [wfAccept_buf_eq_writeList, Memory.read_writeList a (wfBase_wf hwf), hf.bins_len,
    if_pos ⟨hlo, hhi⟩]

/-- The upper bound of a valid fragment fits WF_HIGH (rules R171, R174). -/
theorem upperBound_toNat (hf : ValidFragment f) :
    (BitVec.ofNat 64 (upperBound f)).toNat =
      f.low.toNat + (f.total.toNat - 1) * (f.bw.toNat + 1) :=
  (BitVec.toNat_ofNat ..).trans (Nat.mod_eq_of_lt hf.bound)

end Outcome

/-- A read of several elements from address 0, as a list over the addresses. -/
theorem Memory.readList_zero_eq_map {w : Nat} (m : Memory w) (n : Nat) :
    Memory.readList m 0 n = (List.range n).map fun a => Memory.read m a := by
  refine List.ext_getElem (by simp) fun k hk _ => ?_
  rw [Memory.readList_length] at hk
  have hread := Memory.readList_getElem? m n 0 k hk
  rw [Nat.zero_add] at hread
  simpa using (List.getElem?_eq_some_iff.1 hread).2

/-- Settles O24: the events of `wfAccept_events` step by step, and the registers and the buffer by the lemma for
each. -/
theorem wffragSteps : Obligations.WffragSteps := by
  intro ctx f s hc hf hwf
  refine ⟨(wfAccept ctx.toNat f (s.context ctx.toNat)).1,
    (wfConfigure ctx.toNat f (s.context ctx.toNat)).2,
    (wfNewFrame ctx.toNat f (s.context ctx.toNat)).2,
    (wfComplete ctx.toNat f (wfAccept ctx.toNat f (s.context ctx.toNat)).1).2, ?_,
    wfAccept_total .., wfAccept_tc _, wfAccept_tcv .., fun hs => ?_, fun hs => ?_, fun ht => ?_,
    fun ht => ?_, wfAccept_filled_of_restarts _,
    fun ht hs => wfAccept_filled_of_not_restarts _ (not_or.2 ⟨not_not.2 ht, hs⟩),
    fun a => wfAccept_read_slice _ hf hwf, fun a => wfAccept_read_other hf, fun h => ?_, fun h => ?_⟩
  · rw [exec_wffrag_of_valid hc hf, ← wfAccept_events]
    rfl
  · obtain ⟨-, hlow, hhigh⟩ := wfAccept_of_starts ctx.toNat hs
    rw [hlow, hhigh, wfNewFrame_of_starts _ hs]
    exact ⟨rfl, upperBound_toNat hf, rfl⟩
  · obtain ⟨-, hlow, hhigh⟩ := wfAccept_of_continues ctx.toNat hs
    exact ⟨hlow, hhigh, by rw [wfNewFrame_of_continues _ hs]⟩
  · rw [wfConfigure_of_ne _ ht]
  · rw [wfConfigure_of_eq _ ht]
  · rw [← Memory.readList_zero_eq_map]
    exact ⟨(wfAccept_phase _ _ _).2 h, wfAccept_row_of_full _ h⟩
  · exact ⟨wfAccept_phase_of_ne _ h, wfAccept_row_of_ne _ h⟩

/-! ## The range a subscriber is told, rule R176 -/

/-- The upper bound of a fragment in MHz (rules R174, R176). -/
theorem mhzOf_upperBound {f : Fragment} (hf : ValidFragment f) :
    mhzOf (BitVec.ofNat 64 (upperBound f)) =
      (f.low.toNat + ((f.total.toNat : Rat) - 1) * ((f.bw.toNat : Rat) + 1)) / 1000000 := by
  have hpos : 1 ≤ f.total.toNat :=
    Nat.one_le_iff_ne_zero.2 fun h => hf.total_ne (BitVec.eq_of_toNat_eq h)
  rw [mhzOf, upperBound_toNat hf]
  push_cast [hpos]
  rfl

/-- Step 1 reports no range (rule R176). -/
theorem wfConfigure_range (i : Nat) (f : Fragment) (c : WfContext) :
    ∀ e ∈ (wfConfigure i f c).2, e.range? = none := by
  rcases wfConfigure_events i f c with h | h <;> simp [h, Event.range?]

/-- Step 4 reports no range (rule R176). -/
theorem wfComplete_range (i : Nat) (f : Fragment) (c : WfContext) :
    ∀ e ∈ (wfComplete i f c).2, e.range? = none := by
  rcases wfComplete_events i f c with h | h <;> simp [h, Event.range?]

/-- Settles O25: of the three steps that emit, step 2 alone reports a range, and a fragment that starts a frame makes
it emit. -/
theorem reportedRange : Obligations.ReportedRange := by
  intro ctx f s low high hc hf hs hlow hhigh
  have hrange : (Event.dataRangeChanged ctx.toNat f.low (BitVec.ofNat 64 (upperBound f))).range? =
      some (low, high) := by
    rw [Event.range?, mhzOf_upperBound hf, hlow, hhigh, mhzOf]
  refine ⟨_, (wfConfigure ctx.toNat f (s.context ctx.toNat)).2,
    (wfComplete ctx.toNat f (wfAccept ctx.toNat f (s.context ctx.toNat)).1).2, _,
    exec_wffrag_of_valid hc hf, ?_, fun x hx => ?_, hrange, by rw [Event.reported?, hrange]; rfl⟩
  · rw [reassembled_evt, wfAccept_events, wfNewFrame_of_starts _ hs]
    simp
  · rcases List.mem_append.1 hx with hx | hx
    · exact wfConfigure_range _ _ _ x hx
    · exact wfComplete_range _ _ _ x hx

/-! ## The order of the events, rule R184 -/

/-- The codes of a valid fragment's events are in order: each step emits at most the event of its code. -/
theorem wfAccept_codes (i : Nat) (f : Fragment) (c : WfContext) :
    ((wfAccept i f c).2.map Event.code).Sublist [1, 2, 3] := by
  have h1 : ((wfConfigure i f c).2.map Event.code).Sublist [1] := by
    rcases wfConfigure_events i f c with e | e <;> simp [e, Event.code]
  have h2 : ((wfNewFrame i f c).2.map Event.code).Sublist [2] := by
    rcases wfNewFrame_events i f c with e | e <;> simp [e, Event.code]
  have h3 : ((wfComplete i f (wfAccept i f c).1).2.map Event.code).Sublist [3] := by
    rcases wfComplete_events i f (wfAccept i f c).1 with e | e <;> simp [e, Event.code]
  rw [wfAccept_events, List.map_append, List.map_append]
  exact (h1.append h2).append h3

/-- The events between two states: they come in the order of rule R184, and an error excludes them. -/
def EventsInOrder (s t : State) : Prop :=
  ∃ es : List Event, t.out.evt = s.out.evt ++ es ∧ (es.map Event.code).Sublist [1, 2, 3] ∧
    (t.out.err ≠ s.out.err → es = [])

/-- What leaves EVT alone. -/
theorem eventsInOrder_of_evt_eq {s t : State} (h : t.out.evt = s.out.evt) : EventsInOrder s t :=
  ⟨[], h.trans (List.append_nil _).symm, List.nil_sublist _, fun _ => rfl⟩

/-- The reassembler emits its events, or logs the fragment it drops. -/
theorem wfApply_eventsInOrder (i : Nat) (f : Fragment) (s : State) :
    EventsInOrder s (wfApply i f s).2 := by
  rcases wfApply_cases i f s with ⟨_, -, e⟩ | ⟨-, e⟩ <;> rw [e]
  · exact eventsInOrder_of_evt_eq rfl
  · exact ⟨_, rfl, wfAccept_codes i f (s.context i), fun hne => absurd rfl hne⟩

/-- RXDGRAM emits what the reassembler emits. -/
theorem routeDatagram_eventsInOrder (parse : List Byte → Option Fragment) (b : List Byte)
    (s : State) : EventsInOrder s (routeDatagram parse b s).2 := by
  rcases routeDatagram_cases parse b s with e | ⟨_, e⟩ | ⟨_, e⟩ | ⟨i, f, -, e⟩ <;> rw [e]
  · exact eventsInOrder_of_evt_eq rfl
  · exact eventsInOrder_of_evt_eq rfl
  · exact eventsInOrder_of_evt_eq rfl
  · exact wfApply_eventsInOrder i f s

/-- Settles O26: WFFRAG and RXDGRAM emit in order, and every other instruction leaves EVT alone. -/
theorem eventOrder : Obligations.EventOrder := by
  intro i s t h
  show EventsInOrder s t
  rcases exec_cases h with rfl | heff
  · exact eventsInOrder_of_evt_eq rfl
  cases i <;> simp only [InstrEffect] at heff
  case wffrag c f => exact heff.2 ▸ wfApply_eventsInOrder c.toNat f s
  case rxdgram b => exact heff ▸ routeDatagram_eventsInOrder Config.tileParse b s
  case decode | encode | txinit | rbins | rbsize | rbclr | daset | closeStream | openStream =>
    subst heff
    exact eventsInOrder_of_evt_eq rfl
  case sidset slot v =>
    obtain ⟨-, rfl⟩ := heff
    cases slot <;> exact eventsInOrder_of_evt_eq rfl
  case txpkt | rbpop => rcases heff with ⟨-, rfl⟩ | ⟨-, rfl⟩ <;> exact eventsInOrder_of_evt_eq rfl
  case pushb =>
    obtain ⟨-, rfl⟩ := heff
    exact eventsInOrder_of_evt_eq rfl
  case read =>
    obtain ⟨-, -, rfl⟩ := heff
    exact eventsInOrder_of_evt_eq rfl
  case dawait => rcases heff with rfl | ⟨-, rfl⟩ <;> exact eventsInOrder_of_evt_eq rfl

end Sys2Proof.Machine
end

section
/-! WFR over several fragments (rules R178 to R185): one frame in any order of its fragments, a complete frame, frames
that interleave. -/

namespace Sys2Proof.Machine

open Sys2Proof

/-! ## Fragments of the frame a context is on -/

section Frame

variable (i : Nat) {f g : Fragment} {c : WfContext}

/-- The events of steps 1 and 2: all but the row. -/
def openingEvents (f : Fragment) (c : WfContext) : List Event :=
  (wfConfigure i f c).2 ++ (wfNewFrame i f c).2

/-- A fragment that completes its frame emits the row after its opening events (rules R178, R184). -/
theorem wfAccept_events_of_full (h : (wfAccept i f c).1.filled = f.total.toNat) :
    (wfAccept i f c).2 = openingEvents i f c ++
      [.rowReceived i (Memory.readList (wfAccept i f c).1.buf 0 f.total.toNat) f.abl] := by
  rw [wfAccept_events, wfAccept_row_of_full i h, openingEvents]

/-- Any other fragment emits its opening events alone. -/
theorem wfAccept_events_of_ne (h : (wfAccept i f c).1.filled ≠ f.total.toNat) :
    (wfAccept i f c).2 = openingEvents i f c := by
  rw [wfAccept_events, wfAccept_row_of_ne i h, List.append_nil, openingEvents]

theorem openingEvents_not_row (f : Fragment) (c : WfContext) :
    ∀ e ∈ openingEvents i f c, e.isRow = false := by
  unfold openingEvents
  rcases wfConfigure_events i f c with h1 | h1 <;> rcases wfNewFrame_events i f c with h2 | h2 <;>
    simp [h1, h2, Event.isRow]

/-- A fragment of the frame the context is on opens nothing (rules R172, R173). -/
theorem openingEvents_of_not_restarts (h : ¬ restarts f c) : openingEvents i f c = [] := by
  obtain ⟨htotal, hs⟩ := not_or.1 h
  rw [openingEvents, wfConfigure_of_eq i (not_not.1 htotal), wfNewFrame_of_continues i hs]
  rfl

/-- A fragment that configures a context and starts a frame emits both events of steps 1 and 2. -/
theorem openingEvents_codes_of_ne_of_starts (ht : f.total ≠ c.total) (hs : startsFrame f c) :
    (openingEvents i f c).map Event.code = [1, 2] := by
  rw [openingEvents, wfConfigure_of_ne i ht, wfNewFrame_of_starts i hs]
  rfl

/-- After a fragment the context is on its frame: another one of that frame does not restart the count. -/
theorem not_restarts_wfAccept (ht : g.total = f.total) (htc : g.timecode = f.timecode) :
    ¬ restarts g (wfAccept i f c).1 :=
  not_restarts_iff.2 ⟨ht.trans (wfAccept_total i f c).symm, wfAccept_tcv i f c,
    htc.trans (wfAccept_tc i).symm⟩

end Frame

/-! ## The slices of a tiled frame -/

section Slices

/-- The bins of fragments written to a buffer, one fragment after another. -/
def writeBins (m : Memory 16) (fs : List Fragment) : Memory 16 :=
  fs.foldl (fun m f => Memory.writeList m f.first.toNat f.bins) m

theorem writeBins_cons (m : Memory 16) (f : Fragment) (fs : List Fragment) :
    writeBins m (f :: fs) = writeBins (Memory.writeList m f.first.toNat f.bins) fs := rfl

/-- The slices of two fragments have no bin in common. -/
def slicesDisjoint (f g : Fragment) : Prop :=
  f.first.toNat + f.bins.length ≤ g.first.toNat ∨ g.first.toNat + g.bins.length ≤ f.first.toNat

theorem slicesDisjoint_symm {f g : Fragment} (h : slicesDisjoint f g) : slicesDisjoint g f := h.symm

/-- Fragments whose slices are disjoint from another's leave it alone. -/
theorem readList_writeBins_other {g : Fragment} {fs : List Fragment} (m : Memory 16)
    (h : ∀ f ∈ fs, slicesDisjoint g f) :
    Memory.readList (writeBins m fs) g.first.toNat g.bins.length =
      Memory.readList m g.first.toNat g.bins.length := by
  induction fs generalizing m with
  | nil => rfl
  | cons f fs ih =>
    obtain ⟨hf, hfs⟩ := List.forall_mem_cons.1 h
    rw [writeBins_cons, ih _ hfs]
    refine Memory.readList_congr _ _ fun a hlo hhi => Memory.read_writeList_other ?_
    unfold slicesDisjoint at hf
    omega

/-- Of fragments with disjoint slices each leaves its bins in its slice. -/
theorem readList_writeBins {fs : List Fragment} {m : Memory 16} (hwf : Memory.wf m = true)
    (hdis : fs.Pairwise slicesDisjoint) {g : Fragment} (hg : g ∈ fs) :
    Memory.readList (writeBins m fs) g.first.toNat g.bins.length = g.bins := by
  induction fs generalizing m with
  | nil => cases hg
  | cons f fs ih =>
    obtain ⟨hf, hfs⟩ := List.pairwise_cons.1 hdis
    rw [writeBins_cons]
    rcases List.mem_cons.1 hg with rfl | hg
    · rw [readList_writeBins_other _ hf, Memory.readList_writeList hwf]
    · exact ih (Memory.writeList_wf hwf) hfs hg

/-- The number of bins fragments carry. -/
def binCount (fs : List Fragment) : Nat := (fs.map fun f => f.width.toNat).sum

@[simp] theorem binCount_nil : binCount [] = 0 := rfl

@[simp] theorem binCount_cons (f : Fragment) (fs : List Fragment) :
    binCount (f :: fs) = f.width.toNat + binCount fs := List.sum_cons

theorem binCount_perm {fs gs : List Fragment} (h : fs.Perm gs) : binCount fs = binCount gs :=
  (h.map _).sum_eq

variable {n a : Nat} {gs : List Fragment}

/-- Fragments that tile a range carry as many bins as it has. -/
theorem tiles_binCount (h : tiles n a gs) : a + binCount gs = n := by
  induction gs generalizing a with
  | nil => exact h
  | cons g gs ih =>
    obtain ⟨-, -, hgs⟩ := h
    rw [binCount_cons, ← Nat.add_assoc]
    exact ih hgs

theorem tiles_width_pos (h : tiles n a gs) {g : Fragment} (hg : g ∈ gs) : 1 ≤ g.width.toNat := by
  induction gs generalizing a with
  | nil => cases hg
  | cons f gs ih =>
    obtain ⟨-, hf, hgs⟩ := h
    rcases List.mem_cons.1 hg with rfl | hg
    · exact hf
    · exact ih hgs hg

theorem tiles_le_first (h : tiles n a gs) {g : Fragment} (hg : g ∈ gs) : a ≤ g.first.toNat := by
  induction gs generalizing a with
  | nil => cases hg
  | cons f gs ih =>
    obtain ⟨hf, -, hgs⟩ := h
    rcases List.mem_cons.1 hg with rfl | hg
    · exact hf.ge
    · exact (Nat.le_add_right ..).trans (ih hgs hg)

/-- Fragments that tile have disjoint slices. -/
theorem tiles_disjoint (h : tiles n a gs) (hlen : ∀ g ∈ gs, g.bins.length = g.width.toNat) :
    gs.Pairwise slicesDisjoint := by
  induction gs generalizing a with
  | nil => exact List.Pairwise.nil
  | cons f gs ih =>
    obtain ⟨hf, -, hgs⟩ := h
    obtain ⟨hlenf, hlengs⟩ := List.forall_mem_cons.1 hlen
    refine List.pairwise_cons.2 ⟨fun g hg => .inl ?_, ih hgs hlengs⟩
    rw [hf, hlenf]
    exact tiles_le_first hgs hg

/-- A buffer that holds each of the fragments that tile a range holds their bins in order. -/
theorem readList_tiles {m : Memory 16} (h : tiles n a gs)
    (hlen : ∀ g ∈ gs, g.bins.length = g.width.toNat)
    (hm : ∀ g ∈ gs, Memory.readList m g.first.toNat g.bins.length = g.bins) :
    Memory.readList m a (binCount gs) = gs.flatMap Fragment.bins := by
  induction gs generalizing a with
  | nil => rfl
  | cons f gs ih =>
    obtain ⟨hf, -, hgs⟩ := h
    obtain ⟨hlenf, hlengs⟩ := List.forall_mem_cons.1 hlen
    obtain ⟨hmf, hmgs⟩ := List.forall_mem_cons.1 hm
    rw [hf, hlenf] at hmf
    rw [binCount_cons, Memory.readList_append, hmf, ih hgs hlengs hmgs, List.flatMap_cons]

/-- Fragments that tile a frame, written in any order, leave their bins in index order (rule R183 (c)). -/
theorem readList_writeBins_tiles {fs : List Fragment} {m : Memory 16} (hwf : Memory.wf m = true)
    (h : tiles n 0 gs) (hlen : ∀ g ∈ gs, g.bins.length = g.width.toNat) (hperm : fs.Perm gs) :
    Memory.readList (writeBins m fs) 0 n = gs.flatMap Fragment.bins := by
  have hdis : fs.Pairwise slicesDisjoint :=
    hperm.symm.pairwise (tiles_disjoint h hlen) slicesDisjoint_symm
  have hrow := readList_tiles h hlen fun g hg => readList_writeBins hwf hdis (hperm.mem_iff.2 hg)
  rwa [← Nat.zero_add (binCount gs), tiles_binCount h] at hrow

end Slices

/-! ## A complete frame, rule R179 -/

/-- Settles O29: a fragment that does not restart a count at or past the total leaves it at the total only if it
carries nothing, and then the buffer is the row that was there. -/
theorem waterfallAfterCompletion : Obligations.WaterfallAfterCompletion := by
  intro ctx s f hc hlen hf hdone
  refine ⟨_, exec_wffrag_of_valid hc hf, ?_⟩
  rw [reassembled_context hlen, reassembled_evt]
  refine ⟨fun ht hs => ?_, wfAccept_filled_of_restarts _⟩
  have hr : ¬ restarts f (s.context ctx.toNat) := not_or.2 ⟨not_not.2 ht, hs⟩
  have hfilled := wfAccept_filled_of_not_restarts ctx.toNat hr
  have hopening := openingEvents_of_not_restarts ctx.toNat hr
  have hbuf := wfAccept_buf_eq_writeList ctx.toNat f (s.context ctx.toNat)
  rw [wfBase_of_eq ht] at hbuf
  refine ⟨hfilled, hbuf, fun hlt => ?_, fun heq => ?_⟩
  · have hne : (wfAccept ctx.toNat f (s.context ctx.toNat)).1.filled ≠ f.total.toNat := by
      rw [hfilled, ht]
      exact hlt.ne'
    rw [wfAccept_events_of_ne _ hne, hopening, List.append_nil]
    exact ⟨rfl, wfAccept_phase_of_ne _ hne⟩
  · have hbins : f.bins = [] := List.length_eq_zero_iff.1 (by rw [hf.bins_len]; omega)
    rw [wfAccept_events_of_full _ (by rw [hfilled, ht, heq]), hopening, hbuf, hbins]
    rfl

/-! ## Runs of fragments -/

/-- What valid fragments make of a context one after another, with the events. -/
def wfRun (i : Nat) : List Fragment → WfContext → WfContext × List Event
  | [], c => (c, [])
  | f :: fs, c =>
    ((wfRun i fs (wfAccept i f c).1).1, (wfAccept i f c).2 ++ (wfRun i fs (wfAccept i f c).1).2)

@[simp] theorem wfRun_nil (i : Nat) (c : WfContext) : wfRun i [] c = (c, []) := rfl

theorem wfRun_cons (i : Nat) (f : Fragment) (fs : List Fragment) (c : WfContext) :
    wfRun i (f :: fs) c = ((wfRun i fs (wfAccept i f c).1).1,
      (wfAccept i f c).2 ++ (wfRun i fs (wfAccept i f c).1).2) := rfl

/-- A run of WFFRAG on one context is `wfRun` on that context. -/
theorem execAll_wffrag {ctx : BitVec 8} {fs : List Fragment} {s : State}
    (hc : ctx.toNat < s.cfg.nWf) (hlen : ctx.toNat < s.wf.length)
    (hfs : ∀ f ∈ fs, ValidFragment f) :
    ∃ t, execAll (fs.map (.wffrag ctx)) s = .next t ∧
      t.context ctx.toNat = (wfRun ctx.toNat fs (s.context ctx.toNat)).1 ∧
      t.out.evt = s.out.evt ++ (wfRun ctx.toNat fs (s.context ctx.toNat)).2 := by
  induction fs generalizing s with
  | nil => exact ⟨s, rfl, rfl, (List.append_nil _).symm⟩
  | cons f fs ih =>
    obtain ⟨hf, hfs⟩ := List.forall_mem_cons.1 hfs
    obtain ⟨t, hrun, hctx, hevt⟩ :=
      ih (s := reassembled ctx f s) hc (by simpa using hlen) hfs
    rw [reassembled_context hlen] at hctx hevt
    refine ⟨t, (execAll_cons (exec_wffrag_of_valid hc hf)).trans hrun, hctx, ?_⟩
    rw [hevt, reassembled_evt, List.append_assoc]
    rfl

section Run

variable (i : Nat) {f : Fragment} {fs : List Fragment} {c : WfContext}

/-- What fragments of one total leave in the buffer. -/
theorem wfRun_buf (h : ∀ g ∈ fs, g.total = f.total) :
    (wfRun i (f :: fs) c).1.buf = writeBins (wfBase f c) (f :: fs) := by
  induction fs generalizing f c with
  | nil => exact wfAccept_buf_eq_writeList i f c
  | cons g fs ih =>
    obtain ⟨hg, hfs⟩ := List.forall_mem_cons.1 h
    rw [wfRun_cons, ih fun k hk => (hfs k hk).trans hg.symm,
      wfBase_of_eq (hg.trans (wfAccept_total i f c).symm), wfAccept_buf_eq_writeList, writeBins_cons _ f]

/-- Fragments of one frame of which each but the first carries a bin, and which end at the total: the row comes after
the last, and nothing else after the first's opening events (rules R177, R178). -/
theorem wfRun_of_one_frame
    (hframe : ∀ g ∈ fs, g.total = f.total ∧ g.timecode = f.timecode ∧ 1 ≤ g.width.toNat)
    (hcount : (wfAccept i f c).1.filled + binCount fs = f.total.toNat) :
    (wfRun i (f :: fs) c).1.phase = .idle ∧ ∃ last, (f :: fs).getLast? = some last ∧
      (wfRun i (f :: fs) c).2 = openingEvents i f c ++ [.rowReceived i
        (Memory.readList (wfRun i (f :: fs) c).1.buf 0 f.total.toNat) last.abl] := by
  induction fs generalizing f c with
  | nil =>
    have hfull : (wfAccept i f c).1.filled = f.total.toNat := by simpa using hcount
    refine ⟨(wfAccept_phase i f c).2 hfull, f, rfl, ?_⟩
    rw [wfRun_cons, wfRun_nil, List.append_nil, wfAccept_events_of_full i hfull]
  | cons g fs ih =>
    obtain ⟨⟨hgt, hgtc, hgpos⟩, hfs⟩ := List.forall_mem_cons.1 hframe
    rw [binCount_cons] at hcount
    have hr : ¬ restarts g (wfAccept i f c).1 := not_restarts_wfAccept i hgt hgtc
    obtain ⟨hphase, last, hlast, hevents⟩ := ih (f := g) (c := (wfAccept i f c).1)
      (by rw [hgt, hgtc]; exact hfs)
      (by rw [wfAccept_filled_of_not_restarts i hr, hgt, Nat.add_assoc]; exact hcount)
    refine ⟨hphase, last, List.getLast?_cons_cons.trans hlast, ?_⟩
    rw [wfRun_cons, hevents, wfAccept_events_of_ne i (by omega),
      openingEvents_of_not_restarts i hr, hgt]
    rfl

/-- A fragment that restarts the count and carries less than all the bins emits no row (rule R180). -/
theorem wfAccept_events_not_row (hr : restarts f c) (hwidth : f.width ≠ f.total) :
    ∀ e ∈ (wfAccept i f c).2, e.isRow = false := by
  have hne : (wfAccept i f c).1.filled ≠ f.total.toNat := fun h =>
    hwidth (BitVec.eq_of_toNat_eq ((wfAccept_filled_of_restarts i hr).symm.trans h))
  rw [wfAccept_events_of_ne i hne]
  exact openingEvents_not_row i f c

/-- Fragments each of which starts a frame and carries less than all the bins: no row, and the last one's count and
timecode (rule R180). -/
theorem wfRun_of_new_frames (hs : startsFrame f c)
    (hchain : (f :: fs).IsChain fun g h => g.timecode ≠ h.timecode)
    (hwidth : ∀ g ∈ f :: fs, g.width ≠ g.total) :
    (∀ e ∈ (wfRun i (f :: fs) c).2, e.isRow = false) ∧
      ∀ last, (f :: fs).getLast? = some last →
        (wfRun i (f :: fs) c).1.filled = last.width.toNat ∧
          (wfRun i (f :: fs) c).1.tc = last.timecode := by
  induction fs generalizing f c with
  | nil =>
    rw [wfRun_cons, wfRun_nil, List.append_nil]
    refine ⟨wfAccept_events_not_row i (.inr hs) (hwidth f (List.mem_singleton.2 rfl)), ?_⟩
    rintro _ ⟨⟩
    exact ⟨wfAccept_filled_of_restarts i (.inr hs), wfAccept_tc i⟩
  | cons g fs ih =>
    obtain ⟨hfg, hchain⟩ := List.isChain_cons_cons.1 hchain
    obtain ⟨hf, hgs⟩ := List.forall_mem_cons.1 hwidth
    have hsg : startsFrame g (wfAccept i f c).1 :=
      .inr (by rw [wfAccept_tc]; exact hfg.symm)
    obtain ⟨hrest, hlast⟩ := ih hsg hchain hgs
    rw [wfRun_cons, List.getLast?_cons_cons]
    exact ⟨List.forall_mem_append.2 ⟨wfAccept_events_not_row i (.inr hs) hf, hrest⟩, hlast⟩

end Run

/-! ## One frame, rules R178, R183 and R185 -/

/-- The second of two fragments that tile a frame, after a first that was counted alone, completes it: its one event
is the row of both. -/
theorem wfAccept_second_of_two (i : Nat) {f g : Fragment} {c : WfContext}
    (hwf : Memory.wf c.buf = true) (hf : ValidFragment f) (hg : ValidFragment g)
    (htotal : f.total = g.total) (htc : f.timecode = g.timecode)
    (htiles : tiles f.total.toNat 0 [f, g])
    (hfirst : (wfAccept i f c).1.filled = f.width.toNat) :
    (wfAccept i g (wfAccept i f c).1).1.filled = f.total.toNat ∧
      (wfAccept i g (wfAccept i f c).1).2 = [.rowReceived i (f.bins ++ g.bins) g.abl] := by
  have hr : ¬ restarts g (wfAccept i f c).1 := not_restarts_wfAccept i htotal.symm htc.symm
  have hfull : (wfAccept i g (wfAccept i f c).1).1.filled = f.total.toNat := by
    rw [wfAccept_filled_of_not_restarts i hr, hfirst, ← tiles_binCount htiles]
    simp
  have hbuf : (wfAccept i g (wfAccept i f c).1).1.buf = writeBins (wfBase f c) [f, g] :=
    wfRun_buf i (List.forall_mem_singleton.2 htotal.symm)
  have hrow := readList_writeBins_tiles (wfBase_wf (f := f) hwf) htiles
    (by simp [hf.bins_len, hg.bins_len]) (List.Perm.refl _)
  rw [wfAccept_events_of_full i (hfull.trans (congrArg _ htotal)),
    openingEvents_of_not_restarts i hr, ← htotal, hbuf, hrow]
  exact ⟨hfull, by simp⟩

/-- Settles O27: the first fragment is counted alone and falls short of the total, so that it emits its opening
events only; the second completes the frame. -/
theorem waterfallTwoFragments : Obligations.WaterfallTwoFragments := by
  intro ctx s f g hc hlen hwf hf hg htotal htc htiles hfresh
  have hcount := tiles_binCount htiles
  have hgpos : 1 ≤ g.width.toNat := tiles_width_pos htiles (by simp)
  rw [binCount_cons, binCount_cons] at hcount
  have hfirst : (wfAccept ctx.toNat f (s.context ctx.toNat)).1.filled = f.width.toNat :=
    wfAccept_filled_of_fresh _ (or_assoc.2 hfresh)
  have hctx := reassembled_context (f := f) hlen
  obtain ⟨hfull, hrow⟩ :=
    wfAccept_second_of_two ctx.toNat hwf hf hg htotal htc htiles hfirst
  refine ⟨_, _, openingEvents ctx.toNat f (s.context ctx.toNat), exec_wffrag_of_valid hc hf, ?_,
    openingEvents_not_row _ _ _,
    fun ht hs => openingEvents_of_not_restarts _ (not_or.2 ⟨not_not.2 ht, hs⟩),
    openingEvents_codes_of_ne_of_starts _, by rw [hctx, hfirst], exec_wffrag_of_valid hc hg, ?_, ?_⟩
  · rw [reassembled_evt, wfAccept_events_of_ne _ (by omega)]
  · rw [reassembled_context (by simpa using hlen), hctx, hfull]
  · rw [reassembled_evt (f := g), hctx, hrow]

/-- Settles O28: the first fragment is counted alone, so that the counts reach the total with the last, and the row
is what the fragments leave in the buffer, in whatever order. -/
theorem waterfallAnyOrder : Obligations.WaterfallAnyOrder := by
  intro ctx s total tc gs fs hc hlen hwf hgs htotal htiles hperm hfresh
  have hfs : ∀ f ∈ fs, ValidFragment f ∧ f.total = total ∧ f.timecode = tc :=
    fun f hf => hgs f (hperm.mem_iff.1 hf)
  have hpos : ∀ f ∈ fs, 1 ≤ f.width.toNat :=
    fun f hf => tiles_width_pos htiles (hperm.mem_iff.1 hf)
  have hcount : binCount fs = total.toNat := by
    rw [binCount_perm hperm, ← tiles_binCount htiles, Nat.zero_add]
  obtain ⟨t, hrun, hctx, hevt⟩ := execAll_wffrag hc hlen fun f hf => (hfs f hf).1
  cases fs with
  | nil => exact absurd (BitVec.eq_of_toNat_eq hcount.symm) htotal
  | cons f fs =>
    obtain ⟨⟨-, rfl, rfl⟩, hrest⟩ := List.forall_mem_cons.1 hfs
    obtain ⟨-, hposRest⟩ := List.forall_mem_cons.1 hpos
    have hfirst : (wfAccept ctx.toNat f (s.context ctx.toNat)).1.filled = f.width.toNat :=
      wfAccept_filled_of_fresh _ (by simpa only [restarts, startsFrame, or_assoc] using hfresh)
    have hframe : ∀ g ∈ fs, g.total = f.total ∧ g.timecode = f.timecode ∧ 1 ≤ g.width.toNat := by
      intro g hg
      obtain ⟨-, ht, htc⟩ := hrest g hg
      exact ⟨ht, htc, hposRest g hg⟩
    obtain ⟨hphase, last, hlast, hevents⟩ := wfRun_of_one_frame ctx.toNat hframe
      (by rw [hfirst, ← binCount_cons, hcount])
    rw [wfRun_buf _ fun g hg => (hframe g hg).1, readList_writeBins_tiles (wfBase_wf hwf) htiles
      (fun g hg => (hgs g hg).1.bins_len) hperm] at hevents
    refine ⟨t, openingEvents ctx.toNat f (s.context ctx.toNat), last, hrun, hlast, ?_,
      openingEvents_not_row _ _ _, ?_⟩
    · rw [hevt, hevents, List.append_assoc]
    · rw [hctx]
      exact hphase

/-! ## Frames that interleave, rule R180 -/

/-- Settles O30: each fragment starts a frame, on the state before the run or after the fragment before it. -/
theorem waterfallInterleaved : Obligations.WaterfallInterleaved := by
  intro ctx s fs hc hlen hfs hstart hchain
  obtain ⟨t, hrun, hctx, hevt⟩ := execAll_wffrag hc hlen fun f hf => (hfs f hf).1
  refine ⟨t, _, hrun, hevt, ?_⟩
  rw [hctx]
  cases fs with
  | nil => exact ⟨fun _ h => absurd h List.not_mem_nil, fun _ h => nomatch h⟩
  | cons f fs =>
    exact wfRun_of_new_frames ctx.toNat (hstart f fs rfl)
      (List.isChain_iff_forall_rel_of_append_cons_cons.2 fun g h pre post => hchain pre g h post)
      fun g hg => (hfs g hg).2

end Sys2Proof.Machine
end

section
/-! RB (rules R200 to R208): the four operations, what runs of them do to the logical content, and the laws of the
FIFO in any interleaving with the micro-steps of PUSHB and READ. -/

namespace Sys2Proof.Machine

open Sys2Proof

/-! ## One operation -/

section Operation

variable {cap : Nat} {r : Ring} {e : Word} {es : List Word}

/-- RBINS keeps the newest N elements of the content with the new one at its end (rules R200, R201). -/
theorem ringInsert_content_eq_drop (e : Word) (hr : RingInv cap r) :
    ringContent cap (ringInsert cap e r) = (ringContent cap r ++ [e]).drop (r.size + 1 - cap) := by
  rcases Nat.lt_or_eq_of_le hr.size_le with hlt | hfull
  · rw [ringInsert_content e hr hlt, Nat.sub_eq_zero_of_le hlt, List.drop_zero]
  · have hpos := hr.head_lt
    have hne : ringContent cap r ≠ [] := by
      rw [← List.length_pos_iff, ringContent_length]
      omega
    rw [ringInsert_content_full e hr hfull, hfull, Nat.add_sub_cancel_left, List.drop_one,
      List.tail_append_of_ne_nil hne]

/-- A ring that holds an element pops its oldest one, and keeps the others (rule R202). -/
theorem ringPop_of_content (hr : RingInv cap r) (h : ringContent cap r = e :: es) :
    ∃ r', ringPop cap r = some (e, r') ∧ RingInv cap r' ∧ ringContent cap r' = es := by
  cases hp : ringPop cap r with
  | none => exact absurd ((ringPop_none_iff cap r).1 hp) (by simp [h])
  | some p =>
    obtain ⟨x, r'⟩ := p
    obtain ⟨rfl, rfl⟩ := List.cons_eq_cons.1 (h.symm.trans (ringPop_content hr hp))
    exact ⟨r', rfl, ringPop_inv hr hp, rfl⟩

theorem ringContent_eq_nil_iff : ringContent cap r = [] ↔ r.size = 0 := by
  rw [← List.length_eq_zero_iff, ringContent_length]

theorem exec_rbpop_of_empty {s : State} (h : s.rb.size = 0) :
    exec .rbpop s = .next (deliver (.rbpop none) s) := (execRbpop_none_iff s).2 h

theorem exec_rbpop_of_pop {s : State} (h : ringPop s.cfg.rbCap s.rb = some (e, r)) :
    exec .rbpop s = .next (deliver (.rbpop (some e)) { s with rb := r }) := by
  show execRbpop s = _
  unfold execRbpop
  rw [h]

end Operation

/-- Settles O31: the registers branch on RB_SIZE = N, and so does the content. -/
theorem rbinsResult : Obligations.RbinsResult := by
  intro s e
  refine ⟨ringInsert s.cfg.rbCap e s.rb, rfl, rfl, fun h => ⟨if_pos h, if_pos h⟩,
    fun h => ⟨if_neg h, if_neg h⟩, fun hwf a => ?_, fun hr => ?_⟩
  · show Memory.read (Memory.write s.rb.mem s.rb.head e) a = _
    simp only [Memory.read_write hwf, eq_comm]
  · by_cases hfull : s.rb.size = s.cfg.rbCap
    · rw [if_pos hfull, ringInsert_content_full e hr hfull]
    · rw [if_neg hfull, ringInsert_content e hr (Nat.lt_of_le_of_ne hr.size_le hfull)]

/-- Settles O32: RBPOP answers what the ring primitive answers. -/
theorem rbpopResult : Obligations.RbpopResult := by
  refine fun s => ⟨exec_rbpop_of_empty, fun h => ?_⟩
  have hpop : ringPop s.cfg.rbCap s.rb = some (Memory.read s.rb.mem s.rb.tail,
      { s.rb with tail := (s.rb.tail + 1) % s.cfg.rbCap, size := s.rb.size - 1 }) := if_neg h
  exact ⟨_, exec_rbpop_of_pop hpop, rfl, fun hr => ringPop_content hr hpop⟩

/-- Settles O33: the range is the ring invariant's. -/
theorem rbsizeResult : Obligations.RbsizeResult := ⟨rfl, fun _ => ⟨RingInv.size_le, rfl⟩⟩

/-- Settles O34: the elements of the space are zeroed, and RB_SIZE = 0 gives the status outputs. -/
theorem rbclrResult : Obligations.RbclrResult := by
  refine ⟨rfl, fun s => ⟨Memory.zeroBelow s.rb.mem s.cfg.rbCap, _, rfl, rfl, fun a ha => ?_, rfl,
    fun hcap => ⟨decide_eq_false ?_, decide_eq_false ?_⟩⟩⟩
  · rw [Memory.read_zeroBelow, if_pos ha]
  · show ¬ 0 = s.cfg.rbCap
    omega
  · show ¬ s.cfg.rbCap < 0 + 4
    omega

/-! ## Runs of inserts and runs of pops -/

/-- The ring after RBINS of each element in turn. -/
def insertAll (cap : Nat) (es : List Word) (r : Ring) : Ring :=
  es.foldl (fun r e => ringInsert cap e r) r

section Inserts

variable {cap : Nat} {r : Ring}

@[simp] theorem insertAll_nil : insertAll cap [] r = r := rfl

@[simp] theorem insertAll_cons (e : Word) (es : List Word) :
    insertAll cap (e :: es) r = insertAll cap es (ringInsert cap e r) := rfl

/-- A run of RBINS is `insertAll` on the ring. -/
theorem execAll_rbins (es : List Word) (s : State) :
    execAll (es.map .rbins) s = .next { s with rb := insertAll s.cfg.rbCap es s.rb } := by
  induction es generalizing s with
  | nil => rfl
  | cons e es ih => exact (execAll_cons rfl).trans (ih (insertElem e s))

theorem insertAll_inv (es : List Word) (hr : RingInv cap r) : RingInv cap (insertAll cap es r) := by
  induction es generalizing r with
  | nil => exact hr
  | cons e es ih => exact ih (ringInsert_inv e hr)

/-- Inserts advance RB_HEAD once each, modulo N, whatever the ring holds. -/
theorem insertAll_head (es : List Word) (hr : RingInv cap r) :
    (insertAll cap es r).head = (r.head + es.length) % cap := by
  induction es generalizing r with
  | nil => exact (Nat.mod_eq_of_lt hr.head_lt).symm
  | cons e es ih =>
    rw [insertAll_cons, ih (ringInsert_inv e hr), List.length_cons]
    show ((r.head + 1) % cap + es.length) % cap = _
    rw [Nat.mod_add_mod, Nat.add_right_comm, Nat.add_assoc]

/-- After a run of inserts the ring holds the newest N of its old content and the elements inserted. -/
theorem insertAll_content (es : List Word) (hr : RingInv cap r) :
    ringContent cap (insertAll cap es r) =
      (ringContent cap r ++ es).drop (r.size + es.length - cap) := by
  induction es generalizing r with
  | nil => simp [Nat.sub_eq_zero_of_le hr.size_le]
  | cons e es ih =>
    have hle := hr.size_le
    have hstep := ringInsert_content_eq_drop e hr
    have hsize : (ringInsert cap e r).size = r.size + 1 - (r.size + 1 - cap) := by
      simpa using congrArg List.length hstep
    have hkept : r.size + 1 - cap ≤ (ringContent cap r ++ [e]).length := by simp
    rw [insertAll_cons, ih (ringInsert_inv e hr), hstep, ← List.drop_append_of_le_length hkept,
      List.drop_drop, List.append_assoc, List.singleton_append, hsize, List.length_cons]
    congr 1
    omega

end Inserts

/-- As many pops as the ring holds elements return them, oldest first, and leave it empty. -/
theorem execAll_rbpop (es : List Word) (s : State) (hr : RingInv s.cfg.rbCap s.rb)
    (h : ringContent s.cfg.rbCap s.rb = es) :
    ∃ u, execAll (List.replicate es.length .rbpop) s = .next u ∧
      u.out.dataOut = s.out.dataOut ++ es.map (fun e => .rbpop (some e)) ∧ u.rb.size = 0 := by
  induction es generalizing s with
  | nil => exact ⟨s, rfl, (List.append_nil _).symm, ringContent_eq_nil_iff.1 h⟩
  | cons e es ih =>
    obtain ⟨r, hpop, hr', hcontent⟩ := ringPop_of_content hr h
    obtain ⟨u, hrun, hout, hsize⟩ := ih (deliver (.rbpop (some e)) { s with rb := r }) hr' hcontent
    refine ⟨u, (execAll_cons (exec_rbpop_of_pop hpop)).trans hrun, ?_, hsize⟩
    rw [hout, List.map_cons, List.append_cons]
    rfl

/-! ## The overwrite law, rule R208 -/

/-- Settles O36: N + 1 inserts leave all but the first element, so the ring is full and its indices meet. -/
theorem overwriteLaw : Obligations.OverwriteLaw := by
  intro s es hr hcap hempty hlen
  have hr' := insertAll_inv es hr
  have hcontent := insertAll_content es hr
  rw [ringContent_eq_nil_iff.2 hempty, List.nil_append, hempty, hlen, Nat.zero_add,
    Nat.add_sub_cancel_left] at hcontent
  have hfull : (insertAll s.cfg.rbCap es s.rb).size = s.cfg.rbCap := by
    simpa [hlen] using congrArg List.length hcontent
  have hhead : (insertAll s.cfg.rbCap es s.rb).head = (s.rb.head + 1) % s.cfg.rbCap := by
    rw [insertAll_head es hr, hlen, Nat.add_comm s.cfg.rbCap, ← Nat.add_assoc, Nat.add_mod_right]
  have hsecond : 1 < es.length := by omega
  obtain ⟨r, hpop, -, -⟩ :=
    ringPop_of_content hr' (hcontent.trans (List.drop_eq_getElem_cons hsecond))
  refine ⟨_, _, execAll_rbins es s, hfull, hhead, (hr'.head_eq_tail hfull).symm, fun h0 => ?_,
    exec_rbpop_of_pop hpop, ?_⟩
  · rw [hhead, h0]
    exact Nat.mod_eq_of_lt (by omega)
  · rw [List.getElem?_eq_getElem hsecond]
    rfl

/-! ## The FIFO law of RBINS and RBPOP, rule R207 -/

/-- Inserts and pops that never overwrite: the elements popped, then those left, are those the ring held, then those
inserted. -/
theorem execAll_ringOp {ops : List (Option Word)} {s : State} (hr : RingInv s.cfg.rbCap s.rb)
    (hroom : ∀ pre e post u, ops = pre ++ some e :: post →
      execAll (pre.map ringOp) s = .next u → u.rb.size ≠ s.cfg.rbCap) :
    ∃ (t : State) (rs : List (Option Word)), execAll (ops.map ringOp) s = .next t ∧
      t.out.dataOut = s.out.dataOut ++ rs.map .rbpop ∧
      rs.filterMap id ++ ringContent s.cfg.rbCap t.rb =
        ringContent s.cfg.rbCap s.rb ++ ops.filterMap id := by
  induction ops generalizing s with
  | nil => exact ⟨s, [], rfl, (List.append_nil _).symm, (List.append_nil _).symm⟩
  | cons op ops ih =>
    have later {s' : State} (hstep : exec (ringOp op) s = .next s') (pre e post u)
        (hops : ops = pre ++ some e :: post) (hrun : execAll (pre.map ringOp) s' = .next u) :
        u.rb.size ≠ s.cfg.rbCap :=
      hroom (op :: pre) e post u (congrArg (op :: ·) hops) ((execAll_cons hstep).trans hrun)
    cases op with
    | some e =>
      have hlt := Nat.lt_of_le_of_ne hr.size_le (hroom [] e ops s rfl rfl)
      obtain ⟨t, rs, hrun, hout, hflow⟩ :=
        ih (s := insertElem e s) (ringInsert_inv e hr) (later rfl)
      refine ⟨t, rs, hrun, hout, hflow.trans ?_⟩
      rw [insertElem_cfg, insertElem_rb, ringInsert_content e hr hlt]
      simp
    | none =>
      cases hcontent : ringContent s.cfg.rbCap s.rb with
      | nil =>
        have hstep := exec_rbpop_of_empty (ringContent_eq_nil_iff.1 hcontent)
        obtain ⟨t, rs, hrun, hout, hflow⟩ := ih (s := deliver (.rbpop none) s) hr (later hstep)
        refine ⟨t, none :: rs, (execAll_cons hstep).trans hrun, ?_, ?_⟩
        · simpa using hout
        · simpa [hcontent] using hflow
      | cons e rest =>
        obtain ⟨r, hpop, hr', hrest⟩ := ringPop_of_content hr hcontent
        have hstep := exec_rbpop_of_pop hpop
        obtain ⟨t, rs, hrun, hout, hflow⟩ :=
          ih (s := deliver (.rbpop (some e)) { s with rb := r }) hr' (later hstep)
        refine ⟨t, some e :: rs, (execAll_cons hstep).trans hrun, ?_, ?_⟩
        · simpa using hout
        · simpa [hrest] using hflow

/-! ## The FIFO law of moves, rules R73, R207, R225, R230, R235 (e) -/

/-- A branch answers a next state when both sides do. -/
theorem ite_answers {c : Prop} [Decidable c] {a b : Host.Outcome State Fault Refusal}
    (ha : ∃ t, a = .next t) (hb : ∃ t, b = .next t) : ∃ t, (if c then a else b) = .next t := by
  split
  · exact ha
  · exact hb

/-- Every instruction answers a next state: its effect where it is legal, else the refusal (rule R101). -/
theorem exec_answers (i : Instr) (s : State) : ∃ t, exec i s = .next t := by
  cases i
  case decode | txinit | rxdgram | rbins | rbsize | rbclr | daset | closeStream | openStream =>
    exact ⟨_, rfl⟩
  case encode | sidset | wffrag | pushb | read | dawait =>
    exact ite_answers ⟨_, rfl⟩ ⟨_, rfl⟩
  case txpkt => exact ite_answers (ite_answers ⟨_, rfl⟩ ⟨_, rfl⟩) ⟨_, rfl⟩
  case rbpop =>
    show ∃ t, execRbpop s = .next t
    rw [execRbpop_eq]
    exact ite_answers ⟨_, rfl⟩ ⟨_, rfl⟩

/-- A move that does not overwrite moves elements through the ring in order. -/
theorem MoveEffect.content {m : Move} {s t : State} (h : MoveEffect m s t)
    (hr : RingInv s.cfg.rbCap s.rb) (hroom : moveIn m s t ≠ [] → s.rb.size ≠ s.cfg.rbCap) :
    RingInv s.cfg.rbCap t.rb ∧ moveOut m s t ++ ringContent s.cfg.rbCap t.rb =
      ringContent s.cfg.rbCap s.rb ++ moveIn m s t := by
  rcases h.ring with ⟨hrb, hin, hout⟩ | ⟨e, hrb, hin, hout⟩ | ⟨e, hpop, hin, hout⟩
  · rw [hrb, hin, hout, List.append_nil]
    exact ⟨hr, rfl⟩
  · have hlt := Nat.lt_of_le_of_ne hr.size_le (hroom (by simp [hin]))
    rw [hrb, hin, hout]
    exact ⟨ringInsert_inv e hr, ringInsert_content e hr hlt⟩
  · rw [hin, hout, List.append_nil]
    exact ⟨ringPop_inv hr hpop, (ringPop_content hr hpop).symm⟩

theorem Move.carry_answers (m : Move) (s : State) : ∃ t, m.carry s = .next t := by
  cases m with
  | instr i => exact exec_answers i s
  | micro q => exact ⟨_, rfl⟩

/-- Moves that never overwrite: the elements taken out, then those left, are those the ring held, then those
inserted; READ's buffer gains those taken out while READ alone takes them. -/
theorem flow_fifo {ms : List Move} {s : State} (hr : RingInv s.cfg.rbCap s.rb)
    (hw : Memory.wf s.rd.out = true) (hroom : noOverwrite ms s) (hclr : .instr .rbclr ∉ ms) :
    ∃ (ins outs : List Word) (t : State), flow ms s = some (ins, outs, t) ∧
      RingInv s.cfg.rbCap t.rb ∧
      outs ++ ringContent s.cfg.rbCap t.rb = ringContent s.cfg.rbCap s.rb ++ ins ∧
      (.instr .rbpop ∉ ms → (∀ c, .instr (.read c) ∉ ms) →
        Memory.readList t.rd.out 0 t.rd.n = Memory.readList s.rd.out 0 s.rd.n ++ outs) := by
  induction ms generalizing s with
  | nil => exact ⟨[], [], s, rfl, hr, (List.append_nil _).symm, fun _ _ => (List.append_nil _).symm⟩
  | cons m ms ih =>
    rw [List.mem_cons, not_or] at hclr
    obtain ⟨hm, hclr⟩ := hclr
    obtain ⟨s', hstep⟩ := m.carry_answers s
    have heff := moveEffect hw (Ne.symm hm) hstep
    rw [noOverwrite, hstep] at hroom
    obtain ⟨hr', hfirst⟩ := heff.content hr hroom.1
    rw [← heff.cfg] at hr'
    obtain ⟨ins, outs, t, hflow, hrt, hrest, hread⟩ := ih hr' heff.out_wf hroom.2 hclr
    rw [heff.cfg] at hrt hrest
    refine ⟨moveIn m s s' ++ ins, moveOut m s s' ++ outs, t, ?_, hrt, ?_, fun hp hd => ?_⟩
    · rw [flow, hstep]
      simp [hflow]
    · rw [List.append_assoc, hrest, ← List.append_assoc, hfirst, List.append_assoc]
    · have hfirst_read := heff.read (fun e => hp (e ▸ List.mem_cons_self))
        fun c e => hd c (e ▸ List.mem_cons_self)
      rw [hread (mt (List.mem_cons_of_mem m) hp) fun c => mt (List.mem_cons_of_mem m) (hd c),
        hfirst_read, List.append_assoc]

/-- Settles O35: the newest-N law of inserts with a run of pops, then the run of either, then the run of moves; what is
taken out of an empty ring is a prefix because the content left stands after it. -/
theorem fifoLaw : Obligations.FifoLaw := by
  refine ⟨fun s es hr hempty hlen => ?_, fun s ops hr hempty hroom => ?_,
    fun s ms hr hw hroom hclr => ?_⟩
  · have hcontent : ringContent s.cfg.rbCap (insertAll s.cfg.rbCap es s.rb) = es := by
      rw [insertAll_content es hr, ringContent_eq_nil_iff.2 hempty, hempty, Nat.zero_add,
        Nat.sub_eq_zero_of_le hlen, List.drop_zero, List.nil_append]
    obtain ⟨u, hpops, hout, hsize⟩ :=
      execAll_rbpop es { s with rb := insertAll s.cfg.rbCap es s.rb } (insertAll_inv es hr) hcontent
    have hcount := congrArg List.length hcontent
    rw [ringContent_length] at hcount
    exact ⟨_, u, execAll_rbins es s, hcount, hpops, hout, hsize, exec_rbpop_of_empty hsize⟩
  · obtain ⟨t, rs, hrun, hout, hflow⟩ := execAll_ringOp hr hroom
    rw [ringContent_eq_nil_iff.2 hempty] at hflow
    exact ⟨t, rs, hrun, hout, hflow⟩
  · obtain ⟨ins, outs, t, hflow, hrt, hcontent, hread⟩ := flow_fifo hr hw hroom hclr
    refine ⟨ins, outs, t, hflow, hrt, hcontent, fun hempty => ?_, hread⟩
    rw [ringContent_eq_nil_iff.2 hempty] at hcontent
    exact ⟨_, hcontent⟩

end Sys2Proof.Machine
end

section
/-! The sample conversion (rule R221): the fields of the pattern and the number they denote. -/

namespace Sys2Proof.Machine

open Sys2Proof

/-! ## The fields of a binary32 pattern -/

section Pattern

variable (neg : Bool) (exponent : BitVec 8) (fraction : BitVec 23)

/-- The pattern with these three fields as a number. -/
theorem pattern_toNat : (BitVec.ofBool neg ++ exponent ++ fraction).toNat =
    neg.toNat * 2 ^ 31 + exponent.toNat * 2 ^ 23 + fraction.toNat := by
  simp only [toNat_append_eq_add, BitVec.toNat_ofBool]
  omega

theorem pattern_exponent :
    (BitVec.ofBool neg ++ exponent ++ fraction).extractLsb' 23 8 = exponent := by
  apply BitVec.eq_of_toNat_eq
  have := exponent.isLt
  have := fraction.isLt
  rw [BitVec.extractLsb'_toNat, pattern_toNat, Nat.shiftRight_eq_div_pow]
  omega

theorem pattern_fraction :
    (BitVec.ofBool neg ++ exponent ++ fraction).extractLsb' 0 23 = fraction := by
  apply BitVec.eq_of_toNat_eq
  have := fraction.isLt
  rw [BitVec.extractLsb'_toNat, pattern_toNat, Nat.shiftRight_zero]
  omega

theorem pattern_sign : (BitVec.ofBool neg ++ exponent ++ fraction).getLsbD 31 = neg := by
  have := exponent.isLt
  have := fraction.isLt
  rw [BitVec.getLsbD, Nat.testBit_eq_decide_div_mod_eq, pattern_toNat]
  cases neg <;> simp <;> omega

/-- The number of a pattern whose exponent field is not 0 (93_implementation_defined.md G6). -/
theorem binary32Value_pattern (h : exponent ≠ 0) :
    binary32Value (BitVec.ofBool neg ++ exponent ++ fraction) =
      (if neg then -1 else 1) * (1 + (fraction.toNat : Rat) / 2 ^ 23) *
        (2 : Rat) ^ ((exponent.toNat : Int) - 127) := by
  have hnonzero : (BitVec.ofBool neg ++ exponent ++ fraction).extractLsb' 0 31 ≠ 0 := by
    intro hz
    have hz : ((BitVec.ofBool neg ++ exponent ++ fraction).extractLsb' 0 31).toNat = 0 :=
      congrArg BitVec.toNat hz
    rw [BitVec.extractLsb'_toNat, pattern_toNat, Nat.shiftRight_zero] at hz
    have := exponent.isLt
    have hne : exponent.toNat ≠ 0 := fun he => h (BitVec.eq_of_toNat_eq he)
    omega
  rw [binary32Value, if_neg hnonzero, pattern_sign, pattern_fraction, pattern_exponent]

end Pattern

/-! ## The conversion of a sample other than 0 -/

/-- The exponent field of a sample other than 0. -/
def sampleExponent (v : Sample) : BitVec 8 := BitVec.ofNat 8 (112 + (sampleMagnitude v).log2)

/-- The fraction field of a sample other than 0. -/
def sampleFraction (v : Sample) : BitVec 23 :=
  BitVec.ofNat 23 (sampleMagnitude v * 2 ^ (23 - (sampleMagnitude v).log2))

section Nonzero

variable {v : Sample} (h : v ≠ 0)

include h

theorem sampleMagnitude_ne_zero : sampleMagnitude v ≠ 0 := by
  rw [sampleMagnitude, Int.natAbs_ne_zero]
  exact fun h0 => h (BitVec.eq_of_toInt_eq h0)

theorem log2_sampleMagnitude_le : (sampleMagnitude v).log2 ≤ 15 := by
  have hlow := BitVec.le_toInt v
  have hhigh := BitVec.toInt_lt (x := v)
  have hlt : sampleMagnitude v < 2 ^ 16 := by
    unfold sampleMagnitude
    omega
  exact Nat.le_of_lt_succ ((Nat.log2_lt (sampleMagnitude_ne_zero h)).2 hlt)

/-- The exponent field of a sample is one of 112 to 127. -/
theorem sampleExponent_toNat : (sampleExponent v).toNat = 112 + (sampleMagnitude v).log2 := by
  have := log2_sampleMagnitude_le h
  rw [sampleExponent, BitVec.toNat_ofNat]
  omega

/-- The magnitude, its leading one at bit 23, is the fraction field and that leading one. -/
theorem sampleFraction_toNat : (sampleFraction v).toNat + 2 ^ 23 =
    sampleMagnitude v * 2 ^ (23 - (sampleMagnitude v).log2) := by
  have hle := log2_sampleMagnitude_le h
  have hlow := Nat.log2_self_le (sampleMagnitude_ne_zero h)
  have hhigh := Nat.lt_log2_self (n := sampleMagnitude v)
  have hexp : 2 ^ 23 = 2 ^ (sampleMagnitude v).log2 * 2 ^ (23 - (sampleMagnitude v).log2) := by
    rw [← pow_add, Nat.add_sub_cancel' (by omega)]
  have hge := Nat.mul_le_mul_right (2 ^ (23 - (sampleMagnitude v).log2)) hlow
  have hlt := Nat.mul_lt_mul_of_pos_right hhigh (Nat.two_pow_pos (23 - (sampleMagnitude v).log2))
  rw [pow_succ, mul_right_comm, ← hexp] at hlt
  rw [← hexp] at hge
  rw [sampleFraction, BitVec.toNat_ofNat]
  omega

theorem f32_of_ne_zero :
    f32 v = BitVec.ofBool v.msb ++ sampleExponent v ++ sampleFraction v := if_neg h

/-- The exponent field of a sample other than 0 is that of a normal number. -/
theorem f32_exponent : ((f32 v).extractLsb' 23 8).toNat = 112 + (sampleMagnitude v).log2 := by
  rw [f32_of_ne_zero h, pattern_exponent, sampleExponent_toNat h]

end Nonzero

/-- A sample is its magnitude with its sign. -/
theorem toInt_eq_sign_mul_magnitude (v : Sample) :
    (v.toInt : Rat) = (if v.msb then -1 else 1) * sampleMagnitude v := by
  have hsign : v.toInt = (if v.msb then -1 else 1) * (sampleMagnitude v : Int) := by
    unfold sampleMagnitude
    split
    · have := BitVec.toInt_neg_of_msb_true ‹_›
      omega
    · have := BitVec.toInt_nonneg_of_msb_false (x := v) (Bool.eq_false_iff.2 ‹_›)
      omega
  rw [hsign]
  split <;> simp

/-- The powers of 2 of the fraction and the exponent leave 2 ^ -15. -/
theorem scale_of_exponent {e : Nat} (he : e ≤ 15) :
    (2 : Rat) ^ (23 - e) / 2 ^ 23 * 2 ^ (((112 + e : Nat) : Int) - 127) = 1 / 32768 := by
  have hsum : ((23 - e : Nat) : Int) - (23 : Nat) + (((112 + e : Nat) : Int) - 127) = -15 := by
    omega
  rw [← zpow_natCast, ← zpow_natCast, ← zpow_sub₀ two_ne_zero, ← zpow_add₀ two_ne_zero, hsum]
  norm_num

/-- The pattern of a sample is that sample / 32768 exactly (rule R221). -/
theorem binary32Value_f32 (v : Sample) : binary32Value (f32 v) = (v.toInt : Rat) / 32768 := by
  by_cases h : v = 0
  · subst h
    simp [f32, binary32Value]
  have hexp_ne : sampleExponent v ≠ 0 := by
    intro h0
    have hzero : 0 = 112 + (sampleMagnitude v).log2 :=
      (congrArg BitVec.toNat h0).symm.trans (sampleExponent_toNat h)
    omega
  have hfrac : 1 + ((sampleFraction v).toNat : Rat) / 2 ^ 23 =
      sampleMagnitude v * 2 ^ (23 - (sampleMagnitude v).log2) / 2 ^ 23 := by
    have hcast := congrArg (Nat.cast (R := Rat)) (sampleFraction_toNat h)
    push_cast at hcast
    rw [← hcast]
    ring
  rw [f32_of_ne_zero h, binary32Value_pattern _ _ _ hexp_ne, hfrac, sampleExponent_toNat h,
    toInt_eq_sign_mul_magnitude, mul_assoc, mul_div_assoc, mul_assoc,
    scale_of_exponent (log2_sampleMagnitude_le h)]
  ring

/-- The number of the pattern +1.0. -/
theorem binary32Value_one : binary32Value 0x3F800000 = 1 := by
  rw [show (0x3F800000 : Word) = BitVec.ofBool false ++ (127 : BitVec 8) ++ (0 : BitVec 23) by decide,
    binary32Value_pattern _ _ _ (by decide)]
  simp

/-- Settles O38: the value is computed from the three fields; +1.0 would be the sample 32768. -/
theorem f32Exact : Obligations.F32Exact := by
  refine ⟨fun v => ⟨binary32Value_f32 v, fun hmax => ?_, fun hsub => ?_, fun hone => ?_⟩, by decide⟩
  · by_cases h : v = 0
    · subst h
      exact absurd hmax (by decide)
    · have hle := log2_sampleMagnitude_le h
      have hexp : 255 = 112 + (sampleMagnitude v).log2 :=
        (congrArg BitVec.toNat hmax).symm.trans (f32_exponent h)
      omega
  · by_contra hne
    have h : v ≠ 0 := fun h => hne (if_pos h)
    have hexp : 0 = 112 + (sampleMagnitude v).log2 :=
      (congrArg BitVec.toNat hsub).symm.trans (f32_exponent h)
    omega
  · have hval := binary32Value_f32 v
    rw [hone, binary32Value_one, eq_div_iff (by norm_num), one_mul] at hval
    have hint : (32768 : Int) = v.toInt := by exact_mod_cast hval
    have hlt := BitVec.toInt_lt (x := v)
    omega

end Sys2Proof.Machine
end

section
/-! The producer (rules R220 to R227): the micro-steps of PUSHB, a whole batch, and the margin it keeps. -/

namespace Sys2Proof.Machine

open Sys2Proof

/-! ## The micro-steps of PUSHB -/

theorem exec_pushb_of_idle {s : State} (vs : List Sample) (h : s.pb.state = .idle) :
    exec (.pushb vs) s = .next (pbStart vs s) := if_pos (decide_eq_true h)

theorem exec_pushb_of_busy {s : State} (vs : List Sample) (h : s.pb.state ≠ .idle) :
    exec (.pushb vs) s = .next (raise (.illegalCommand (Instr.pushb vs).word) s) :=
  if_neg ((pushbLegal_eq_false s).2 h ▸ Bool.false_ne_true)

/-- The check on a ring that is nearly full drops what is left of the batch (rules R223, R262). -/
theorem pbCheck_of_nearFull {s : State} (h : (s.rb.size : Int) > (s.cfg.rbCap : Int) - 4) :
    pbCheck s = raise (.bufferOverflow (s.pb.k - s.pb.j)) { s with pb := { s.pb with state := .done } } :=
  if_pos ((statusNearFull_iff s).2 h)

/-- The check on a ring with room lets one sample in (rule R223). -/
theorem pbCheck_of_room {s : State} (h : (s.rb.size : Int) ≤ (s.cfg.rbCap : Int) - 4) :
    pbCheck s = { s with pb := { s.pb with state := .insert } } :=
  if_neg (mt (statusNearFull_iff s).1 (not_lt.2 h))

/-- The end of a batch: one signal if a sample went in, and the two counts (rule R226). -/
theorem pbDone_eq (s : State) : pbDone s = { s with
    da := s.da || decide (1 ≤ s.pb.ins)
    pb := { s.pb with state := .idle }
    out := { s.out with dataOut := s.out.dataOut ++ [.pushb s.pb.ins (s.pb.k - s.pb.ins)] } } := by
  by_cases h : 1 ≤ s.pb.ins <;> simp [pbDone, h, signalSet, deliver]

/-- Every micro-step of PUSHB keeps PB_INS = PB_J (rule R225). -/
theorem pbStep_keeps_ins_eq {s : State} (h : s.pb.ins = s.pb.j) :
    (pbStep s).pb.ins = (pbStep s).pb.j := by
  rcases pbStep_cases s with ⟨-, e⟩ | ⟨-, e⟩ | ⟨-, e⟩ | ⟨-, e⟩ <;> rw [e]
  · exact h
  · unfold pbCheck
    split <;> exact h
  · exact congrArg (· + 1) h
  · rw [pbDone_eq]
    exact h

/-- Settles O39: the start is an `if` on PB_STATE. -/
theorem pushbStarts : Obligations.PushbStarts := by
  refine fun s vs => ⟨fun h => ?_, exec_pushb_of_busy vs⟩
  rw [exec_pushb_of_idle vs h]
  simp [pbStart]

/-- Settles O40, state by state. -/
theorem pushbMicroSteps : Obligations.PushbMicroSteps := by
  refine fun s => ⟨fun hst h => ?_, fun hst h => ?_, fun hst => ⟨_, rfl, pbStep_insert hst⟩,
    fun hst => ?_, pbStep_idle, pbStep_keeps_ins_eq⟩
  · exact (pbStep_check hst).trans (pbCheck_of_nearFull h)
  · exact (pbStep_check hst).trans (pbCheck_of_room h)
  · exact (pbStep_done hst).trans (pbDone_eq s)

/-! ## A batch in progress -/

/-- `s` with a batch `vs` in progress, `i` of its samples in the ring. -/
def midBatch (vs : List Sample) (i : Nat) (st : PbState) (s : State) : State :=
  { s with
    rb := insertAll s.cfg.rbCap ((vs.take i).map f32) s.rb
    pb := { state := st, k := vs.length, j := i, ins := i, samples := vs } }

/-- Where a batch goes once `i` of its samples are in: to its end with the last, else to the check. -/
def afterInsert (vs : List Sample) (i : Nat) : PbState := if i = vs.length then .done else .check

section Batch

variable {s : State} {vs : List Sample} {i : Nat}

theorem pbStart_eq_midBatch (vs : List Sample) (s : State) :
    pbStart vs s = midBatch vs 0 (afterInsert vs 0) s := by
  simp [pbStart, midBatch, afterInsert, eq_comm]

/-- Inserts that find room fill the ring one element each. -/
theorem insertAll_content_of_room {cap : Nat} {r : Ring} {es : List Word} (hr : RingInv cap r)
    (hroom : r.size + es.length ≤ cap) :
    ringContent cap (insertAll cap es r) = ringContent cap r ++ es := by
  rw [insertAll_content es hr, Nat.sub_eq_zero_of_le hroom, List.drop_zero]

theorem midBatch_size {st : PbState} (hr : RingInv s.cfg.rbCap s.rb) (hi : i ≤ vs.length)
    (hroom : s.rb.size + i ≤ s.cfg.rbCap) : (midBatch vs i st s).rb.size = s.rb.size + i := by
  have hlen : ((vs.take i).map f32).length = i := by simpa using hi
  have hcontent := insertAll_content_of_room (es := (vs.take i).map f32) hr (by omega)
  have hsize := congrArg List.length hcontent
  rwa [ringContent_length, List.length_append, ringContent_length, hlen] at hsize

theorem insertAll_take_succ (cap : Nat) (r : Ring) (hi : i < vs.length) :
    insertAll cap ((vs.take (i + 1)).map f32) r =
      ringInsert cap (f32 (vs.getD i 0)) (insertAll cap ((vs.take i).map f32) r) := by
  rw [List.take_succ_eq_append_getElem hi, List.getD_eq_getElem vs 0 hi, List.map_append, insertAll,
    List.foldl_append]
  rfl

/-- The insert step puts the next sample in (rule R225). -/
theorem pbInsert_midBatch (hi : i < vs.length) :
    pbInsert (midBatch vs i .insert s) = midBatch vs (i + 1) (afterInsert vs (i + 1)) s := by
  rw [midBatch, midBatch, insertAll_take_succ _ _ hi]
  rfl

/-- The check and the insert of one sample on a ring with room. -/
theorem advance_midBatch (hr : RingInv s.cfg.rbCap s.rb) (hi : i < vs.length)
    (hroom : s.rb.size + i + 4 ≤ s.cfg.rbCap) :
    advanceN .pushb 2 (midBatch vs i (afterInsert vs i) s) =
      midBatch vs (i + 1) (afterInsert vs (i + 1)) s := by
  have hst : afterInsert vs i = .check := if_neg hi.ne
  have hsize : (midBatch vs i .check s).rb.size = s.rb.size + i :=
    midBatch_size hr hi.le (by omega)
  have hcheck : pbStep (midBatch vs i .check s) = midBatch vs i .insert s :=
    (pbStep_check rfl).trans (pbCheck_of_room (by rw [hsize]; show _ ≤ (s.cfg.rbCap : Int) - 4; omega))
  rw [hst]
  show pbStep (pbStep (midBatch vs i .check s)) = _
  rw [hcheck, pbStep_insert rfl, pbInsert_midBatch hi]

/-- Two micro-steps for each sample there is room for (rule R224). -/
theorem advance_pbStart (hr : RingInv s.cfg.rbCap s.rb) (hi : i ≤ vs.length)
    (hroom : s.rb.size + i + 3 ≤ s.cfg.rbCap ∨ i = 0) :
    advanceN .pushb (2 * i) (pbStart vs s) = midBatch vs i (afterInsert vs i) s := by
  induction i with
  | zero => exact pbStart_eq_midBatch vs s
  | succ i ih => rw [Nat.mul_succ, advanceN_add, ih (by omega) (by omega),
      advance_midBatch hr hi (by omega)]

/-- The last micro-step of a batch with `i` samples in (rule R226). -/
theorem pbStep_midBatch_done : pbStep (midBatch vs i .done s) =
    { midBatch vs i .idle s with
      da := s.da || decide (1 ≤ i)
      out := { s.out with dataOut := s.out.dataOut ++ [.pushb i (vs.length - i)] } } :=
  (pbStep_done rfl).trans (pbDone_eq _)

/-- The last two micro-steps of a batch that finds the ring nearly full (rules R223, R226, R262). -/
theorem advance_midBatch_drop
    (h : ((midBatch vs i .check s).rb.size : Int) > (s.cfg.rbCap : Int) - 4) :
    advanceN .pushb 2 (midBatch vs i .check s) =
      { midBatch vs i .idle s with
        da := s.da || decide (1 ≤ i)
        out := { s.out with
          err := s.out.err ++ [.bufferOverflow (vs.length - i)]
          dataOut := s.out.dataOut ++ [.pushb i (vs.length - i)] } } := by
  have hcheck : pbStep (midBatch vs i .check s) =
      midBatch vs i .done (raise (.bufferOverflow (vs.length - i)) s) :=
    (pbStep_check rfl).trans (pbCheck_of_nearFull h)
  show pbStep (pbStep (midBatch vs i .check s)) = _
  rw [hcheck, pbStep_midBatch_done]
  rfl

end Batch

/-- Settles O42: the first check drops the batch. -/
theorem pushbOverflowDrop : Obligations.PushbOverflowDrop := by
  intro s vs hst hvs h
  have hstart : pbStart vs s = midBatch vs 0 .check s := by
    rw [pbStart_eq_midBatch, afterInsert, if_neg (mt List.length_eq_zero_iff.1 hvs ∘ Eq.symm)]
  refine ⟨_, exec_pushb_of_idle vs hst, ?_⟩
  rw [hstart, advance_midBatch_drop h]
  simp [midBatch]

/-- Settles O41: two micro-steps for each sample that fits, then the drop of the rest if there is one, then the
end. -/
theorem pushbWholeBatch : Obligations.PushbWholeBatch := by
  rintro s vs n hr hcap hst hn
  have hle : n ≤ vs.length := by omega
  have hfit : s.rb.size + n ≤ s.cfg.rbCap := by
    have := hr.size_le
    omega
  have hlen : ((vs.take n).map f32).length = n := by simpa using hle
  have hrun := advance_pbStart (vs := vs) (i := n) hr hle (by omega)
  have hcontent := insertAll_content_of_room (es := (vs.take n).map f32) hr (by omega)
  have hinv := insertAll_inv ((vs.take n).map f32) hr
  refine ⟨_, _, exec_pushb_of_idle vs hst, rfl, ?_⟩
  rw [advanceN_add, hrun]
  by_cases hdrop : n < vs.length
  · have hsize : (midBatch vs n .check s).rb.size = s.rb.size + n := midBatch_size hr hle hfit
    have hcheck : afterInsert vs n = .check := if_neg hdrop.ne
    rw [if_pos hdrop, if_pos hdrop, hcheck, advance_midBatch_drop (by rw [hsize]; omega)]
    exact ⟨rfl, hinv, hcontent, rfl⟩
  · have hdone : afterInsert vs n = .done := if_pos (by omega)
    rw [if_neg hdrop, if_neg hdrop, hdone, List.append_nil]
    have hend : advanceN .pushb 1 (midBatch vs n .done s) = _ := pbStep_midBatch_done
    rw [hend]
    exact ⟨rfl, hinv, hcontent, rfl⟩

/-! ## The margin, rules R224 and R318 -/

/-- What neither fills the ring nor lets a PUSHB past its check keeps the margin. -/
theorem MarginInv.of_le {s t : State} (h : MarginInv s) (hcfg : t.cfg = s.cfg)
    (hsize : t.rb.size ≤ s.rb.size) (hpb : t.pb.state = .insert → s.pb.state = .insert) :
    MarginInv t := by
  have hfill := h.fill
  refine ⟨by rw [hcfg]; omega, fun hst => ?_⟩
  have hchecked := h.checked (hpb hst)
  rw [hcfg]
  omega

/-- No instruction but RBINS raises RB_SIZE. -/
theorem exec_size_le {i : Instr} {s t : State} (hi : ∀ e, i ≠ .rbins e) (h : exec i s = .next t) :
    t.rb.size ≤ s.rb.size := by
  by_cases hpop : i = .rbpop
  · subst hpop
    rcases exec_cases h with rfl | ⟨-, rfl⟩ | ⟨-, rfl⟩
    · exact le_rfl
    · exact le_rfl
    · exact Nat.sub_le _ _
  by_cases hclr : i = .rbclr
  · subst hclr
    cases h
    exact Nat.zero_le _
  rw [(exec_ring_same h hi hpop hclr).2.1]

/-- No instruction lets a PUSHB past its check: a PUSHB starts before it or at its end. -/
theorem exec_pb_insert {i : Instr} {s t : State} (h : exec i s = .next t)
    (hst : t.pb.state = .insert) : s.pb.state = .insert := by
  by_contra hne
  obtain ⟨vs, rfl⟩ := (exec_writes h).pb fun e => hne (e ▸ hst)
  rcases exec_cases h with rfl | ⟨-, rfl⟩
  · exact hne hst
  · rw [pbStart_eq_midBatch] at hst
    simp only [midBatch, afterInsert] at hst
    split at hst <;> cases hst

/-- The micro-steps of PUSHB keep the margin: the check guards the insert. -/
theorem pbStep_keeps_margin {s : State} (h : MarginInv s) : MarginInv (pbStep s) := by
  have hfill := h.fill
  rcases pbStep_cases s with ⟨-, e⟩ | ⟨-, e⟩ | ⟨hst, e⟩ | ⟨-, e⟩ <;> rw [e]
  · exact h
  · by_cases hfull : (s.rb.size : Int) > (s.cfg.rbCap : Int) - 4
    · rw [pbCheck_of_nearFull hfull]
      exact h.of_le rfl le_rfl nofun
    · rw [pbCheck_of_room (not_lt.1 hfull)]
      refine ⟨hfill, fun _ => ?_⟩
      show s.rb.size + 4 ≤ s.cfg.rbCap
      omega
  · have hchecked := h.checked hst
    have hsize : (pbInsert s).rb.size = s.rb.size + 1 := if_neg (by omega)
    refine ⟨?_, fun hst' => ?_⟩
    · rw [hsize]
      exact hchecked
    · simp only [pbInsert] at hst'
      split at hst' <;> cases hst'
  · rw [pbDone_eq]
    exact h.of_le rfl le_rfl nofun

/-- READ's fill step takes an element out of the ring, and its other micro-steps leave the ring (rule R230). -/
theorem rdStep_size_le (s : State) : (rdStep s).rb.size ≤ s.rb.size := by
  by_cases hfill : s.rd.state = .fill
  · rw [rdStep_fill hfill, rdFill_eq]
    dsimp only
    split
    · exact le_rfl
    · exact Nat.sub_le _ _
  · rw [not_not.1 (mt (rdStep_writes s).rb hfill)]

/-- The micro-steps of READ keep the margin: they insert nothing. -/
theorem rdStep_keeps_margin {s : State} (h : MarginInv s) : MarginInv (rdStep s) := by
  have hcfg : (rdStep s).cfg = s.cfg := by rw [(rdStep_writes s).frame]
  have hpb : (rdStep s).pb = s.pb := by rw [(rdStep_writes s).frame]
  exact h.of_le hcfg (rdStep_size_le s) fun hst => hpb ▸ hst

/-- Settles O43, from the two facts that keep the margin and the check of PUSHB. -/
theorem producerNeverOverwrites : Obligations.ProducerNeverOverwrites := by
  refine ⟨fun i s t hi h he => h.of_le (exec_writes he).cfg (exec_size_le hi he) (exec_pb_insert he),
    fun q s h => ?_, fun s h => h.of_le rfl (Nat.zero_le _) nofun, fun s h => ?_⟩
  · cases q
    · exact pbStep_keeps_margin h
    · exact rdStep_keeps_margin h
  · have hfill := h.fill
    omega

end Sys2Proof.Machine
end

section
/-! The consumer (rules R228 to R237): the micro-steps of READ, what every completion guarantees, a whole READ, and the
hold of its wait. -/

namespace Sys2Proof.Machine

open Sys2Proof

/-! ## The byte image, rules R65 and R237 -/

theorem image_eq_flatMap_leBytes : image = List.flatMap leBytes := by
  have hbytes : bytesLe32 = leBytes := by
    funext w
    simp only [bytesLe32, leBytes, BitVec.extractLsb', Nat.shiftRight_eq_div_pow, pow_zero, Nat.div_one]
  rw [← hbytes]
  rfl

@[simp] theorem image_length (es : List Word) : (image es).length = 4 * es.length := by
  simp [image, bytesLe32, Nat.mul_comm]

/-! ## The micro-steps of READ -/

section MicroSteps

variable {s : State}

theorem exec_read_of_idle {m : BitVec 16} (h : s.rd.state = .idle) (hm : 1 ≤ m.toNat) :
    exec (.read m) s = .next (rdStart m s) := by
  have hne : m ≠ 0 := fun h0 => absurd (h0 ▸ hm) (by decide)
  exact if_pos (Bool.and_eq_true_iff.2 ⟨decide_eq_true hne, decide_eq_true h⟩)

theorem exec_read_refused {m : BitVec 16} (h : s.rd.state ≠ .idle ∨ m.toNat = 0) :
    exec (.read m) s = .next (raise (.illegalCommand (Instr.read m).word) s) := by
  have hillegal : readLegal m s = false :=
    (readLegal_eq_false m s).2 (h.symm.imp_left fun h0 => BitVec.eq_of_toNat_eq h0)
  exact if_neg (hillegal ▸ Bool.false_ne_true)

/-- The fill ends with the last element asked for, or on an empty ring (rule R230). -/
theorem rdFill_of_end (h : s.rd.n = s.rd.m ∨ s.rb.size = 0) :
    rdFill s = { s with rd := { s.rd with state := .check } } := by
  rw [rdFill_eq]
  exact if_pos h

theorem rdFill_of_some (hn : s.rd.n ≠ s.rd.m) (hsize : s.rb.size ≠ 0) :
    rdFill s = { s with
      rb := { s.rb with tail := (s.rb.tail + 1) % s.cfg.rbCap, size := s.rb.size - 1 }
      rd := { s.rd with
        out := Memory.write s.rd.out s.rd.n (Memory.read s.rb.mem s.rb.tail), n := s.rd.n + 1 } } := by
  rw [rdFill_eq]
  exact if_neg (not_or.2 ⟨hn, hsize⟩)

/-- The fill takes the oldest element out of the ring (rule R230). -/
theorem rdFill_of_pop {e : Word} {r : Ring} (hn : s.rd.n ≠ s.rd.m)
    (hpop : ringPop s.cfg.rbCap s.rb = some (e, r)) :
    rdFill s = { s with
      rb := r, rd := { s.rd with out := Memory.write s.rd.out s.rd.n e, n := s.rd.n + 1 } } := by
  rw [rdFill, if_neg hn, hpop]

theorem rdCheck_of_pos (h : 0 < s.rd.n) : rdCheck s = rdFinish s.rd.n false s := if_pos h

theorem rdCheck_of_closed (h : s.rd.n = 0) (hc : s.closed = true) : rdCheck s = rdFinish 0 true s := by
  rw [rdCheck, if_neg (by omega), if_pos hc]

/-- A check with nothing read sends the READ to its wait (rule R231). -/
theorem rdCheck_of_open (h : s.rd.n = 0) (hc : s.closed = false) :
    rdCheck s = { s with rd := { s.rd with state := .wait } } := by
  rw [rdCheck, if_neg (by omega), if_neg (Bool.eq_false_iff.1 hc)]

theorem rdWait_of_enabled (h : s.da = true ∨ s.closed = true) :
    rdWait s = { s with da := false, rd := { s.rd with state := .woken } } :=
  if_pos ((waitEnabled_iff s).2 h)

/-- The wait is a hold while DA = 0 and CLOSED = 0 (rule R233). -/
theorem rdWait_of_held (hda : s.da = false) (hc : s.closed = false) : rdWait s = s :=
  if_neg (by simp [waitEnabled, hda, hc])

theorem rdWoken_of_closed (hc : s.closed = true) : rdWoken s = rdFinish 0 true s := if_pos hc

theorem rdWoken_of_open (hc : s.closed = false) :
    rdWoken s = { s with rd := { s.rd with state := .fill } } := if_neg (Bool.eq_false_iff.1 hc)

end MicroSteps

/-- Settles O44: the start is an `if` on the count and RD_STATE. -/
theorem readStarts : Obligations.ReadStarts :=
  fun _ _ => ⟨exec_read_of_idle, exec_read_refused⟩

/-- Settles O45, state by state. -/
theorem readMicroSteps : Obligations.ReadMicroSteps := by
  refine fun s => ⟨fun hst h => (rdStep_fill hst).trans (rdFill_of_end h),
    fun hst hn hsize => (rdStep_fill hst).trans (rdFill_of_some hn hsize), fun hst hn => ?_,
    fun hst hc => ?_, fun hst hn hc => (rdStep_check hst).trans (rdCheck_of_open hn hc),
    fun hst h => (rdStep_wait hst).trans (rdWait_of_enabled h),
    fun hst hda hc => (rdStep_wait hst).trans (rdWait_of_held hda hc),
    fun hst hc => (rdStep_woken hst).trans (rdWoken_of_open hc), rdStep_idle⟩
  · rw [← image_eq_flatMap_leBytes]
    exact (rdStep_check hst).trans (rdCheck_of_pos hn)
  · rcases hst with ⟨hst, hn⟩ | hst
    · exact (rdStep_check hst).trans (rdCheck_of_closed hn hc)
    · exact (rdStep_woken hst).trans (rdWoken_of_closed hc)

/-! ## What a completion guarantees, rule R235 -/

/-- What rule R235 (a) to (c) asks of a micro-step of READ from `s` to `t`: it delivers nothing, or it completes with
at least one element, or with none because the stream is closed. -/
def ReadGuarantee (s t : State) : Prop :=
  t.out.dataOut = s.out.dataOut ∨
    ∃ (n : Nat) (cl : Bool) (bytes : List Byte), t.out.dataOut = s.out.dataOut ++ [.read n cl bytes] ∧
      t.rd.state = .idle ∧ bytes.length = 4 * n ∧ (cl = false → 1 ≤ n ∧ n ≤ s.rd.m) ∧
      (cl = true → n = 0 ∧ s.closed = true)

theorem rdFinish_guarantee {s : State} {n : Nat} {cl : Bool} (hopen : cl = false → 1 ≤ n ∧ n ≤ s.rd.m)
    (hclosed : cl = true → n = 0 ∧ s.closed = true) : ReadGuarantee s (rdFinish n cl s) :=
  .inr ⟨n, cl, _, rfl, rfl, by simp, hopen, hclosed⟩

theorem rdStep_guarantee {s : State} (h : ReadInv s.rd) : ReadGuarantee s (rdStep s) := by
  have hnone (hc : s.closed = true) : ReadGuarantee s (rdFinish 0 true s) :=
    rdFinish_guarantee nofun fun _ => ⟨rfl, hc⟩
  rcases rdStep_cases s with ⟨-, e⟩ | ⟨-, e⟩ | ⟨-, e⟩ | ⟨-, e⟩ | ⟨-, e⟩ <;> rw [e]
  · exact .inl rfl
  · rw [rdFill_eq]
    dsimp only
    split <;> exact .inl rfl
  · unfold rdCheck
    split
    · exact rdFinish_guarantee (fun _ => ⟨‹_›, h.n_le⟩) nofun
    · split
      · exact hnone ‹_›
      · exact .inl rfl
  · unfold rdWait
    split <;> exact .inl rfl
  · unfold rdWoken
    split
    · exact hnone ‹_›
    · exact .inl rfl

/-- Once an element has been read, the READ does not go to its wait (rule R235 (c)). -/
theorem rdStep_ne_wait {s : State} (h : ReadInv s.rd) (hn : 1 ≤ s.rd.n) :
    (rdStep s).rd.state ≠ .wait := by
  rcases rdStep_cases s with ⟨hst, e⟩ | ⟨hst, e⟩ | ⟨-, e⟩ | ⟨hst, -⟩ | ⟨hst, -⟩
  · rw [e, hst]
    nofun
  · rw [e, rdFill_eq]
    dsimp only
    split
    · nofun
    · rw [hst]
      nofun
  · rw [e, rdCheck_of_pos hn]
    nofun
  · exact absurd (h.waiting (.inl hst)) (by omega)
  · exact absurd (h.waiting (.inr hst)) (by omega)

/-- Settles O47: the guarantee of each micro-step, and RD_N = 0 wherever the wait can be reached. -/
theorem readAtLeastOne : Obligations.ReadAtLeastOne :=
  fun _ h => ⟨rdStep_guarantee h, rdStep_ne_wait h⟩

/-! ## A whole READ, rules R228 and R235 (d) -/

/-- From `s` to `t` a READ of `m` elements has taken the oldest `n` elements out of the ring into RD_OUT. -/
structure ReadProgress (m n : Nat) (s t : State) : Prop where
  frame : t = { s with rb := t.rb, rd := t.rd }
  state : t.rd.state = .fill
  asked : t.rd.m = m
  count : t.rd.n = n
  out_wf : Memory.wf t.rd.out = true
  out : Memory.readList t.rd.out 0 n = (ringContent s.cfg.rbCap s.rb).take n
  rest : ∀ a, n ≤ a → Memory.read t.rd.out a = Memory.read s.rd.out a
  mem : t.rb.mem = s.rb.mem
  ring : RingInv s.cfg.rbCap t.rb
  content : ringContent s.cfg.rbCap t.rb = (ringContent s.cfg.rbCap s.rb).drop n

section Progress

variable {s t : State} {m n : Nat}

theorem rdStart_progress (m : BitVec 16) (hr : RingInv s.cfg.rbCap s.rb)
    (hw : Memory.wf s.rd.out = true) : ReadProgress m.toNat 0 s (rdStart m s) :=
  { frame := rfl, state := rfl, asked := rfl, count := rfl, out_wf := hw, out := rfl,
    rest := fun _ _ => rfl, mem := rfl, ring := hr, content := rfl }

theorem ReadProgress.cfg (h : ReadProgress m n s t) : t.cfg = s.cfg := by rw [h.frame]

theorem ReadProgress.with_rb_rd (h : ReadProgress m n s t) (r : Ring) (q : ReadSeq) :
    { t with rb := r, rd := q } = { s with rb := r, rd := q } :=
  congrArg (fun u : State => { u with rb := r, rd := q }) h.frame

theorem ReadProgress.size (h : ReadProgress m n s t) : t.rb.size = s.rb.size - n := by
  simpa using congrArg List.length h.content

/-- The elements read from a start address with one more at the end. -/
theorem readList_snoc {w : Nat} (mem : Memory w) (n : Nat) :
    Memory.readList mem 0 (n + 1) = Memory.readList mem 0 n ++ [Memory.read mem n] := by
  rw [Memory.readList_append, Nat.zero_add]
  rfl

/-- RBPOP leaves RB_MEM (rule R202). -/
theorem ringPop_mem {cap : Nat} {r r' : Ring} {e : Word} (h : ringPop cap r = some (e, r')) :
    r'.mem = r.mem := by
  rcases ringPop_eq cap r with ⟨-, hp⟩ | ⟨-, hp⟩ <;> rw [hp] at h <;> cases h
  rfl

/-- A write past the elements read leaves them. -/
theorem readList_write_at_end {w : Nat} {mem : Memory w} (hw : Memory.wf mem = true) (n : Nat)
    (v : BitVec w) :
    Memory.readList (Memory.write mem n v) 0 (n + 1) = Memory.readList mem 0 n ++ [v] := by
  rw [readList_snoc, Memory.read_write_same hw]
  congr 1
  exact Memory.readList_congr n 0 fun b _ hb => Memory.read_write_other (by omega)

/-- Each fill step takes one element more while there is one to take (rule R230). -/
theorem ReadProgress.fill (h : ReadProgress m n s t) (hm : n < m) (hn : n < s.rb.size) :
    ReadProgress m (n + 1) s (rdStep t) := by
  have hlen : n < (ringContent s.cfg.rbCap s.rb).length := by rwa [ringContent_length]
  have hhead := h.content.trans (List.drop_eq_getElem_cons hlen)
  obtain ⟨r, hpop, hr, hrest⟩ := ringPop_of_content h.ring hhead
  have hpop := (congrArg (fun p : Params => ringPop p.rbCap t.rb) h.cfg).trans hpop
  have hne : t.rd.n ≠ t.rd.m := by
    rw [h.count, h.asked]
    omega
  rw [rdStep_fill h.state, rdFill_of_pop hne hpop, h.count]
  exact
    { frame := h.with_rb_rd r _
      state := h.state
      asked := h.asked
      count := rfl
      out_wf := Memory.write_wf h.out_wf n _
      out := by rw [readList_write_at_end h.out_wf, h.out, List.take_succ_eq_append_getElem hlen]
      rest := fun a ha => (Memory.read_write_other (by omega)).trans (h.rest a (by omega))
      mem := (ringPop_mem hpop).trans h.mem
      ring := hr
      content := hrest }

/-- `n` fill steps take the oldest `n` elements. -/
theorem advance_rdStart {m : BitVec 16} (hr : RingInv s.cfg.rbCap s.rb)
    (hw : Memory.wf s.rd.out = true) (hm : n ≤ m.toNat) (hn : n ≤ s.rb.size) :
    ReadProgress m.toNat n s (advanceN .read n (rdStart m s)) := by
  induction n with
  | zero => exact rdStart_progress m hr hw
  | succ n ih =>
    rw [advanceN_add]
    exact (ih (by omega) (by omega)).fill hm hn

/-- After the last fill step the READ goes to its check (rule R230). -/
theorem ReadProgress.fill_end (h : ReadProgress m n s t) (hend : n = min m s.rb.size) :
    rdStep t = { t with rd := { t.rd with state := .check } } := by
  refine (rdStep_fill h.state).trans (rdFill_of_end ?_)
  rw [h.count, h.asked, h.size]
  omega

/-- A READ that has read something completes at its check (rules R231, R237). -/
theorem ReadProgress.finish (h : ReadProgress m n s t) (hpos : 1 ≤ n) :
    rdStep { t with rd := { t.rd with state := .check } } = { s with
      rb := t.rb
      rd := { t.rd with state := .idle }
      out := { s.out with dataOut := s.out.dataOut ++ [.read n false
        (((ringContent s.cfg.rbCap s.rb).take n).flatMap leBytes)] } } := by
  have hn : 0 < t.rd.n := h.count ▸ hpos
  have hfinish : rdStep { t with rd := { t.rd with state := .check } } =
      rdFinish t.rd.n false { t with rd := { t.rd with state := .check } } :=
    Eq.trans (rdStep_check rfl) (rdCheck_of_pos hn)
  rw [hfinish, rdFinish, image_eq_flatMap_leBytes, h.count]
  dsimp only
  rw [h.out]
  exact congrArg (deliver _) (h.with_rb_rd t.rb { t.rd with state := .idle })

end Progress

/-- Settles O46: a fill step for each element there is, then the check, then the end. -/
theorem readNonBlocking : Obligations.ReadNonBlocking := by
  intro s m n hr hw hst hm hsize hn
  have hpos : 1 ≤ n := by omega
  have progress (j : Nat) (hj : j ≤ n) : ReadProgress m.toNat j s (advanceN .read j (rdStart m s)) :=
    advance_rdStart hr hw (by omega) (by omega)
  have h := progress n le_rfl
  have hcheck : advanceN .read (n + 1) (rdStart m s) = _ :=
    (advanceN_add ..).trans (h.fill_end hn)
  have hend : advanceN .read (n + 1 + 1) (rdStart m s) = _ :=
    (advanceN_add ..).trans ((congrArg rdStep hcheck).trans (h.finish hpos))
  refine ⟨_, _, exec_read_of_idle hst hm, rfl, hpos, fun j hj => ?_, ?_⟩
  · obtain hj | rfl | rfl : j ≤ n ∨ j = n + 1 ∨ j = n + 2 := by omega
    · rw [(progress j hj).state]
      nofun
    · rw [hcheck]
      nofun
    · rw [hend]
      nofun
  · rw [hend]
    exact ⟨rfl, h.mem, h.ring, h.content, h.rest, rfl⟩

/-! ## The hold, rules R233 and R236 -/

theorem rdStep_of_held {s : State} (hst : s.rd.state = .wait) (hda : s.da = false)
    (hc : s.closed = false) : rdStep s = s := (rdStep_wait hst).trans (rdWait_of_held hda hc)

/-- Settles O48: the READ's own turn and CONS's change nothing; what sets DA or CLOSED enables the wait. -/
theorem readHold : Obligations.ReadHold := by
  intro s hst hda hc
  have hwake (t : State) (hwait : t.rd.state = .wait) (h : t.da = true ∨ t.closed = true) :
      (advanceTurn .read t).rd.state = .woken := by
    show (rdStep t).rd.state = _
    rw [rdStep_wait hwait, rdWait_of_enabled h]
  refine ⟨fun ts ht => (step_turn ht).trans ?_, fun ts ht => (step_turn ht).trans ?_,
    ⟨_, rfl, hwake _ hst (.inl rfl)⟩, ⟨_, rfl, hwake _ hst (.inr rfl)⟩, fun hdone hins => ?_⟩
  · exact congrArg Host.Outcome.next (rdStep_of_held (s := withTurns ts s) hst hda hc)
  · exact issueTurn_of_held (by simp [agentHeld, readHeld, waitEnabled, hst, hda, hc])
  · have hend : advanceTurn .pushb s = _ := (pbStep_done hdone).trans (pbDone_eq s)
    rw [hend]
    exact hwake _ hst (.inl (by simp [hins]))

/-- What a micro-step leaves, any number of them leaves. -/
theorem advanceN_of_fixed {q : Sequencer} {s : State} (h : advanceTurn q s = s) (n : Nat) :
    advanceN q n s = s := by
  induction n with
  | zero => rfl
  | succ n ih => rw [advanceN_succ, h, ih]

/-- `s` with the notification taken and its READ at another micro-step. -/
def takenAt (st : RdState) (s : State) : State := { s with da := false, rd := { s.rd with state := st } }

/-- Settles O49: the wait, the wake, an empty fill, the check, and then the hold. -/
theorem staleNotification : Obligations.StaleNotification := by
  intro s hst hn _ hsize hda hc
  have hwait : rdStep s = takenAt .woken s := (rdStep_wait hst).trans (rdWait_of_enabled (.inl hda))
  have hwoken : rdStep (takenAt .woken s) = takenAt .fill s :=
    Eq.trans (rdStep_woken rfl) (rdWoken_of_open hc)
  have hfill : rdStep (takenAt .fill s) = takenAt .check s :=
    Eq.trans (rdStep_fill rfl) (rdFill_of_end (.inr hsize))
  have hcheck : rdStep (takenAt .check s) = takenAt .wait s :=
    Eq.trans (rdStep_check rfl) (rdCheck_of_open hn hc)
  have hback : takenAt .wait s = { s with da := false } := by rw [takenAt, ← hst]
  have hfour : advanceN .read 4 s = { s with da := false } := by
    show rdStep (rdStep (rdStep (rdStep s))) = _
    rw [hwait, hwoken, hfill, hcheck, hback]
  have hheld : advanceTurn .read { s with da := false } = { s with da := false } :=
    rdStep_of_held (s := { s with da := false }) hst rfl hc
  exact ⟨hfour, fun n => by rw [advanceN_add, hfour, advanceN_of_fixed hheld]⟩

end Sys2Proof.Machine
end

section
/-! The signal and the closed flag (rules R240 to R245): DASET, DAWAIT, CLOSE and OPEN, and the law of the signal. -/

namespace Sys2Proof.Machine

open Sys2Proof

/-! ## Writes that change nothing -/

theorem da_eta {s : State} {b : Bool} (h : s.da = b) : { s with da := b } = s := by rw [← h]

theorem closed_eta {s : State} {b : Bool} (h : s.closed = b) : { s with closed := b } = s := by
  rw [← h]

/-! ## DASET, OPEN and CLOSE -/

/-- A DASET on a pending notification leaves one notification (rule R240). -/
theorem exec_daset_of_set {s : State} (h : s.da = true) : exec .daset s = .next s :=
  congrArg Host.Outcome.next (da_eta h)

/-- Settles O50. -/
theorem dasetResult : Obligations.DasetResult := ⟨by decide, fun _ => ⟨rfl, exec_daset_of_set⟩⟩

/-- Settles O54: a second OPEN writes the value CLOSED has. -/
theorem openResult : Obligations.OpenResult :=
  ⟨by decide, fun _ => ⟨rfl, fun h => congrArg Host.Outcome.next (closed_eta h)⟩⟩

/-- Settles O53: with CLOSED = 1 the wait is enabled, and both the wake and the check complete the READ. -/
theorem closeReleasesReader : Obligations.CloseReleasesReader := by
  refine ⟨by decide, fun s => ⟨_, rfl, rfl, closed_eta, fun hst => ?_, fun hst hn => ?_⟩⟩
  · have hwait : rdStep { s with closed := true } = takenAt .woken { s with closed := true } :=
      Eq.trans (rdStep_wait hst) (rdWait_of_enabled (.inr rfl))
    show rdStep (rdStep { s with closed := true }) = _
    rw [hwait]
    exact Eq.trans (rdStep_woken rfl) (rdWoken_of_closed rfl)
  · exact Eq.trans (rdStep_check hst) (rdCheck_of_closed hn rfl)

/-! ## DAWAIT -/

theorem exec_dawait_of_enabled {s : State} (h : s.da = true ∨ s.closed = true) :
    exec .dawait s = .next { s with da := false } := if_pos ((waitEnabled_iff s).2 h)

/-- With DA = 0 a DAWAIT changes nothing, held or not. -/
theorem exec_dawait_of_clear {s : State} (h : s.da = false) : exec .dawait s = .next s := by
  cases hc : s.closed with
  | true => rw [exec_dawait_of_enabled (.inr hc), da_eta h]
  | false => exact if_neg (by simp [waitEnabled, h, hc])

/-- After a DAWAIT DA is 0: it was taken, or the wait is held because DA is 0. -/
theorem dawait_clears_da {s t : State} (h : exec .dawait s = .next t) : t.da = false := by
  cases hda : s.da with
  | true =>
    rw [exec_dawait_of_enabled (.inl hda)] at h
    cases h
    rfl
  | false =>
    rw [exec_dawait_of_clear hda] at h
    cases h
    exact hda

/-- Settles O51: the turn of an agent whose next command is a held DAWAIT is a clause of O5. -/
theorem dawaitResult : Obligations.DawaitResult := by
  refine ⟨by decide, fun s => ⟨waitEnabled_iff s, exec_dawait_of_enabled, exec_dawait_of_clear,
    fun a cs ts hda hc ht hs => ?_⟩⟩
  obtain ⟨-, -, -, hissue, -, -⟩ := stepRunsDecoded
  exact (hissue s a _ cs ts .dawait ht hs rfl).2 rfl hda hc

/-! ## The law of the signal, rule R242 -/

/-- Any number of DASET on a pending notification leaves one. -/
theorem execAll_daset_of_set {s : State} (h : s.da = true) (n : Nat) :
    execAll (List.replicate n .daset) s = .next s := by
  induction n with
  | zero => rfl
  | succ n ih => rw [List.replicate_succ, execAll_cons (exec_daset_of_set h), ih]

/-- An instruction leaves DA at 0 unless it is a DASET. -/
theorem exec_da_stays_clear {i : Instr} {s t : State} (hda : s.da = false) (hi : i ≠ .daset)
    (h : exec i s = .next t) : t.da = false := by
  by_contra hne
  obtain rfl | rfl := (exec_writes h).da fun e => hne (e.trans hda)
  · exact hi rfl
  · exact hne (dawait_clears_da h)

theorem execAll_da_stays_clear {is : List Instr} {s t : State} (hda : s.da = false)
    (his : .daset ∉ is) (h : execAll is s = .next t) : t.da = false := by
  induction is generalizing s with
  | nil =>
    cases h
    exact hda
  | cons i is ih =>
    rw [List.mem_cons, not_or] at his
    obtain ⟨hi, his⟩ := his
    obtain ⟨u, hu⟩ := exec_answers i s
    rw [execAll_cons hu] at h
    exact ih (exec_da_stays_clear hda (Ne.symm hi) hu) his h

/-- An instruction leaves DA at 1 unless it is a DAWAIT. -/
theorem exec_da_stays_set {i : Instr} {s t : State} (hda : s.da = true) (hi : i ≠ .dawait)
    (h : exec i s = .next t) : t.da = true := by
  by_contra hne
  obtain rfl | rfl := (exec_writes h).da fun e => hne (e.trans hda)
  · cases h
    exact hne rfl
  · exact hi rfl

/-- A micro-step of READ sets no signal. -/
theorem rdStep_da_stays_clear {s : State} (hda : s.da = false) : (rdStep s).da = false := by
  by_contra hne
  have hst := (rdStep_writes s).da fun e => hne (e.trans hda)
  rw [rdStep_wait hst, rdWait] at hne
  split at hne
  · exact hne rfl
  · exact hne hda

/-- A micro-step of PUSHB sets the signal at its end alone, if a sample went in (rule R226). -/
theorem pbStep_sets_da {s : State} (hda : s.da = false) (h : (pbStep s).da = true) :
    s.pb.state = .done ∧ 1 ≤ s.pb.ins := by
  have hst : s.pb.state = .done := (pbStep_writes s).da (by simp [hda, h])
  rw [pbStep_done hst, pbDone_eq] at h
  exact ⟨hst, by simpa [hda] using h⟩

/-- A micro-step of PUSHB takes no notification. -/
theorem pbStep_da_stays_set {s : State} (hda : s.da = true) : (pbStep s).da = true := by
  by_contra hne
  have hst := (pbStep_writes s).da fun e => hne (e.trans hda)
  rw [pbStep_done hst, pbDone_eq] at hne
  exact hne (by simp [hda])

/-- Settles O52: DASET sets DA, DAWAIT and READ's wait clear it, PUSHB's end sets it, and nothing else writes it. -/
theorem signalLaw : Obligations.SignalLaw := by
  refine ⟨fun s n hn hc => ?_, fun _ _ _ hda his h => execAll_da_stays_clear hda his h,
    fun _ => rdStep_da_stays_clear, fun _ => pbStep_sets_da, fun _ _ _ => exec_da_stays_set,
    fun _ => pbStep_da_stays_set, fun s hda h => (rdStep_writes s).da ?_⟩
  · obtain ⟨k, rfl⟩ := Nat.exists_eq_add_of_le' hn
    have hset : (signalSet s).da = true := rfl
    refine ⟨signalSet s, signalTake s, (execAll_cons rfl).trans (execAll_daset_of_set hset k), rfl,
      exec_dawait_of_enabled (.inl hset), ?_⟩
    simp [instrEnabled, waitEnabled, hc]
  · exact fun e => Bool.false_ne_true (h.symm.trans (e.trans hda))

end Sys2Proof.Machine
end

section
/-! Nothing is fatal (rule R266): no turn of the interleaving, and so no step, ends in a refusal of the model. -/

namespace Sys2Proof.Machine

open Sys2Proof

theorem exec_ne_refused (i : Instr) (s : State) (r : Refusal) : exec i s ≠ .refused r := by
  obtain ⟨t, ht⟩ := exec_answers i s
  rw [ht]
  nofun

/-- A wrong record answers the illegal command or the fault of log 7. -/
theorem badRecord_ne_refused (op : Opcode) (w : Word) (s : State) (r : Refusal) :
    badRecord op w s ≠ .refused r := by
  unfold badRecord
  split <;> nofun

theorem issueCommand_ne_refused (a : Agent) (c : Command) (cs : List Command) (s : State)
    (r : Refusal) : issueCommand a c cs s ≠ .refused r := by
  unfold issueCommand
  cases decodeCommand c with
  | ok i =>
    dsimp only
    split
    · exact exec_ne_refused i _ r
    · nofun
  | error e =>
    cases e with
    | reservedOpcode | formatField => nofun
    | operandRecord op => exact badRecord_ne_refused op c.word _ r

theorem issueTurn_ne_refused (a : Agent) (s : State) (r : Refusal) :
    issueTurn a s ≠ .refused r := by
  cases hheld : agentHeld a s with
  | true =>
    rw [issueTurn_of_held hheld]
    nofun
  | false =>
    cases hs : s.env.stream a with
    | nil =>
      rw [issueTurn_of_empty hs]
      nofun
    | cons c cs =>
      rw [issueTurn_of_free hheld hs]
      exact issueCommand_ne_refused a c cs s r

theorem takeTurn_ne_refused (u : Turn) (s : State) (r : Refusal) : takeTurn u s ≠ .refused r := by
  cases u with
  | issue a => exact issueTurn_ne_refused a s r
  | advance | reset | external => nofun

theorem step_ne_refused (s : State) (r : Refusal) : step s ≠ .refused r := by
  unfold step
  split
  · nofun
  · exact takeTurn_ne_refused _ _ r

/-- Settles O8: an instruction answers by its meaning or by a refused command, and every turn of a step ends in such
an answer, in the state it found, or in the fault of log 7. -/
theorem everyInstructionCompletes : Obligations.EveryInstructionCompletes :=
  ⟨exec_answers, step_ne_refused⟩

end Sys2Proof.Machine
end

section
/-! Reset (rules R50, R300, R303): the value of every register, and what the block does before any configuration. -/

namespace Sys2Proof.Machine

open Sys2Proof

/-! ## The registers, rule R50 -/

/-- A state that is the reset state but for its traces and inputs, which reset does not write (log 11). -/
def AtReset (p : Params) (s : State) : Prop :=
  s = { State.resetWith p with out := s.out, env := s.env }

theorem resetWith_atReset (p : Params) : AtReset p (State.resetWith p) := rfl

theorem applyReset_atReset (s : State) : AtReset s.cfg (applyReset s) := rfl

/-- Settles O10: HOST's turn is `applyReset`, whose registers are those of the machine right after reset. -/
theorem resetRegisters : Obligations.ResetRegisters := by
  refine ⟨fun p => ⟨rfl, rfl⟩, fun s ts hts => ⟨_, step_turn hts, rfl, fun u hu => ?_⟩⟩
  have hreset : AtReset s.cfg u := by
    rcases hu with rfl | rfl
    · exact applyReset_atReset (withTurns ts s)
    · exact resetWith_atReset s.cfg
  rw [hreset]
  refine ⟨rfl, rfl, rfl, Memory.read_nil, rfl, rfl, rfl, rfl, rfl, Memory.read_nil, rfl, rfl, rfl,
    rfl, rfl, rfl, rfl, rfl, List.length_replicate, fun c hc => ?_, rfl⟩
  rw [List.eq_of_mem_replicate hc]
  exact ⟨rfl, rfl, rfl, rfl, rfl, rfl, rfl, Memory.read_nil⟩

/-! ## Before any stream is assigned -/

/-- With every slot of reception unassigned no StreamID finds one, 0 included (rules R152, R303). -/
theorem routePacket_of_unassigned {parse : List Byte → Option Fragment} {sid : Word} {p : List Byte}
    {s : State} (hwf : ∀ w ∈ s.sid.wf, w = 0) (hrxa : s.sid.rxa = 0) :
    routePacket parse sid p s = (.droppedUnrouted, s) := by
  by_cases h0 : sid = 0
  · rw [h0, routePacket_zero]
  · rw [routePacket_of_no_slot h0 (mt (hwf sid) h0), hrxa, if_neg (Ne.symm h0)]

/-! ## A READ of an empty ring -/

/-- `s` with a READ of `m` elements at micro-step `st`, nothing read yet. -/
def readAt (st : RdState) (m : BitVec 16) (s : State) : State :=
  { s with rd := { s.rd with state := st, m := m.toNat, n := 0 } }

theorem rdStart_eq_readAt (m : BitVec 16) (s : State) : rdStart m s = readAt .fill m s := rfl

section Read

variable {m : BitVec 16} {s : State}

/-- A READ of an empty open ring is in its wait after two micro-steps: an empty fill and the check (rules R230,
R231). -/
theorem advance_rdStart_of_empty (hsize : s.rb.size = 0) (hc : s.closed = false) :
    advanceN .read 2 (rdStart m s) = readAt .wait m s := by
  have hfill : rdStep (readAt .fill m s) = readAt .check m s :=
    Eq.trans (rdStep_fill rfl) (rdFill_of_end (.inr hsize))
  have hcheck : rdStep (readAt .check m s) = readAt .wait m s :=
    Eq.trans (rdStep_check rfl) (rdCheck_of_open rfl hc)
  show rdStep (rdStep (rdStart m s)) = _
  rw [rdStart_eq_readAt, hfill, hcheck]

/-- With nothing signalled it is then held: further micro-steps change nothing (rule R233). -/
theorem advance_rdStart_held (hsize : s.rb.size = 0) (hda : s.da = false) (hc : s.closed = false)
    {n : Nat} (hn : 2 ≤ n) :
    advanceN .read n (rdStart m s) = advanceN .read 2 (rdStart m s) := by
  have hheld : advanceTurn .read (readAt .wait m s) = readAt .wait m s :=
    rdStep_of_held (s := readAt .wait m s) rfl hda hc
  obtain ⟨k, rfl⟩ := Nat.exists_eq_add_of_le hn
  rw [advanceN_add, advance_rdStart_of_empty hsize hc, advanceN_of_fixed hheld]

end Read

/-! ## The first sample of a PUSHB -/

/-- A PUSHB that finds an empty ring has its first sample in it after two micro-steps (rules R223, R225). -/
theorem advance_pbStart_of_empty {v : Sample} {vs : List Sample} {s : State}
    (hr : RingInv s.cfg.rbCap s.rb) (hsize : s.rb.size = 0) (hcap : 4 ≤ s.cfg.rbCap) :
    advanceN .pushb 2 (pbStart (v :: vs) s) = midBatch (v :: vs) 1 (afterInsert (v :: vs) 1) s :=
  advance_pbStart (i := 1) hr (Nat.succ_pos _) (.inl (by omega))

/-- That sample is then all the ring holds (rule R225). -/
theorem midBatch_one_content {v : Sample} {vs : List Sample} {st : PbState} {s : State}
    (hr : RingInv s.cfg.rbCap s.rb) (hsize : s.rb.size = 0) (hcap : 1 ≤ s.cfg.rbCap) :
    ringContent s.cfg.rbCap (midBatch (v :: vs) 1 st s).rb = [f32 v] := by
  have hroom : s.rb.size + [f32 v].length ≤ s.cfg.rbCap := by
    rwa [hsize, Nat.zero_add]
  refine (insertAll_content_of_room hr hroom).trans ?_
  rw [ringContent_eq_nil_iff.2 hsize, List.nil_append]

/-! ## The first fragment of a stream -/

/-- Step 4 emits nothing but a row (rule R178). -/
theorem wfComplete_isRow (i : Nat) (f : Fragment) (c : WfContext) :
    ∀ e ∈ (wfComplete i f c).2, e.isRow = true := by
  rcases wfComplete_events i f c with h | h <;> simp [h, Event.isRow]

/-- A fragment that configures a context and starts a frame emits both events of steps 1 and 2, then what step 4
emits (rule R184). -/
theorem wfAccept_events_of_ne_of_starts (i : Nat) {f : Fragment} {c : WfContext}
    (ht : f.total ≠ c.total) (hs : startsFrame f c) :
    (wfAccept i f c).2 = .binsConfigured i f.total ::
      .dataRangeChanged i f.low (BitVec.ofNat 64 (upperBound f)) ::
        (wfComplete i f (wfAccept i f c).1).2 := by
  rw [wfAccept_events, wfConfigure_of_ne i ht, wfNewFrame_of_starts i hs]
  rfl

/-- The contexts of the machine right after reset, those past N_WF included (log 20). -/
theorem resetWith_context (p : Params) (i : Nat) :
    (State.resetWith p).context i = WfContext.reset := by
  simp only [State.context, State.resetWith, List.getD_eq_getElem?_getD, List.getElem?_replicate]
  split <;> rfl

section FirstFragment

variable {p : Params} {ctx : BitVec 8} {f : Fragment}

/-- A valid fragment right after reset is the first packet of its stream: what it emits (rules R172, R175, R303). -/
theorem reassembled_resetWith_out (hf : ValidFragment f) :
    (reassembled ctx f (State.resetWith p)).out = { Traces.start with
      evt := .binsConfigured ctx.toNat f.total ::
        .dataRangeChanged ctx.toNat f.low (BitVec.ofNat 64 (upperBound f)) ::
          (wfComplete ctx.toNat f (wfAccept ctx.toNat f WfContext.reset).1).2
      dataOut := [.wffrag true] } := by
  have hevents := wfAccept_events_of_ne_of_starts (c := WfContext.reset) ctx.toNat hf.total_ne
    (.inl rfl)
  rw [← hevents, ← resetWith_context p ctx.toNat]
  rfl

/-- It is counted alone (rules R172, R177). -/
theorem reassembled_resetWith_filled (hctx : ctx.toNat < p.nWf) (hf : ValidFragment f) :
    ((reassembled ctx f (State.resetWith p)).context ctx.toNat).filled = f.width.toNat := by
  have hlen : ctx.toNat < (State.resetWith p).wf.length := by
    rwa [State.resetWith, List.length_replicate]
  rw [reassembled_context hlen, resetWith_context]
  exact wfAccept_filled_of_restarts _ (.inl hf.total_ne)

end FirstFragment

/-- Settles O11: each clause is the general fact about its operation, at the registers of reset. -/
theorem afterReset : Obligations.AfterReset := by
  intro p
  refine ⟨fun b h sid k pl hd => ?_, fun pl hpl => txpktNoStream _ pl hpl rfl, fun m hm => ?_,
    fun v vs hcap => ?_, fun ctx f hctx hf => ⟨_, _, exec_wffrag_of_valid hctx hf,
      reassembled_resetWith_out hf, wfComplete_isRow _ _ _, reassembled_resetWith_filled hctx hf⟩,
    fun b => rfl, fun h sid k pl hpl => exec_encode h sid k hpl _⟩
  · exact exec_rxdgram_of_route ((routeDatagram_of_ok hd).trans
      (routePacket_of_unassigned (fun _ => List.eq_of_mem_replicate) rfl))
  · have hpos : 1 ≤ m.toNat :=
      Nat.one_le_iff_ne_zero.2 fun h0 => hm (BitVec.eq_of_toNat_eq h0)
    refine ⟨_, exec_read_of_idle rfl hpos, ?_, fun n => advance_rdStart_held rfl rfl rfl⟩
    rw [advance_rdStart_of_empty rfl rfl]
    rfl
  · have hring : RingInv p.rbCap (State.resetWith p).rb := ringReset_inv (by omega)
    have hcontent : ringContent p.rbCap
        (midBatch (v :: vs) 1 (afterInsert (v :: vs) 1) (State.resetWith p)).rb = [f32 v] :=
      midBatch_one_content (s := State.resetWith p) hring rfl (Nat.one_le_of_lt hcap)
    refine ⟨_, _, exec_pushb_of_idle _ rfl, (advance_pbStart_of_empty hring rfl hcap).symm, ?_,
      hcontent, rfl, rfl⟩
    rw [← ringContent_length p.rbCap, hcontent, List.length_singleton]

end Sys2Proof.Machine
end
